-- ==== Sys2Proof/Word.lean ====
section
/-! DEFINITION. The numerics parameter `NUM` of the block and the values of its carrier `NUM.T`
(spec/00_scope.md rules R6, R8; spec/92_eei_decisions.md D2), held as plain data.

Under the reference instantiation `NUM = REAL` the carrier is the real numbers. A real number is not
plain data, so a value is held as the exact expression that denotes it: a rational, a real number known by
its index only, or an operation of the record applied to values. Nothing is rounded. `NumT.val` says which
real number an expression denotes. Under another `NUM` the same data are names of the elements of that
record's carrier. The operations are in `Machine/Numerics.lean`. See assumption log entries 1 and 11. -/

namespace Sys2Proof

/-- The parameter `NUM` (rule R6): which numerics record the block is built with. -/
inductive Num where
  /-- `REAL`, the reference instantiation: exact real numbers -/
  | real
  /-- any other record, known by its index only (spec/93_implementation_defined.md item U11) -/
  | other (n : Nat)
deriving DecidableEq, Repr

/-- A value of `NUM.T` (rule R8). Under `NUM = REAL`, an exact expression: a value that is rational by its
form is a `rat`, and the other operations stand where the result is not known to be rational. Under
another `NUM`, the name of an element of its carrier. -/
inductive NumT where
  /-- an exact rational (`ofInt`, `ofDecimal`; rule R7) -/
  | rat (q : Rat)
  /-- the value of index `n`: under `NUM = REAL` the real number `Config.realOf n`, which may be any -/
  | sym (n : Nat)
  /-- `add a b` -/
  | plus (a b : NumT)
  /-- `sub a b` -/
  | minus (a b : NumT)
  /-- `mul a b` -/
  | times (a b : NumT)
  /-- `div a b` -/
  | quot (a b : NumT)
  /-- `neg a` -/
  | opp (a : NumT)
  /-- `sin2pi a`: the sine of a whole turn times `a` -/
  | sinTurn (a : NumT)
  /-- `tanpi a`: the tangent of half a turn times `a` -/
  | tanHalf (a : NumT)
  /-- `pow10 a`: ten to the power `a` -/
  | tenTo (a : NumT)
deriving DecidableEq, Repr, Inhabited

/-- The operations of a numerics record (rule R8). `ofInt` and `ofDecimal` are no fields: the element they
give is named by the literal, `NumT.rat` (assumption log entry 11). -/
structure NumRecord where
  /-- `add` -/
  add : NumT → NumT → NumT
  /-- `sub` -/
  sub : NumT → NumT → NumT
  /-- `mul` -/
  mul : NumT → NumT → NumT
  /-- `div` -/
  div : NumT → NumT → NumT
  /-- `neg` -/
  neg : NumT → NumT
  /-- `lt` -/
  lt : NumT → NumT → Bool
  /-- `le` -/
  le : NumT → NumT → Bool
  /-- `floor : T → Int` -/
  floor : NumT → Int
  /-- `sin2pi`: p ↦ sin(2πp) -/
  sin2pi : NumT → NumT
  /-- `tanpi`: x ↦ tan(πx) -/
  tanpi : NumT → NumT
  /-- `pow10`: x ↦ 10^x -/
  pow10 : NumT → NumT
  /-- the operand is a finite member of `T` (rule R9) -/
  finite : NumT → Bool
deriving Inhabited

/-- FREE VALUE (assumption log entry 1): the real number that `NumT.sym n` denotes under `NUM = REAL`. It
has no body, so what is proved of an operand `sym n` is proved of every real number. -/
noncomputable opaque Config.realOf : Nat → ℝ

/-- FREE VALUE (assumption log entry 11): the operations of the numerics records other than `REAL`.
Rule R8: "the result of each operation is whatever `NUM` returns". -/
opaque Config.otherNum : Nat → NumRecord

/-- The real number a value denotes under `NUM = REAL`: each constructor is the record's operation of rule
R8, `sin2pi p = sin(2πp)`, `tanpi x = tan(πx)`, `pow10 x = 10^x`. -/
noncomputable def NumT.val : NumT → ℝ
  | .rat q => (q : ℝ)
  | .sym n => Config.realOf n
  | .plus a b => a.val + b.val
  | .minus a b => a.val - b.val
  | .times a b => a.val * b.val
  | .quot a b => a.val / b.val
  | .opp a => -a.val
  | .sinTurn a => Real.sin (2 * Real.pi * a.val)
  | .tanHalf a => Real.tan (Real.pi * a.val)
  | .tenTo a => (10 : ℝ) ^ a.val

/-- The rational a value is by its form, if it is one. -/
def NumT.rat? : NumT → Option Rat
  | .rat q => some q
  | _ => none

end Sys2Proof
end

