-- ==== Sys2Proof/Machine/Numerics.lean ====
section
/-! DEFINITION. The operations of the record `NUM` (spec/00_scope.md rules R7, R8, R9, R11): `add, sub, mul,
div, neg, lt, le, floor, ofInt, ofDecimal, sin2pi, tanpi, pow10`, first those of `NUM = REAL`, then those of
the record the block is built with, and the primitives of rule R11 on them (`frac`, `rmod`, `imod`, `ceil`,
`clamp`).

For `NUM = REAL` every operation is exact. An operation on two rationals gives the rational; the sine,
tangent and power are rational at the arguments where their value is known to be (multiples of 1/12 and 1/4
of a turn, whole exponents). `lt` and `floor` are the order and the integer part of the real numbers, for
all values: computed on rationals, computed from rigorous enclosures (`encl`, 64 binary places) where those
decide, and otherwise given by their definition (`truth`, `integerPart`), which a proof can use and a
computation cannot reach. See assumption log entries 1, 4 and 11. -/

namespace Sys2Proof

/-! ## Arithmetic -/

/-- `NUM.ofInt` -/
def NumT.ofInt (z : Int) : NumT := .rat z

/-- A bit read as a number (rule R94). -/
def NumT.ofBit (b : Bool) : NumT := .rat (if b then 1 else 0)

/-- The constant 0, the result of a command with no result (rule R94). -/
def NumT.zero : NumT := .rat 0

/-- The constant 1. -/
def NumT.one : NumT := .rat 1

/-- `REAL.add` -/
def NumT.add (a b : NumT) : NumT :=
  match a.rat?, b.rat? with
  | some p, some q => .rat (p + q)
  | some p, none => if p = 0 then b else .plus a b
  | none, some q => if q = 0 then a else .plus a b
  | none, none => .plus a b

/-- `REAL.sub` -/
def NumT.sub (a b : NumT) : NumT :=
  match a.rat?, b.rat? with
  | some p, some q => .rat (p - q)
  | none, some q => if q = 0 then a else .minus a b
  | _, none => .minus a b

/-- `REAL.mul` -/
def NumT.mul (a b : NumT) : NumT :=
  match a.rat?, b.rat? with
  | some p, some q => .rat (p * q)
  | some p, none => if p = 0 then .rat 0 else if p = 1 then b else .times a b
  | none, some q => if q = 0 then .rat 0 else if q = 1 then a else .times a b
  | none, none => .times a b

/-- `REAL.div`. No rule of the spec divides by zero (rule R252). -/
def NumT.div (a b : NumT) : NumT :=
  match a.rat?, b.rat? with
  | some p, some q => .rat (p / q)
  | some p, none => if p = 0 then .rat 0 else .quot a b
  | none, some q => if q = 1 then a else .quot a b
  | none, none => .quot a b

/-- `REAL.neg` -/
def NumT.neg (a : NumT) : NumT :=
  match a.rat? with
  | some p => .rat (-p)
  | none => .opp a

/-- The sine of `k` twelfths of a turn where it is rational, `k` = 0..11. -/
def sinTwelfth (k : Rat) : Option Rat :=
  if k = 0 then some 0
  else if k = 1 then some (1 / 2)
  else if k = 3 then some 1
  else if k = 5 then some (1 / 2)
  else if k = 6 then some 0
  else if k = 7 then some (-1 / 2)
  else if k = 9 then some (-1)
  else if k = 11 then some (-1 / 2)
  else none

/-- `REAL.sin2pi`: p ↦ sin(2πp) -/
def NumT.sin2pi (a : NumT) : NumT :=
  match a.rat? with
  | some q =>
    match sinTwelfth (12 * (q - (q.floor : Rat))) with
    | some r => .rat r
    | none => .sinTurn a
  | none => .sinTurn a

/-- The tangent of `k` quarters of half a turn where it is rational, `k` = 0..3. -/
def tanQuarter (k : Rat) : Option Rat :=
  if k = 0 then some 0
  else if k = 1 then some 1
  else if k = 3 then some (-1)
  else none

/-- `REAL.tanpi`: x ↦ tan(πx) -/
def NumT.tanpi (a : NumT) : NumT :=
  match a.rat? with
  | some q =>
    match tanQuarter (4 * (q - (q.floor : Rat))) with
    | some r => .rat r
    | none => .tanHalf a
  | none => .tanHalf a

/-- `REAL.pow10`: x ↦ 10^x -/
def NumT.pow10 (a : NumT) : NumT :=
  match a.rat? with
  | some q =>
    if q.den = 1 then
      if 0 ≤ q.num then .rat ((10 : Rat) ^ q.num.toNat) else .rat (1 / (10 : Rat) ^ (-q.num).toNat)
    else .tenTo a
  | none => .tenTo a

/-! ## Enclosures -/

/-- 64 binary places. -/
def scale : Nat := 2 ^ 64

/-- A closed interval whose ends are whole multiples of 2⁻⁶⁴, held as the multipliers. -/
structure Ival where
  lo : Int
  hi : Int
deriving DecidableEq, Repr

/-- The smallest interval around a rational. -/
def Ival.ofRat (q : Rat) : Ival := ⟨q.num * scale / q.den, -(-(q.num * scale) / q.den)⟩

def Ival.add (a b : Ival) : Ival := ⟨a.lo + b.lo, a.hi + b.hi⟩

def Ival.neg (a : Ival) : Ival := ⟨-a.hi, -a.lo⟩

def Ival.sub (a b : Ival) : Ival := a.add b.neg

/-- Multiplication: the least and the greatest corner product, rounded outward. -/
def Ival.mul (a b : Ival) : Ival :=
  let x := a.lo * b.lo
  let y := a.lo * b.hi
  let z := a.hi * b.lo
  let w := a.hi * b.hi
  ⟨min (min x y) (min z w) / scale, -(-(max (max x y) (max z w)) / scale)⟩

/-- The reciprocal of an interval of positive numbers, rounded outward. -/
def Ival.invPos (a : Ival) : Ival :=
  ⟨(scale * scale : Int) / a.hi, -(-(scale * scale : Int) / a.lo)⟩

/-- The reciprocal, where the interval does not hold 0. -/
def Ival.inv (a : Ival) : Option Ival :=
  if 0 < a.lo then some a.invPos
  else if a.hi < 0 then some a.neg.invPos.neg
  else none

/-- Division by a positive whole number, rounded outward. -/
def Ival.divNat (a : Ival) (n : Nat) : Ival := ⟨a.lo / n, -(-a.hi / n)⟩

/-- An interval around 2π, from the first twenty decimals of π. -/
def Ival.twoPi : Ival :=
  ⟨2 * 314159265358979323846 * scale / 10 ^ 20, -(-(2 * 314159265358979323847 * scale) / 10 ^ 20)⟩

/-- The number 1. -/
def Ival.one : Ival := ⟨scale, scale⟩

/-- The nested form of the sine's series: `1 - z/((2k+2)(2k+3)) · (…)`, `fuel` levels deep. -/
def Ival.sinNest (z : Ival) : Nat → Nat → Ival
  | _, 0 => Ival.one
  | k, fuel + 1 =>
    Ival.one.sub ((z.mul (Ival.sinNest z (k + 1) fuel)).divNat ((2 * k + 2) * (2 * k + 3)))

/-- An interval widened on both sides. -/
def Ival.widen (a : Ival) (e : Int) : Ival := ⟨a.lo - e, a.hi + e⟩

/-- An interval around sin(2πp), where p = n · 2⁻⁶⁴: the phase is brought into half a turn around 0, the
series is taken to 24 terms, and the remainder is added. -/
def Ival.sinPoint (n : Int) : Ival :=
  let m := (n + (scale / 2 : Nat)) % scale - (scale / 2 : Nat)
  let y := (Ival.mk m m).mul Ival.twoPi
  (y.mul (Ival.sinNest (y.mul y) 0 23)).widen 1

/-- An interval around sin(2πp) for every p of an interval: the value at the lower end, widened by
seven (more than 2π) times the width. -/
def Ival.sinTurn (a : Ival) : Ival := (Ival.sinPoint a.lo).widen (7 * (a.hi - a.lo))

/-- An interval around tan(πx) for every x of an interval: sin(2π·x/2) / sin(2π·(x/2 + 1/4)). -/
def Ival.tanHalf (a : Ival) : Option Ival :=
  let h := a.divNat 2
  match (h.add ⟨scale / 4, scale / 4⟩).sinTurn.inv with
  | some c => some (h.sinTurn.mul c)
  | none => none

/-- The greatest sum of powers of two below `2^fuel` found to satisfy `ok`, from the highest bit down. -/
def searchBits (ok : Nat → Bool) : Nat → Nat → Nat
  | 0, r => r
  | k + 1, r => searchBits ok k (if ok (r + 2 ^ k) then r + 2 ^ k else r)

/-- `r · 2⁻⁶⁴ ≤ 10^q`, decided on whole numbers. -/
def belowTenTo (q : Rat) (r : Nat) : Bool :=
  if 0 ≤ q.num then r ^ q.den ≤ 10 ^ q.num.toNat * scale ^ q.den
  else r ^ q.den * 10 ^ (-q.num).toNat ≤ scale ^ q.den

/-- `10^q ≤ r · 2⁻⁶⁴`, decided on whole numbers. -/
def aboveTenTo (q : Rat) (r : Nat) : Bool :=
  if 0 ≤ q.num then 10 ^ q.num.toNat * scale ^ q.den ≤ r ^ q.den
  else scale ^ q.den ≤ r ^ q.den * 10 ^ (-q.num).toNat

/-- An interval around 10^q: a candidate is searched for and both ends are then checked. -/
def Ival.tenTo (q : Rat) : Option Ival :=
  let r := searchBits (belowTenTo q) (65 + 4 * (q.floor + 1).toNat) 0
  if belowTenTo q r && aboveTenTo q (r + 1) then some ⟨r, r + 1⟩ else none

/-- An interval that holds the real number a value denotes, where one can be computed. -/
def NumT.encl : NumT → Option Ival
  | .rat q => some (Ival.ofRat q)
  | .sym _ => none
  | .plus a b =>
    match a.encl, b.encl with
    | some x, some y => some (x.add y)
    | _, _ => none
  | .minus a b =>
    match a.encl, b.encl with
    | some x, some y => some (x.sub y)
    | _, _ => none
  | .times a b =>
    match a.encl, b.encl with
    | some x, some y => some (x.mul y)
    | _, _ => none
  | .quot a b =>
    match a.encl, b.encl with
    | some x, some y => y.inv.map x.mul
    | _, _ => none
  | .opp a => a.encl.map Ival.neg
  | .sinTurn a => a.encl.map Ival.sinTurn
  | .tanHalf a =>
    match a.encl with
    | some x => x.tanHalf
    | none => none
  | .tenTo a =>
    match a.rat? with
    | some q => Ival.tenTo q
    | none => none

/-! ## Comparison and rounding to an integer -/

/-- Some element of a type that has one. It is defined by an equation that holds of every element, so it
can be proved to have exactly the properties its type states. -/
def someOf {α : Type} [Nonempty α] (u : Unit) : α := someOf u
partial_fixpoint

theorem truth_exists (p : Prop) : Nonempty { b : Bool // b = true ↔ p } := by
  classical exact ⟨⟨decide p, by simp⟩⟩

/-- The truth value of a proposition. -/
def truth (p : Prop) : Bool := (@someOf _ (truth_exists p) ()).val

theorem integerPart_exists (a : NumT) : Nonempty { z : Int // z = ⌊a.val⌋ } := ⟨⟨_, rfl⟩⟩

/-- The greatest integer not above the real number a value denotes. -/
def NumT.integerPart (a : NumT) : Int := (@someOf _ (integerPart_exists a) ()).val

/-- What two enclosures say of `a < b`: yes, no, or nothing. -/
def Ival.lt? (x y : Ival) : Option Bool :=
  if x.hi < y.lo then some true
  else if y.hi ≤ x.lo then some false
  else none

/-- The order of two values where their enclosures decide it. -/
def NumT.lt? (a b : NumT) : Option Bool :=
  match a.encl, b.encl with
  | some x, some y => x.lt? y
  | _, _ => none

/-- `REAL.lt`: the order of the real numbers. -/
def NumT.lt (a b : NumT) : Bool :=
  match a.rat?, b.rat? with
  | some p, some q => decide (p < q)
  | _, _ =>
    match a.lt? b with
    | some r => r
    | none => truth (a.val < b.val)

/-- `REAL.le` -/
def NumT.le (a b : NumT) : Bool := !b.lt a

/-- The integer part of a value where both ends of its enclosure have the same one. -/
def NumT.floor? (a : NumT) : Option Int :=
  match a.encl with
  | some x => if x.lo / scale = x.hi / scale then some (x.lo / scale) else none
  | none => none

/-- `REAL.floor`: the greatest integer not above the value (rule R11). -/
def NumT.floor (a : NumT) : Int :=
  match a.rat? with
  | some q => q.floor
  | none =>
    match a.floor? with
    | some z => z
    | none => a.integerPart

/-! ## The record the block is built with -/

/-- The operations of the record: those above for `REAL`, free ones for any other (assumption log entry
11). Every real number is finite (rule R9). -/
def Num.record : Num → NumRecord
  | .real =>
    { add := NumT.add, sub := NumT.sub, mul := NumT.mul, div := NumT.div, neg := NumT.neg
      lt := NumT.lt, le := NumT.le, floor := NumT.floor
      sin2pi := NumT.sin2pi, tanpi := NumT.tanpi, pow10 := NumT.pow10, finite := fun _ => true }
  | .other n => Config.otherNum n

def Num.add (N : Num) (a b : NumT) : NumT := N.record.add a b
def Num.sub (N : Num) (a b : NumT) : NumT := N.record.sub a b
def Num.mul (N : Num) (a b : NumT) : NumT := N.record.mul a b
def Num.div (N : Num) (a b : NumT) : NumT := N.record.div a b
def Num.neg (N : Num) (a : NumT) : NumT := N.record.neg a
def Num.lt (N : Num) (a b : NumT) : Bool := N.record.lt a b
def Num.le (N : Num) (a b : NumT) : Bool := N.record.le a b
def Num.floor (N : Num) (a : NumT) : Int := N.record.floor a
def Num.sin2pi (N : Num) (a : NumT) : NumT := N.record.sin2pi a
def Num.tanpi (N : Num) (a : NumT) : NumT := N.record.tanpi a
def Num.pow10 (N : Num) (a : NumT) : NumT := N.record.pow10 a
def Num.finite (N : Num) (a : NumT) : Bool := N.record.finite a

/-! ## The primitives of rule R11 -/

/-- `ceil(x) = −floor(−x)` -/
def Num.ceil (N : Num) (a : NumT) : Int := -(N.floor (N.neg a))

/-- `frac(x) = x − floor(x)` -/
def Num.frac (N : Num) (a : NumT) : NumT := N.sub a (.ofInt (N.floor a))

/-- `rmod(a, L) = a − L·floor(a / L)`. Both factors of the product are integers, and rule R11 does not say whether
it is taken on the integers or in `NUM`: the model takes `NUM.mul` of the two, the model's choice (assumption
log entry 17). Under `NUM = REAL` the two are the same. -/
def Num.rmod (N : Num) (a : NumT) (len : Nat) : NumT :=
  N.sub a (N.mul (.ofInt len) (.ofInt (N.floor (N.div a (.ofInt len)))))

/-- `imod(a, L)`: the integer in [0, L) congruent to a modulo L -/
def imod (a : Int) (len : Nat) : Nat := (a % len).toNat

/-- `clamp(x, lo, hi)` -/
def Num.clamp (N : Num) (x lo hi : NumT) : NumT := if N.lt x lo then lo else if N.lt hi x then hi else x

end Sys2Proof
end

