-- ==== Sys2Proof/Syntax.lean ====
section
/-! DEFINITION. The commands of the block: one constructor per row of spec/opcode_table.json
(spec/30_encoding.md rules R91, R92, R95). Fields that must be zero are no fields. -/

namespace Sys2Proof

/-- The four all-pass stages, stage 0 first in the cascade (rule R12; the `stage` field, rule R92:
all four values legal). -/
inductive Stage where
  | s0 | s1 | s2 | s3
deriving DecidableEq, Repr

/-- The `eng` field (rule R92): which engine's oscillator. -/
inductive Engine where
  | phaser | flanger
deriving DecidableEq, Repr

/-- The four waveforms that have a rendering rule (spec/10_state.md rule R28, spec/41_lfo.md rule
R128): codes 0 SINE, 1 TRI, 2 SAW, 3 ISAW. -/
inductive Wave where
  | sine | tri | saw | isaw
deriving DecidableEq, Repr

/-- The 24 commands of rule R95. `DIN` is no field of the word: it is the machine's port register
`DIN` (rule R21). -/
inductive Instr where
  /-- `NOP` (0x00, format F0, rule R230) -/
  | nop
  /-- `SYS.GETE` (0x01, F0, rule R231) -/
  | sysGete
  /-- `SYS.CLRE` (0x02, F0, rule R232) -/
  | sysClre
  /-- `PH.RESET n, fs` (0x10, FR, rule R160) -/
  | phReset (n : BitVec 8)
  /-- `PH.SETP name, value` (0x11, FP, rule R161) -/
  | phSetp (ival pid : BitVec 8)
  /-- `PH.GETP name` (0x12, FP with `ival` = 0, rule R162) -/
  | phGetp (pid : BitVec 8)
  /-- `PH.PROC ch, x` (0x13, FC, rule R163) -/
  | phProc (ch : BitVec 8)
  /-- `APF.SETP i, sel, value` (0x20, FS with `ch` = 0, rule R144) -/
  | apfSetp (fsel : BitVec 2) (stage : Stage)
  /-- `APF.GETP i, sel` (0x21, FS with `ch` = 0, rule R145) -/
  | apfGetp (fsel : BitVec 2) (stage : Stage)
  /-- `APF.PROC i, ch, x` (0x22, FS with `fsel` = 0, rule R146) -/
  | apfProc (ch : BitVec 8) (stage : Stage)
  /-- `APF.GETG i` (0x23, FS with `ch` = 0 and `fsel` = 0, rule R147) -/
  | apfGetg (stage : Stage)
  /-- `APF.GETS i, ch` (0x24, FS with `fsel` = 0, rule R148) -/
  | apfGets (ch : BitVec 8) (stage : Stage)
  /-- `LFO.ADV eng, ch [, inc]` (0x30, FO with `wave` = 0 and `quad` = 0, rule R125) -/
  | lfoAdv (ch : BitVec 8) (xinc : Bool) (eng : Engine)
  /-- `LFO.RENDER eng, ch, wave [, Q]` (0x31, FO with `xinc` = 0, rule R126) -/
  | lfoRender (ch : BitVec 8) (wave : BitVec 3) (quad : Bool) (eng : Engine)
  /-- `LFO.GETPH eng, ch` (0x32, FO with `wave`, `xinc`, `quad` = 0, rule R127) -/
  | lfoGetph (ch : BitVec 8) (eng : Engine)
  /-- `FL.RESET n, fs` (0x40, FR, rule R200) -/
  | flReset (n : BitVec 8)
  /-- `FL.SETP name, value` (0x41, FP, rule R201) -/
  | flSetp (ival pid : BitVec 8)
  /-- `FL.GETP name` (0x42, FP with `ival` = 0, rule R202) -/
  | flGetp (pid : BitVec 8)
  /-- `FL.PROC ch, x` (0x43, FC, rule R203) -/
  | flProc (ch : BitVec 8)
  /-- `DL.READ ch, d` (0x50, FC, rule R185) -/
  | dlRead (ch : BitVec 8)
  /-- `DL.PEEK ch, addr` (0x51, FA, rule R186) -/
  | dlPeek (ch : BitVec 8) (addr : BitVec 16)
  /-- `DL.GETW ch` (0x52, FC, rule R187) -/
  | dlGetw (ch : BitVec 8)
  /-- `TONE.PROC ch, x` (0x60, FC, rule R211) -/
  | toneProc (ch : BitVec 8)
  /-- `TONE.GETS ch` (0x61, FC, rule R212) -/
  | toneGets (ch : BitVec 8)
deriving DecidableEq, Repr

end Sys2Proof
end

