-- ==== Sys2Proof/Config.lean ====
section
/-! DEFINITION. The implementation parameters of spec/00_scope.md rule R6 (the model's arguments,
spec/93_implementation_defined.md items U11, U13, U14, U16).

A `Config` carries the proof that it meets every constraint of the table of rule R6: an
instantiation that breaks one "is not an instance of this spec" (U13) and cannot be written down.
See assumption log entries 2, 3 and 11. -/

namespace Sys2Proof

/-- One value per all-pass stage (`NSTAGE` = 4, rule R6). -/
structure Four (α : Type) where
  s0 : α
  s1 : α
  s2 : α
  s3 : α
deriving DecidableEq, Repr

def Four.get {α : Type} (f : Four α) : Stage → α
  | .s0 => f.s0
  | .s1 => f.s1
  | .s2 => f.s2
  | .s3 => f.s3

def Four.set {α : Type} (f : Four α) (i : Stage) (v : α) : Four α :=
  match i with
  | .s0 => { f with s0 := v }
  | .s1 => { f with s1 := v }
  | .s2 => { f with s2 := v }
  | .s3 => { f with s3 := v }

/-- The constants of rule R6, under the table's names. `NSTAGE` is fixed at 4; `NUM` selects the numerics
record, and the real-valued constants are values of its carrier. -/
structure Params where
  /-- `NUM` -/
  num : Num
  /-- `NCH_MAX` -/
  nchMax : Nat
  /-- `FS_MIN`, Hz -/
  fsMin : NumT
  /-- `FS_MAX`, Hz -/
  fsMax : NumT
  /-- `FC_LO`, Hz -/
  fcLo : NumT
  /-- `FC_HI_FRAC` -/
  fcHiFrac : NumT
  /-- `FMIN[0..3]`, Hz -/
  fmin : Four NumT
  /-- `FMAX[0..3]`, Hz -/
  fmax : Four NumT
  /-- `RATE_HI`, Hz -/
  rateHi : NumT
  /-- `EPS_DEN` -/
  epsDen : NumT
  /-- `MIX_DRY` -/
  mixDry : NumT
  /-- `MIX_WET` -/
  mixWet : NumT
  /-- `BASE_DELAY`, seconds -/
  baseDelay : NumT
  /-- `SWEEP_MAX`, seconds -/
  sweepMax : NumT
  /-- `MARGIN`, samples -/
  margin : Nat
  /-- `BUF_CAP`, words -/
  bufCap : Nat
  /-- `FL_WAVE` -/
  flWave : Wave
  /-- `TONE_FC`, Hz -/
  toneFc : NumT
  /-- `TONE_GAIN_DB`, dB -/
  toneGainDb : NumT
deriving DecidableEq, Repr

/-- a < b, in the numerics of the block. -/
def Params.lt (p : Params) (a b : NumT) : Bool := p.num.lt a b

/-- a ≤ b, in the numerics of the block. -/
def Params.le (p : Params) (a b : NumT) : Bool := p.num.le a b

/-- Two values are the same number, in the numerics of the block. -/
def Params.same (p : Params) (a b : NumT) : Bool := p.le a b && p.le b a

/-- The band of one stage: 0 < `FMIN[i]` ≤ `FMAX[i]`. -/
def Params.bandOk (p : Params) (i : Stage) : Bool :=
  p.lt (.rat 0) (p.fmin.get i) && p.le (p.fmin.get i) (p.fmax.get i)

/-- The bands of two neighbouring stages do not descend. -/
def Params.bandsRise (p : Params) (i j : Stage) : Bool :=
  p.le (p.fmin.get i) (p.fmin.get j) && p.le (p.fmax.get i) (p.fmax.get j)

/-- The mix is the pair of given values. -/
def Params.mixIs (p : Params) (dry wet : Rat) : Bool :=
  p.same p.mixDry (.rat dry) && p.same p.mixWet (.rat wet)

/-- Every constraint of the table of rule R6, in the table's order. -/
def Params.legal (p : Params) : Bool :=
  decide (1 ≤ p.nchMax) && decide (p.nchMax ≤ 255) &&
  p.lt (.rat 0) p.fsMin && p.le p.fsMin p.fsMax &&
  p.le (p.num.div p.fcLo p.fcHiFrac) p.fsMin && p.lt p.toneFc (p.num.div p.fsMin (.rat 2)) &&
  p.lt (.rat 0) p.fcLo && p.lt (.rat 0) p.fcHiFrac && p.lt p.fcHiFrac (.rat (1 / 2)) &&
  p.bandOk .s0 && p.bandOk .s1 && p.bandOk .s2 && p.bandOk .s3 &&
  p.bandsRise .s0 .s1 && p.bandsRise .s1 .s2 && p.bandsRise .s2 .s3 &&
  p.lt (.rat 0) p.rateHi && p.lt p.rateHi p.fsMin &&
  p.lt (.rat 0) p.epsDen && p.lt p.epsDen (.rat 1) &&
  (p.mixIs (707 / 1000) (707 / 1000) || p.mixIs (1 / 8) (5 / 4)) &&
  p.lt (.rat 2) (p.num.mul p.baseDelay p.fsMin) && p.le (.rat 0) p.sweepMax &&
  decide (3 ≤ p.margin) && decide (p.margin < p.bufCap) && decide (p.bufCap ≤ 65536) &&
  p.lt (.rat 0) p.toneFc

/-- An instantiation of the block: parameters that meet every constraint of rule R6. -/
structure Config where
  /-- the parameters -/
  p : Params
  /-- item U13: an instantiation that breaks a constraint is not an instance of the spec -/
  legal : p.legal = true
deriving DecidableEq, Repr

/-- The middle of the band of stage i: (`FMIN[i]` + `FMAX[i]`)/2, its frequency at power-on (rule R59). -/
def Params.midpoint (p : Params) (i : Stage) : NumT :=
  p.num.div (p.num.add (p.fmin.get i) (p.fmax.get i)) (.rat 2)

/-- The defaults of the table of rule R6. -/
def Params.default : Params where
  num := .real
  nchMax := 2
  fsMin := .rat 1000
  fsMax := .rat 192000
  fcLo := .rat 20
  fcHiFrac := .rat (45 / 100)
  fmin := ⟨.rat 50, .rat 100, .rat 200, .rat 400⟩
  fmax := ⟨.rat 150, .rat 300, .rat 600, .rat 1200⟩
  rateHi := .rat 20
  epsDen := .rat (1 / 1000000)
  mixDry := .rat (707 / 1000)
  mixWet := .rat (707 / 1000)
  baseDelay := .rat (25 / 10000)
  sweepMax := .rat (1 / 100)
  margin := 3
  bufCap := 8192
  flWave := .sine
  toneFc := .rat 150
  toneGainDb := .rat (-6)

/-- The default instantiation (configuration DEF of spec/95_test_vectors.md). -/
def Config.default : Config := ⟨Params.default, by decide +kernel⟩

end Sys2Proof
end

