-- ==== Sys2Proof/Machine/State.lean ====
section
/-! DEFINITION. The state of the block (spec/10_state.md; spec/20_memory.md rules R70, R71), its value
after the power-on reset (rule R59, spec/70_reset_and_hazards.md rule R270), and why a step could
stop. -/

namespace Sys2Proof.Machine

open Sys2Proof

/-- The response code (spec/60_exceptions.md rule R240): exactly six values, codes 6 to 15 are never
produced (spec/93_implementation_defined.md U8). -/
inductive Status where
  /-- 0 `OK` -/
  | ok
  /-- 1 `E_ILLEGAL` -/
  | illegal
  /-- 2 `E_UNINIT` -/
  | uninit
  /-- 3 `E_BADCH` -/
  | badCh
  /-- 4 `E_RESETFAIL` -/
  | resetFail
  /-- 5 `E_BADVAL` -/
  | badVal
deriving DecidableEq, Repr

/-- A sparse array indexed by whole numbers, in one canonical form: indices strictly rising, no entry
equal to what an unlisted index reads as. `Machine/Ops.lean` has the reads and writes. -/
abbrev Store (α : Type) := List (Nat × α)

/-- The delay memory (rules R54, R70, R71): per channel, a bank of words addressed by whole numbers. A
word holds one sample, a `NUM.T` value; there are no bytes. An unlisted word reads as 0 (assumption log
entry 5). -/
abbrev Memory := Store (Store NumT)

/-- The phaser engine's registers and per-channel state (rules R27, R41 to R45). Per-channel elements
are arrays over the channel number (rule R40). -/
structure Phaser where
  /-- `PH_RATE`, Hz -/
  rate : NumT
  /-- `PH_DEPTH`, percent -/
  depth : NumT
  /-- `PH_INTENSITY`, percent -/
  intensity : NumT
  /-- `PH_QUAD` -/
  quad : Bool
  /-- `PH_FBSW` -/
  fbsw : Bool
  /-- `PH_WAVE` -/
  wave : Wave
  /-- `PH_FS`, Hz -/
  fs : NumT
  /-- `PH_NCH` -/
  nch : Nat
  /-- `PH_INIT` -/
  init : Bool
  /-- `PH_PHASE[c]` -/
  phase : Store NumT
  /-- `APF_FC[i]`, Hz -/
  fc : Four NumT
  /-- `APF_D0[i]` -/
  d0 : Four NumT
  /-- `APF_Q[i]` -/
  q : Four NumT
  /-- `APF_BOOST[i]` -/
  boost : Four NumT
  /-- `APF_S[i][c]` -/
  s : Four (Store NumT)
deriving DecidableEq, Repr

/-- The flanger engine's registers, delay memory and tone-filter state (rules R50, R52 to R55). -/
structure Flanger where
  /-- `FL_RATE`, Hz -/
  rate : NumT
  /-- `FL_DEPTH`, percent -/
  depth : NumT
  /-- `FL_FB` -/
  fb : NumT
  /-- `FL_INV` -/
  inv : Bool
  /-- `FL_TONE_EN` -/
  toneEn : Bool
  /-- `FL_FS`, Hz -/
  fs : NumT
  /-- `FL_NCH` -/
  nch : Nat
  /-- `FL_INIT` -/
  init : Bool
  /-- `FL_LEN`, words -/
  len : Nat
  /-- `FL_PHASE[c]` -/
  phase : Store NumT
  /-- `FL_WPOS[c]` -/
  wpos : Store Nat
  /-- `BUF[c][a]` -/
  buf : Memory
  /-- `TZ[c]` -/
  tz : Store NumT
deriving DecidableEq, Repr

/-- What the host presents next (rules R22, R271): a command word with its operand, or the power-on
reset input. -/
inductive Event where
  /-- one (`CMD`, `DIN`) pair -/
  | cmd (word : BitVec 32) (din : NumT)
  /-- the event `rst` -/
  | rst
deriving DecidableEq, Repr

/-- The whole state of the block. `cfg` and `inputs` are the model's own fields: the build-time
parameters of rule R6, which no step changes (assumption log entry 2), and the host's command list of
rule R22, whose head the next step takes (assumption log entry 6). -/
structure State where
  /-- the model's: the instantiation of the block (rule R6) -/
  cfg : Config
  /-- the model's: the events the host has yet to present, the next one first (rules R22, R271) -/
  inputs : List Event
  /-- `CMD`: the word last presented (rule R21) -/
  cmd : BitVec 32
  /-- `DIN`: the operand last presented (rule R21) -/
  din : NumT
  /-- `STATUS` (rule R21) -/
  status : Status
  /-- `DOUT` (rule R21) -/
  dout : NumT
  /-- `ESTAT`: the seven sticky flags (rule R26) -/
  estat : BitVec 7
  /-- the phaser engine -/
  ph : Phaser
  /-- the flanger engine -/
  fl : Flanger
deriving DecidableEq, Repr

/-- Why a step stops with a fault: never. The block has no traps and no faults: every error is a
status code and a sticky flag, and execution goes on with the host's next command (rules R241, R246).
The type has no constructor, so no step can answer with a fault. This is neither safe nor unsafe: it is
what the spec says. -/
inductive Fault where
deriving DecidableEq, Repr

/-- Why a step is refused. -/
inductive Refusal where
  /-- Raised by `State.fetch` for an operand that is not a finite member of `NUM.T`: "a command whose `DIN`
  is not finite has no meaning in this spec: the model refuses it" (spec/00_scope.md rule R9,
  spec/93_implementation_defined.md item U9). Under `NUM = REAL` every operand is finite and no step is
  refused. Safe: the spec gives the command no effect. -/
  | notFinite
  /-- Raised by no one: every command has its meaning (an arm of `exec` without one would answer with
  it). Safe: the machine would stop where the hardware goes on. -/
  | notModelled (mnemonic : String)
deriving DecidableEq, Repr

/-- The numerics record of the block (rule R8). -/
def State.num (s : State) : Num := s.cfg.p.num

/-- The phaser after the power-on reset (rule R59): parameter registers 0 (`PH_WAVE` SINE), stage
frequencies at their band midpoints, `APF_Q` 0.707, `APF_BOOST` 0. `PH_PHASE`, `APF_D0` and `APF_S` are
unspecified by the spec and 0 here (assumption log entry 5). -/
def Phaser.reset (p : Params) : Phaser where
  rate := .rat 0
  depth := .rat 0
  intensity := .rat 0
  quad := false
  fbsw := false
  wave := .sine
  fs := .rat 0
  nch := 0
  init := false
  phase := []
  fc := ⟨p.midpoint .s0, p.midpoint .s1, p.midpoint .s2, p.midpoint .s3⟩
  d0 := ⟨.rat 0, .rat 0, .rat 0, .rat 0⟩
  q := ⟨.rat (707 / 1000), .rat (707 / 1000), .rat (707 / 1000), .rat (707 / 1000)⟩
  boost := ⟨.rat 0, .rat 0, .rat 0, .rat 0⟩
  s := ⟨[], [], [], []⟩

/-- The flanger after the power-on reset (rule R59). `FL_PHASE`, `FL_WPOS`, `BUF` and `TZ` are
unspecified by the spec and 0 here (assumption log entry 5). -/
def Flanger.reset : Flanger where
  rate := .rat 0
  depth := .rat 0
  fb := .rat 0
  inv := false
  toneEn := false
  fs := .rat 0
  nch := 0
  init := false
  len := 0
  phase := []
  wpos := []
  buf := []
  tz := []

/-- The block with the parameters `c` right after the power-on reset (rules R59, R270), nothing
presented yet. -/
def State.resetWith (c : Config) : State where
  cfg := c
  inputs := []
  cmd := 0#32
  din := .rat 0
  status := .ok
  dout := .rat 0
  estat := 0#7
  ph := Phaser.reset c.p
  fl := Flanger.reset

/-- The machine right after the power-on reset, with the default parameters of rule R6. -/
def State.reset : State := State.resetWith Config.default

end Sys2Proof.Machine
end

