-- ==== Sys2Proof/Machine/Flags.lean ====
section
/-! DEFINITION. The sticky flag register `ESTAT` (spec/10_state.md rule R26) and the codes of `STATUS`
(spec/60_exceptions.md rule R240): which event sets which bit, and how the two are read as numbers. -/

namespace Sys2Proof.Machine

open Sys2Proof

/-- The seven flags of `ESTAT`, bit 0 first (rule R26). -/
inductive Flag where
  | illegal | uninit | badCh | resetFail | badVal | clamp | denClamp
deriving DecidableEq, Repr

/-- The bit number of a flag (rule R26). -/
def Flag.bit : Flag → Nat
  | .illegal => 0
  | .uninit => 1
  | .badCh => 2
  | .resetFail => 3
  | .badVal => 4
  | .clamp => 5
  | .denClamp => 6

/-- `ESTAT` with only that flag set. -/
def Flag.mask (f : Flag) : BitVec 7 := 1#7 <<< f.bit

/-- The 4-bit code of a status (rule R240). -/
def Status.code : Status → BitVec 4
  | .ok => 0#4
  | .illegal => 1#4
  | .uninit => 2#4
  | .badCh => 3#4
  | .resetFail => 4#4
  | .badVal => 5#4

/-- The flags a status sets: `OK` none, an error of code k the flag of bit k − 1 (rule R240). -/
def Status.mask : Status → BitVec 7
  | .ok => 0#7
  | .illegal => Flag.illegal.mask
  | .uninit => Flag.uninit.mask
  | .badCh => Flag.badCh.mask
  | .resetFail => Flag.resetFail.mask
  | .badVal => Flag.badVal.mask

/-- `flag(b)`: `ESTAT[b] <- 1` (rule R11). -/
def State.flag (s : State) (f : Flag) : State := { s with estat := s.estat ||| f.mask }

/-- `if cond then flag(b)` -/
def State.flagIf (s : State) (cond : Bool) (f : Flag) : State := if cond then s.flag f else s

/-- `ESTAT` as the unsigned integer Σ `ESTAT[b]`·2^b (spec/46_system.md rule R231). -/
def State.estatNum (s : State) : NumT := .ofInt s.estat.toNat

end Sys2Proof.Machine
end

