-- ==== Sys2Proof/Decode.lean ====
section
/-! DEFINITION. The decoder and the encoder (spec/30_encoding.md rules R90 to R97). A command is one
32-bit word; `CMD[31:24]` selects the row and with it the format, and a non-zero bit in a
must-be-zero field spells no command. Decoding is total: a word is read as the command of the one
row of rule R95 it matches, or refused by name. The value checks of rule R96 come after a row has
matched, in the commands themselves. -/

namespace Sys2Proof

/-- Why a word matches no row of rule R95 (rule R96). -/
inductive DecodeError where
  /-- one of the 232 opcode values that are not in the table -/
  | unassignedOpcode
  /-- a non-zero bit in a must-be-zero field -/
  | mustBeZero
deriving DecidableEq, Repr

/-- The 2-bit `stage` field (rule R92). -/
def Stage.ofBits (b : BitVec 2) : Stage :=
  match b.toNat with
  | 0 => .s0
  | 1 => .s1
  | 2 => .s2
  | _ => .s3

def Stage.toBits : Stage → BitVec 2
  | .s0 => 0#2
  | .s1 => 1#2
  | .s2 => 2#2
  | .s3 => 3#2

/-- The `eng` bit (rule R92): 0 phaser, 1 flanger. -/
def Engine.ofBit (b : Bool) : Engine := if b then .flanger else .phaser

def Engine.toBit : Engine → Bool
  | .phaser => false
  | .flanger => true

/-- A row that has matched its opcode: its must-be-zero fields are checked by `mbz`. -/
def row (mbz : Bool) (i : Instr) : Except DecodeError Instr :=
  if mbz then .ok i else .error .mustBeZero

/-- The four bytes of a command word, most significant first: `CMD[31:24]`, `CMD[23:16]`,
`CMD[15:8]`, `CMD[7:0]` (rule R91). -/
def byte3 (w : BitVec 32) : BitVec 8 := w.extractLsb' 24 8
def byte2 (w : BitVec 32) : BitVec 8 := w.extractLsb' 16 8
def byte1 (w : BitVec 32) : BitVec 8 := w.extractLsb' 8 8
def byte0 (w : BitVec 32) : BitVec 8 := w.extractLsb' 0 8

/-- The decoder on the four bytes, by rows of rule R95. `h` is `CMD[23:16]`, `m` is `CMD[15:8]`, `l`
is `CMD[7:0]`; each row's condition is its must-be-zero bits. -/
def decodeBytes (op h m l : BitVec 8) : Except DecodeError Instr :=
  match op.toNat with
  | 0x00 => row (h == 0#8 && m == 0#8 && l == 0#8) .nop
  | 0x01 => row (h == 0#8 && m == 0#8 && l == 0#8) .sysGete
  | 0x02 => row (h == 0#8 && m == 0#8 && l == 0#8) .sysClre
  | 0x10 => row (h == 0#8 && m == 0#8) (.phReset l)
  | 0x11 => row (h == 0#8) (.phSetp m l)
  | 0x12 => row (h == 0#8 && m == 0#8) (.phGetp l)
  | 0x13 => row (m == 0#8 && l == 0#8) (.phProc h)
  | 0x20 => row (h == 0#8 && m.extractLsb' 2 6 == 0#6 && l.extractLsb' 2 6 == 0#6)
      (.apfSetp (m.extractLsb' 0 2) (Stage.ofBits (l.extractLsb' 0 2)))
  | 0x21 => row (h == 0#8 && m.extractLsb' 2 6 == 0#6 && l.extractLsb' 2 6 == 0#6)
      (.apfGetp (m.extractLsb' 0 2) (Stage.ofBits (l.extractLsb' 0 2)))
  | 0x22 => row (m == 0#8 && l.extractLsb' 2 6 == 0#6) (.apfProc h (Stage.ofBits (l.extractLsb' 0 2)))
  | 0x23 => row (h == 0#8 && m == 0#8 && l.extractLsb' 2 6 == 0#6)
      (.apfGetg (Stage.ofBits (l.extractLsb' 0 2)))
  | 0x24 => row (m == 0#8 && l.extractLsb' 2 6 == 0#6) (.apfGets h (Stage.ofBits (l.extractLsb' 0 2)))
  | 0x30 => row (m &&& 0xFA#8 == 0#8 && l == 0#8)
      (.lfoAdv h (m.getLsbD 2) (Engine.ofBit (m.getLsbD 0)))
  | 0x31 => row (m &&& 0x8C#8 == 0#8 && l == 0#8)
      (.lfoRender h (m.extractLsb' 4 3) (m.getLsbD 1) (Engine.ofBit (m.getLsbD 0)))
  | 0x32 => row (m &&& 0xFE#8 == 0#8 && l == 0#8) (.lfoGetph h (Engine.ofBit (m.getLsbD 0)))
  | 0x40 => row (h == 0#8 && m == 0#8) (.flReset l)
  | 0x41 => row (h == 0#8) (.flSetp m l)
  | 0x42 => row (h == 0#8 && m == 0#8) (.flGetp l)
  | 0x43 => row (m == 0#8 && l == 0#8) (.flProc h)
  | 0x50 => row (m == 0#8 && l == 0#8) (.dlRead h)
  | 0x51 => row true (.dlPeek h (m ++ l))
  | 0x52 => row (m == 0#8 && l == 0#8) (.dlGetw h)
  | 0x60 => row (m == 0#8 && l == 0#8) (.toneProc h)
  | 0x61 => row (m == 0#8 && l == 0#8) (.toneGets h)
  | _ => .error .unassignedOpcode

/-- The decoder: every 32-bit word is a command of exactly one row or is refused (rule R97). -/
def decode (w : BitVec 32) : Except DecodeError Instr :=
  decodeBytes (byte3 w) (byte2 w) (byte1 w) (byte0 w)

/-- A word from its four bytes (rule R91). -/
def packWord (op h m l : BitVec 8) : BitVec 32 := (op ++ h) ++ (m ++ l)

/-- `CMD[15:8]` of format `FS`: [15:10] 0, [9:8] `fsel`. -/
def fselByte (fsel : BitVec 2) : BitVec 8 := 0#6 ++ fsel

/-- `CMD[7:0]` of format `FS`: [7:2] 0, [1:0] `stage`. -/
def stageByte (st : Stage) : BitVec 8 := 0#6 ++ st.toBits

/-- `CMD[15:8]` of format `FO`: [15] 0, [14:12] `wave`, [11] 0, [10] `xinc`, [9] `quad`, [8] `eng`. -/
def lfoByte (wave : BitVec 3) (xinc quad : Bool) (eng : Engine) : BitVec 8 :=
  (0#1 ++ wave ++ 0#1) ++ (BitVec.ofBool xinc ++ BitVec.ofBool quad ++ BitVec.ofBool eng.toBit)

/-- The encoder, from the formats of rule R91 and the opcodes of rule R95. -/
def encode : Instr → BitVec 32
  | .nop => packWord 0x00#8 0#8 0#8 0#8
  | .sysGete => packWord 0x01#8 0#8 0#8 0#8
  | .sysClre => packWord 0x02#8 0#8 0#8 0#8
  | .phReset n => packWord 0x10#8 0#8 0#8 n
  | .phSetp ival pid => packWord 0x11#8 0#8 ival pid
  | .phGetp pid => packWord 0x12#8 0#8 0#8 pid
  | .phProc ch => packWord 0x13#8 ch 0#8 0#8
  | .apfSetp fsel st => packWord 0x20#8 0#8 (fselByte fsel) (stageByte st)
  | .apfGetp fsel st => packWord 0x21#8 0#8 (fselByte fsel) (stageByte st)
  | .apfProc ch st => packWord 0x22#8 ch 0#8 (stageByte st)
  | .apfGetg st => packWord 0x23#8 0#8 0#8 (stageByte st)
  | .apfGets ch st => packWord 0x24#8 ch 0#8 (stageByte st)
  | .lfoAdv ch xinc eng => packWord 0x30#8 ch (lfoByte 0#3 xinc false eng) 0#8
  | .lfoRender ch wave quad eng => packWord 0x31#8 ch (lfoByte wave false quad eng) 0#8
  | .lfoGetph ch eng => packWord 0x32#8 ch (lfoByte 0#3 false false eng) 0#8
  | .flReset n => packWord 0x40#8 0#8 0#8 n
  | .flSetp ival pid => packWord 0x41#8 0#8 ival pid
  | .flGetp pid => packWord 0x42#8 0#8 0#8 pid
  | .flProc ch => packWord 0x43#8 ch 0#8 0#8
  | .dlRead ch => packWord 0x50#8 ch 0#8 0#8
  | .dlPeek ch addr => packWord 0x51#8 ch (addr.extractLsb' 8 8) (addr.extractLsb' 0 8)
  | .dlGetw ch => packWord 0x52#8 ch 0#8 0#8
  | .toneProc ch => packWord 0x60#8 ch 0#8 0#8
  | .toneGets ch => packWord 0x61#8 ch 0#8 0#8

/-- What the decoder reads from a row of the opcode table whose `nbits` bits are `w`. Every command
is one 32-bit word (rule R90), so bits above `nbits` are zero and a number that needs more than 32
bits is no word of the block. -/
def decodeTableWord (nbits w : Nat) : Option Instr :=
  let v := w % 2 ^ nbits
  if v < 2 ^ 32 then
    match decode (BitVec.ofNat 32 v) with
    | .ok i => some i
    | .error _ => none
  else none

end Sys2Proof
end

