-- ==== Sys2Proof/Machine/Ops.lean ====
section
/-! DEFINITION. The named operations over the state: the per-channel arrays and the delay memory
(spec/20_memory.md), the response of a command and the one way an error is taken
(spec/00_scope.md rule R11, spec/60_exceptions.md rule R241), the guards (rules R243 to R245), the
power-on reset (spec/70_reset_and_hazards.md rule R270), and taking the host's next event (rule R22). -/

namespace Sys2Proof.Machine

open Sys2Proof

/-! ## Sparse arrays -/

/-- The element at index `k`; an unlisted index reads as `d`. -/
def Store.get {α : Type} (d : α) : Store α → Nat → α
  | [], _ => d
  | (j, v) :: rest, k => if j = k then v else Store.get d rest k

/-- The list with entry `k` replaced, or put in its place in the rising order. -/
def Store.insert {α : Type} : Store α → Nat → α → Store α
  | [], k, v => [(k, v)]
  | (j, u) :: rest, k, v =>
    if k < j then (k, v) :: (j, u) :: rest
    else if j = k then (k, v) :: rest
    else (j, u) :: Store.insert rest k v

/-- The list without an entry for `k`. -/
def Store.erase {α : Type} (st : Store α) (k : Nat) : Store α := st.filter fun e => e.1 != k

/-- Write the element at index `k`, keeping the canonical form: writing `d` removes the entry. -/
def Store.set {α : Type} [DecidableEq α] (d : α) (st : Store α) (k : Nat) (v : α) : Store α :=
  if v = d then Store.erase st k else Store.insert st k v

/-- Every index below `n` made to read as the unlisted value. -/
def Store.dropBelow {α : Type} (st : Store α) (n : Nat) : Store α := st.filter fun e => decide (n ≤ e.1)

/-- The canonical form: indices strictly rising, no entry equal to the unlisted value. -/
def Store.wf {α : Type} [DecidableEq α] (d : α) (st : Store α) : Bool :=
  decide (st.Pairwise fun e f => e.1 < f.1) && st.all fun e => decide (e.2 ≠ d)

/-- The element of channel `c` of an array of `NUM.T` values. -/
def Store.at (st : Store NumT) (c : Nat) : NumT := Store.get NumT.zero st c

/-- An array of `NUM.T` values with channel `c`'s element written. -/
def Store.put (st : Store NumT) (c : Nat) (v : NumT) : Store NumT := Store.set NumT.zero st c v

/-! ## The delay memory -/

/-- `BufRead(c, a)` (rule R11): the word at address `a` of channel `c`'s bank. -/
def Memory.read (m : Memory) (c a : Nat) : NumT := Store.get NumT.zero (Store.get [] m c) a

/-- `BufWrite(c, a, v)` (rule R11). -/
def Memory.write (m : Memory) (c a : Nat) (v : NumT) : Memory :=
  Store.set [] m c (Store.set NumT.zero (Store.get [] m c) a v)

/-- 0 written to addresses 0 .. `len` − 1 of one bank. -/
def Memory.clearBank (m : Memory) (c len : Nat) : Memory :=
  Store.set [] m c (Store.dropBelow (Store.get [] m c) len)

/-- 0 written to addresses 0 .. `len` − 1 of channels 0 .. `n` − 1 (rule R73, `FL.RESET`). -/
def Memory.clear (m : Memory) (len : Nat) : Nat → Memory
  | 0 => m
  | n + 1 => (m.clear len n).clearBank n len

/-- The canonical form of the delay memory: banks in canonical form, none of them empty. -/
def Memory.wf (m : Memory) : Bool := Store.wf [] m && m.all fun e => Store.wf NumT.zero e.2

/-! ## Responses and errors -/

/-- `respond(st, v)`: the command ends with `STATUS <- st`, `DOUT <- v` (rule R11). -/
def State.respond (s : State) (st : Status) (v : NumT) : State := { s with status := st, dout := v }

/-- `raise <E>(v)`: the flag of `E` and the response, and no other change (rules R11, R241). There are no
traps: no control transfer happens (rule R246). -/
def State.raise (s : State) (e : Status) (v : NumT) : State :=
  { s with estat := s.estat ||| e.mask, status := e, dout := v }

/-- The initialisation guard (rule R243): `if E_INIT = 0 then raise E_UNINIT(v)`. -/
def State.whenInit (s : State) (init : Bool) (v : NumT) (k : State) : State :=
  if init then k else s.raise .uninit v

/-- The channel guard: `if c ≥ E_NCH then raise E_BADCH(v)`. -/
def State.whenChannel (s : State) (c nch : Nat) (v : NumT) (k : State) : State :=
  if c < nch then k else s.raise .badCh v

/-! ## The power-on reset -/

/-- The power-on reset of rule R270 on a running block: every element the rule gives a value takes it;
the elements it leaves unspecified (`PH_PHASE`, `APF_D0`, `APF_S`, `FL_PHASE`, `FL_WPOS`, `BUF`, `TZ`:
"not cleared by `rst`") keep theirs (assumption log entry 7). `CMD` and `DIN` are inputs. -/
def State.powerOn (s : State) : State :=
  let z := State.resetWith s.cfg
  { s with
    status := z.status
    dout := z.dout
    estat := z.estat
    ph := { z.ph with phase := s.ph.phase, d0 := s.ph.d0, s := s.ph.s }
    fl := { z.fl with phase := s.fl.phase, wpos := s.fl.wpos, buf := s.fl.buf, tz := s.fl.tz } }

/-! ## The host's next event -/

/-- The state with a command presented on the port (rule R21). -/
def State.present (s : State) (word : BitVec 32) (din : NumT) (rest : List Event) : State :=
  { s with inputs := rest, cmd := word, din := din }

/-- What the next step has to do, and the state it does it in. -/
inductive Task where
  /-- nothing is presented: the block is idle (rules R247, R270) -/
  | idle
  /-- the event `rst`: the state after it -/
  | reset (s : State)
  /-- a word that matches no row of the opcode map: the state after `E_ILLEGAL` (rule R96) -/
  | illegal (s : State)
  /-- an operand that is not a finite member of `NUM.T`: no meaning (rule R9) -/
  | notFinite
  /-- a command, and the state it runs in -/
  | run (i : Instr) (s : State)
deriving DecidableEq, Repr

/-- Take the head of the host's list (rules R9, R22, R96, R97, R271). -/
def State.fetch (s : State) : Task :=
  match s.inputs with
  | [] => .idle
  | .rst :: rest => .reset { s.powerOn with inputs := rest }
  | .cmd word din :: rest =>
    if s.num.finite din then
      match decode word with
      | .ok i => .run i (s.present word din rest)
      | .error _ => .illegal ((s.present word din rest).raise .illegal .zero)
    else .notFinite

end Sys2Proof.Machine
end

