-- ==== Sys2Proof/Machine/Operands.lean ====
section
/-! DEFINITION. The operand forms (spec/30_encoding.md rules R92, R93, R96): parameter ids, register
selectors, waveform codes, and the two ways a parameter register is written: a real-valued register by
`DIN`, clamped (WARL, rule R27), and a bit or enumeration by `ival`. -/

namespace Sys2Proof.Machine

open Sys2Proof

/-- The registers the phaser's parameter ids name (rule R27). -/
inductive PhReg where
  | rate | depth | intensity | quad | fbsw | wave | fs | nch | init
deriving DecidableEq, Repr

/-- The table of rule R27; every other id is reserved. -/
def PhReg.ofPid (pid : BitVec 8) : Option PhReg :=
  match pid.toNat with
  | 0x00 => some .rate
  | 0x01 => some .depth
  | 0x02 => some .intensity
  | 0x03 => some .quad
  | 0x04 => some .fbsw
  | 0x05 => some .wave
  | 0x10 => some .fs
  | 0x11 => some .nch
  | 0x12 => some .init
  | _ => none

/-- The registers the flanger's parameter ids name (rule R50). -/
inductive FlReg where
  | rate | depth | fb | inv | toneEn | fs | nch | init | len
deriving DecidableEq, Repr

/-- The table of rule R50; every other id is reserved. -/
def FlReg.ofPid (pid : BitVec 8) : Option FlReg :=
  match pid.toNat with
  | 0x00 => some .rate
  | 0x01 => some .depth
  | 0x02 => some .fb
  | 0x03 => some .inv
  | 0x04 => some .toneEn
  | 0x10 => some .fs
  | 0x11 => some .nch
  | 0x12 => some .init
  | 0x13 => some .len
  | _ => none

/-- The registers the `fsel` field selects (rule R92). -/
inductive ApfReg where
  | fc | q | boost
deriving DecidableEq, Repr

/-- `fsel`: 0 `FC`, 1 `Q`, 2 `BOOST`; 3 is `E_ILLEGAL` (rule R92). -/
def ApfReg.ofFsel (fsel : BitVec 2) : Option ApfReg :=
  match fsel.toNat with
  | 0 => some .fc
  | 1 => some .q
  | 2 => some .boost
  | _ => none

/-- A waveform code (rules R28, R92): 0 SINE, 1 TRI, 2 SAW, 3 ISAW; 4 (parabola) and above have no
rendering rule (rule R128). -/
def waveOfCode (code : Nat) : Option Wave :=
  match code with
  | 0 => some .sine
  | 1 => some .tri
  | 2 => some .saw
  | 3 => some .isaw
  | _ => none

/-- The code of a waveform (rule R28). -/
def waveCode : Wave → Nat
  | .sine => 0
  | .tri => 1
  | .saw => 2
  | .isaw => 3

/-- A one-bit register's new value: `ival` is 0 or 1 (rule R92). -/
def bitOfIval (ival : BitVec 8) : Option Bool :=
  match ival.toNat with
  | 0 => some false
  | 1 => some true
  | _ => none

/-- Write a real-valued parameter register (rules R27, R161, R201): `ival` must be 0; the value stored is
`clamp(DIN, lo, hi)`, and `CLAMP` is set if it differs from the written one. `store` is the register. -/
def State.setReal (s : State) (ival : BitVec 8) (lo hi : NumT) (store : NumT → State → State) : State :=
  if ival ≠ 0#8 then s.raise .illegal .zero
  else
    let v := s.num.clamp s.din lo hi
    (store v (s.flagIf (decide (v ≠ s.din)) .clamp)).respond .ok .zero

/-- Write a one-bit parameter register (rules R161, R201): `if ival > 1 then raise E_BADVAL(0)`. -/
def State.setBit (s : State) (ival : BitVec 8) (store : Bool → State → State) : State :=
  match bitOfIval ival with
  | some b => (store b s).respond .ok .zero
  | none => s.raise .badVal .zero

/-- Write the waveform register (rules R28, R161): `if ival > 3 then raise E_BADVAL(0)`. -/
def State.setWave (s : State) (ival : BitVec 8) (store : Wave → State → State) : State :=
  match waveOfCode ival.toNat with
  | some w => (store w s).respond .ok .zero
  | none => s.raise .badVal .zero

end Sys2Proof.Machine
end

