-- ==== Sys2Proof/Machine/Apf.lean ====
section
/-! DEFINITION. The all-pass stage (spec/42_apf.md): the functions `apf_clampfc`, `apf_coef`, `apf_set`,
`apf_step` and the commands `APF.SETP`, `APF.GETP`, `APF.PROC`, `APF.GETG`, `APF.GETS`. -/

namespace Sys2Proof.Machine

open Sys2Proof

/-- `apf_clampfc(fc, fs) = clamp(fc, FC_LO, FC_HI_FRAC·fs)` (rule R140). -/
def apfClampFc (p : Params) (fc fs : NumT) : NumT :=
  p.num.clamp fc p.fcLo (p.num.mul p.fcHiFrac fs)

/-- `apf_coef(fc, fs)` (rule R141): (t − 1)/(t + 1) with t = tan(π·fc/fs). -/
def apfCoef (N : Num) (fc fs : NumT) : NumT :=
  let t := N.tanpi (N.div fc fs)
  N.div (N.sub t .one) (N.add t .one)

/-- `apf_set(i, fc)` (rule R149): retune stage i against `PH_FS`; `APF_S` is left alone. -/
def State.apfSet (s : State) (i : Stage) (fc : NumT) : State :=
  let fcc := apfClampFc s.cfg.p fc s.ph.fs
  let t := s.flagIf (decide (fcc ≠ fc)) .clamp
  { t with ph := { t.ph with fc := t.ph.fc.set i fcc, d0 := t.ph.d0.set i (apfCoef s.num fcc s.ph.fs) } }

/-- The output of `apf_step(i, c, x)` (rule R143): `y = g·x + APF_S[i][c]`. -/
def State.apfOut (s : State) (i : Stage) (c : Nat) (x : NumT) : NumT :=
  s.num.add (s.num.mul (s.ph.d0.get i) x) ((s.ph.s.get i).at c)

/-- The state after `apf_step(i, c, x)` (rule R143): `APF_S[i][c] <- x − g·y`. -/
def State.apfStep (s : State) (i : Stage) (c : Nat) (x : NumT) : State :=
  let y := s.apfOut i c x
  { s with ph := { s.ph with
    s := s.ph.s.set i ((s.ph.s.get i).put c (s.num.sub x (s.num.mul (s.ph.d0.get i) y))) } }

/-- The value of a stage register (rule R145). -/
def State.apfReg (s : State) (i : Stage) : ApfReg → NumT
  | .fc => s.ph.fc.get i
  | .q => s.ph.q.get i
  | .boost => s.ph.boost.get i

/-- Write a stage register (rule R144): `FC` retunes, `Q` and `BOOST` are only held (rule R45). -/
def State.setApfReg (s : State) (i : Stage) (r : ApfReg) (v : NumT) : State :=
  match r with
  | .fc => s.apfSet i v
  | .q => { s with ph := { s.ph with q := s.ph.q.set i v } }
  | .boost => { s with ph := { s.ph with boost := s.ph.boost.set i v } }

/-! ## Commands -/

/-- `APF.SETP i, sel, value` (rule R144). -/
def execApfSetp (fsel : BitVec 2) (stage : Stage) (s : State) : Host.Outcome State Fault Refusal :=
  .next
    (match ApfReg.ofFsel fsel with
    | none => s.raise .illegal .zero
    | some r => s.whenInit s.ph.init .zero ((s.setApfReg stage r s.din).respond .ok .zero))

/-- `APF.GETP i, sel` (rule R145). -/
def execApfGetp (fsel : BitVec 2) (stage : Stage) (s : State) : Host.Outcome State Fault Refusal :=
  .next
    (match ApfReg.ofFsel fsel with
    | none => s.raise .illegal .zero
    | some r => s.whenInit s.ph.init .zero (s.respond .ok (s.apfReg stage r)))

/-- `APF.PROC i, ch, x` (rule R146): one sample through one stage; a refused sample passes through. -/
def execApfProc (ch : BitVec 8) (stage : Stage) (s : State) : Host.Outcome State Fault Refusal :=
  .next (s.whenInit s.ph.init s.din (s.whenChannel ch.toNat s.ph.nch s.din
    ((s.apfStep stage ch.toNat s.din).respond .ok (s.apfOut stage ch.toNat s.din))))

/-- `APF.GETG i` (rule R147): the stage's coefficient. -/
def execApfGetg (stage : Stage) (s : State) : Host.Outcome State Fault Refusal :=
  .next (s.whenInit s.ph.init .zero (s.respond .ok (s.ph.d0.get stage)))

/-- `APF.GETS i, ch` (rule R148): the stage's state register. -/
def execApfGets (ch : BitVec 8) (stage : Stage) (s : State) : Host.Outcome State Fault Refusal :=
  .next (s.whenInit s.ph.init .zero (s.whenChannel ch.toNat s.ph.nch .zero
    (s.respond .ok ((s.ph.s.get stage).at ch.toNat))))

end Sys2Proof.Machine
end

