-- ==== Sys2Proof/Machine/DelayLine.lean ====
section
/-! DEFINITION. The fractional delay line (spec/44_delay_line.md): the functions `dl_readpos`, `dl_taps`,
`cubic`, `dl_read` and the commands `DL.READ`, `DL.PEEK`, `DL.GETW`. -/

namespace Sys2Proof.Machine

open Sys2Proof

/-- `FL_WPOS[c]` -/
def State.flWpos (s : State) (c : Nat) : Nat := Store.get 0 s.fl.wpos c

/-- `dl_readpos(w, d, L) = rmod(w − d + L, L)` (rule R181). -/
def dlReadpos (N : Num) (w : Nat) (d : NumT) (len : Nat) : NumT :=
  N.rmod (N.add (N.sub (.ofInt w) d) (.ofInt len)) len

/-- The four tap addresses and the fraction of rule R182. -/
structure Taps where
  i0 : Nat
  i1 : Nat
  i2 : Nat
  i3 : Nat
  f : NumT
deriving DecidableEq, Repr

/-- `dl_taps(r, L)` (rule R182). Every address is reduced by `imod(·, FL_LEN)` before use (rule R72); for
the at-position tap this changes nothing, as 0 ≤ floor(r) < L. -/
def dlTaps (N : Num) (r : NumT) (len : Nat) : Taps where
  i0 := imod (N.floor r - 1 + len) len
  i1 := imod (N.floor r) len
  i2 := imod (N.floor r + 1) len
  i3 := imod (N.floor r + 2) len
  f := N.sub r (.ofInt (N.floor r))

/-- `cubic(s0, s1, s2, s3, f)` (rule R183), in the rule's order of evaluation. -/
def cubic (N : Num) (s0 s1 s2 s3 f : NumT) : NumT :=
  let a0 := N.add (N.sub (N.add (N.mul (.rat (-1 / 2)) s0) (N.mul (.rat (3 / 2)) s1))
    (N.mul (.rat (3 / 2)) s2)) (N.mul (.rat (1 / 2)) s3)
  let a1 := N.sub (N.add (N.sub s0 (N.mul (.rat (5 / 2)) s1)) (N.mul (.rat 2) s2))
    (N.mul (.rat (1 / 2)) s3)
  let a2 := N.add (N.mul (.rat (-1 / 2)) s0) (N.mul (.rat (1 / 2)) s2)
  let a3 := s1
  N.add (N.mul (N.add (N.mul (N.add (N.mul a0 f) a1) f) a2) f) a3

/-- `dl_read(c, d)` (rule R184). -/
def State.dlRead (s : State) (c : Nat) (d : NumT) : NumT :=
  let t := dlTaps s.num (dlReadpos s.num (s.flWpos c) d s.fl.len) s.fl.len
  cubic s.num (s.fl.buf.read c t.i0) (s.fl.buf.read c t.i1) (s.fl.buf.read c t.i2) (s.fl.buf.read c t.i3) t.f

/-- The guards of the flanger's per-channel commands: the flanger is initialised and has the channel. -/
def State.whenFl (s : State) (ch : BitVec 8) (v : NumT) (k : State) : State :=
  s.whenInit s.fl.init v (s.whenChannel ch.toNat s.fl.nch v k)

/-! ## Commands -/

/-- `DL.READ ch, d` (rule R185). -/
def execDlRead (ch : BitVec 8) (s : State) : Host.Outcome State Fault Refusal :=
  .next (s.whenFl ch .zero (s.respond .ok (s.dlRead ch.toNat s.din)))

/-- `DL.PEEK ch, addr` (rule R186). -/
def execDlPeek (ch : BitVec 8) (addr : BitVec 16) (s : State) : Host.Outcome State Fault Refusal :=
  .next (s.whenFl ch .zero
    (if addr.toNat < s.fl.len then s.respond .ok (s.fl.buf.read ch.toNat addr.toNat)
    else s.raise .badVal .zero))

/-- `DL.GETW ch` (rule R187). -/
def execDlGetw (ch : BitVec 8) (s : State) : Host.Outcome State Fault Refusal :=
  .next (s.whenFl ch .zero (s.respond .ok (.ofInt (s.flWpos ch.toNat))))

end Sys2Proof.Machine
end

