-- ==== Sys2Proof/Machine/Lfo.lean ====
section
/-! DEFINITION. The oscillator (spec/41_lfo.md): the functions `lfo_advance`, `lfo_render`, `lfo_quad` and
the commands `LFO.ADV`, `LFO.RENDER`, `LFO.GETPH`. -/

namespace Sys2Proof.Machine

open Sys2Proof

/-- `lfo_advance(p, inc) = frac(p + inc)` (rule R120). -/
def lfoAdvance (N : Num) (p inc : NumT) : NumT := N.frac (N.add p inc)

/-- `lfo_render(SINE, p)` (rule R121). -/
def renderSine (N : Num) (p : NumT) : NumT := N.add (.rat (1 / 2)) (N.mul (.rat (1 / 2)) (N.sin2pi p))

/-- `lfo_render(TRI, p)` (rule R122). -/
def renderTri (N : Num) (p : NumT) : NumT :=
  if N.lt p (.rat (1 / 4)) then N.add (.rat (1 / 2)) (N.mul (.rat 2) p)
  else if N.lt p (.rat (3 / 4)) then N.sub .one (N.mul (.rat 2) (N.sub p (.rat (1 / 4))))
  else N.mul (.rat 2) (N.sub p (.rat (3 / 4)))

/-- `lfo_render(SAW, p)` (rule R123). -/
def renderSaw (N : Num) (p : NumT) : NumT :=
  if N.lt p (.rat (1 / 2)) then N.add (.rat (1 / 2)) p else N.sub p (.rat (1 / 2))

/-- `lfo_render(ISAW, p)` (rule R123). -/
def renderIsaw (N : Num) (p : NumT) : NumT :=
  if N.lt p (.rat (1 / 2)) then N.sub (.rat (1 / 2)) p else N.sub (.rat (3 / 2)) p

/-- `lfo_render(w, p)` (rules R121 to R123); there is no other waveform (rule R128). -/
def lfoRender (N : Num) (w : Wave) (p : NumT) : NumT :=
  match w with
  | .sine => renderSine N p
  | .tri => renderTri N p
  | .saw => renderSaw N p
  | .isaw => renderIsaw N p

/-- `lfo_quad(w, p) = lfo_render(w, frac(p + 0.25))` (rule R124). -/
def lfoQuad (N : Num) (w : Wave) (p : NumT) : NumT := lfoRender N w (N.frac (N.add p (.rat (1 / 4))))

/-- The normal or the quarter-cycle-shifted output. -/
def lfoOutput (N : Num) (quad : Bool) (w : Wave) (p : NumT) : NumT :=
  if quad then lfoQuad N w p else lfoRender N w p

/-! ## The selected engine's oscillator (rule R125: `E = (eng = 0) ? PH : FL`) -/

/-- `E_INIT` -/
def State.engInit (s : State) : Engine → Bool
  | .phaser => s.ph.init
  | .flanger => s.fl.init

/-- `E_NCH` -/
def State.engNch (s : State) : Engine → Nat
  | .phaser => s.ph.nch
  | .flanger => s.fl.nch

/-- `E_RATE / E_FS` -/
def State.engStep (s : State) : Engine → NumT
  | .phaser => s.num.div s.ph.rate s.ph.fs
  | .flanger => s.num.div s.fl.rate s.fl.fs

/-- `E_PHASE[c]` -/
def State.engPhase (s : State) (eng : Engine) (c : Nat) : NumT :=
  match eng with
  | .phaser => s.ph.phase.at c
  | .flanger => s.fl.phase.at c

/-- `E_PHASE[c] <- p` -/
def State.setEngPhase (s : State) (eng : Engine) (c : Nat) (p : NumT) : State :=
  match eng with
  | .phaser => { s with ph := { s.ph with phase := s.ph.phase.put c p } }
  | .flanger => { s with fl := { s.fl with phase := s.fl.phase.put c p } }

/-- The guards of the three commands: the selected engine is initialised and has the channel. -/
def State.whenLfo (s : State) (eng : Engine) (ch : BitVec 8) (k : State) : State :=
  s.whenInit (s.engInit eng) .zero (s.whenChannel ch.toNat (s.engNch eng) .zero k)

/-! ## Commands -/

/-- `LFO.ADV eng, ch [, inc]` (rule R125). -/
def execLfoAdv (ch : BitVec 8) (xinc : Bool) (eng : Engine) (s : State) :
    Host.Outcome State Fault Refusal :=
  let inc := if xinc then s.din else s.engStep eng
  let p := lfoAdvance s.num (s.engPhase eng ch.toNat) inc
  .next (s.whenLfo eng ch ((s.setEngPhase eng ch.toNat p).respond .ok p))

/-- `LFO.RENDER eng, ch, wave [, Q]` (rule R126): the waveform comes from the command. -/
def execLfoRender (ch : BitVec 8) (wave : BitVec 3) (quad : Bool) (eng : Engine) (s : State) :
    Host.Outcome State Fault Refusal :=
  .next (s.whenLfo eng ch
    (match waveOfCode wave.toNat with
    | some w => s.respond .ok (lfoOutput s.num quad w (s.engPhase eng ch.toNat))
    | none => s.raise .badVal .zero))

/-- `LFO.GETPH eng, ch` (rule R127). -/
def execLfoGetph (ch : BitVec 8) (eng : Engine) (s : State) : Host.Outcome State Fault Refusal :=
  .next (s.whenLfo eng ch (s.respond .ok (s.engPhase eng ch.toNat)))

end Sys2Proof.Machine
end

