-- ==== Sys2Proof/Machine/Phaser.lean ====
section
/-! DEFINITION. The phaser engine (spec/43_phaser.md): `PH.RESET`, `PH.SETP`, `PH.GETP`, `PH.PROC`. -/

namespace Sys2Proof.Machine

open Sys2Proof

/-! ## Engine reset (rule R160) -/

/-- The arguments both engine resets reject: fs outside [`FS_MIN`, `FS_MAX`], n = 0, n > `NCH_MAX`
(rules R160, R200). -/
def resetRejects (p : Params) (n : Nat) (fs : NumT) : Bool :=
  p.num.lt fs p.fsMin || p.num.lt p.fsMax fs || n == 0 || decide (p.nchMax < n)

/-- The rate and the channel count latched, and the per-channel state of channels 0 to n − 1 zeroed. -/
def State.phLatch (s : State) (n : Nat) (fs : NumT) : State :=
  { s with ph := { s.ph with
    fs := fs
    nch := n
    phase := Store.dropBelow s.ph.phase n
    s := ⟨Store.dropBelow s.ph.s.s0 n, Store.dropBelow s.ph.s.s1 n, Store.dropBelow s.ph.s.s2 n,
      Store.dropBelow s.ph.s.s3 n⟩ } }

/-- Every stage retuned to its own centre frequency, against the new rate. -/
def State.retuneAll (s : State) : State :=
  (((s.apfSet .s0 (s.ph.fc.get .s0)).apfSet .s1 (s.ph.fc.get .s1)).apfSet .s2 (s.ph.fc.get .s2)).apfSet
    .s3 (s.ph.fc.get .s3)

/-- `PH_INIT <- b` -/
def State.setPhInit (s : State) (b : Bool) : State := { s with ph := { s.ph with init := b } }

/-- `PH.RESET n, fs` (rule R160). The table of spec/10_state.md rule R59 says that a successful `PH.RESET` keeps
`ESTAT`, while rules R160 and R250 set `CLAMP` when a stored stage frequency falls outside the new range; no
file of the spec settles the two. The model follows R160 and R250: the model's choice (assumption log entry
16). -/
def execPhReset (n : BitVec 8) (s : State) : Host.Outcome State Fault Refusal :=
  .next
    (if resetRejects s.cfg.p n.toNat s.din then (s.setPhInit false).raise .resetFail .zero
    else (((s.phLatch n.toNat s.din).retuneAll).setPhInit true).respond .ok .zero)

/-! ## Parameter registers (rules R161, R162) -/

/-- `PH.SETP name, value` (rule R161). -/
def execPhSetp (ival pid : BitVec 8) (s : State) : Host.Outcome State Fault Refusal :=
  .next
    (match PhReg.ofPid pid with
    | some .rate => s.setReal ival .zero s.cfg.p.rateHi
        fun v t => { t with ph := { t.ph with rate := v } }
    | some .depth => s.setReal ival .zero (.rat 100)
        fun v t => { t with ph := { t.ph with depth := v } }
    | some .intensity => s.setReal ival .zero (.rat 100)
        fun v t => { t with ph := { t.ph with intensity := v } }
    | some .quad => s.setBit ival fun b t => { t with ph := { t.ph with quad := b } }
    | some .fbsw => s.setBit ival fun b t => { t with ph := { t.ph with fbsw := b } }
    | some .wave => s.setWave ival fun w t => { t with ph := { t.ph with wave := w } }
    | some .fs => s.raise .illegal .zero
    | some .nch => s.raise .illegal .zero
    | some .init => s.raise .illegal .zero
    | none => s.raise .illegal .zero)

/-- The value of a phaser register, bits and integers as `NUM.ofInt` (rule R162). -/
def State.phReg (s : State) : PhReg → NumT
  | .rate => s.ph.rate
  | .depth => s.ph.depth
  | .intensity => s.ph.intensity
  | .quad => .ofBit s.ph.quad
  | .fbsw => .ofBit s.ph.fbsw
  | .wave => .ofInt (waveCode s.ph.wave)
  | .fs => s.ph.fs
  | .nch => .ofInt s.ph.nch
  | .init => .ofBit s.ph.init

/-- `PH.GETP name` (rule R162). -/
def execPhGetp (pid : BitVec 8) (s : State) : Host.Outcome State Fault Refusal :=
  .next
    (match PhReg.ofPid pid with
    | some r => s.respond .ok (s.phReg r)
    | none => s.raise .illegal .zero)

/-! ## One sample (rule R163) -/

/-- Step 1, the advanced phase. -/
def State.phNextPhase (s : State) (c : Nat) : NumT :=
  lfoAdvance s.num (s.ph.phase.at c) (s.num.div s.ph.rate s.ph.fs)

/-- Step 2 (rule R164): m = (`PH_DEPTH`/100)·(2·v − 1). -/
def State.phModulation (s : State) (c : Nat) : NumT :=
  s.num.mul (s.num.div s.ph.depth (.rat 100))
    (s.num.sub (s.num.mul (.rat 2) (lfoOutput s.num s.ph.quad s.ph.wave (s.phNextPhase c))) .one)

/-- Step 3 (rule R165): the centre frequency asked of stage i. -/
def stageTarget (p : Params) (m : NumT) (i : Stage) : NumT :=
  p.num.add (p.fmin.get i)
    (p.num.mul (p.num.div (p.num.add m .one) (.rat 2)) (p.num.sub (p.fmax.get i) (p.fmin.get i)))

/-- Step 3: the four stages retuned. -/
def State.phRetune (s : State) (m : NumT) : State :=
  let t := stageTarget s.cfg.p m
  (((s.apfSet .s0 (t .s0)).apfSet .s1 (t .s1)).apfSet .s2 (t .s2)).apfSet .s3 (t .s3)

/-- Step 4: the cumulative products of the coefficients. -/
def State.gamma1 (s : State) : NumT := s.ph.d0.get .s3
def State.gamma2 (s : State) : NumT := s.num.mul (s.ph.d0.get .s2) s.gamma1
def State.gamma3 (s : State) : NumT := s.num.mul (s.ph.d0.get .s1) s.gamma2
def State.gamma4 (s : State) : NumT := s.num.mul (s.ph.d0.get .s0) s.gamma3

/-- Step 5: K = `PH_INTENSITY`/100. -/
def State.feedbackK (s : State) : NumT := s.num.div s.ph.intensity (.rat 100)

/-- Step 5: den = 1 + K·gamma4, before the clamp. -/
def State.alphaDen (s : State) : NumT := s.num.add .one (s.num.mul s.feedbackK s.gamma4)

/-- Step 5's clamp (rule R169): the denominator kept at least `EPS_DEN` from zero, a denominator of 0
counting as positive. `none` where it is left alone. -/
def clampDen (p : Params) (den : NumT) : Option NumT :=
  if p.num.le .zero den && p.num.lt den p.epsDen then some p.epsDen
  else if p.num.lt (p.num.neg p.epsDen) den && p.num.lt den .zero then some (p.num.neg p.epsDen)
  else none

/-- Step 5: `alpha0 = 1/den`. -/
def State.alpha0 (s : State) : NumT := s.num.div .one ((clampDen s.cfg.p s.alphaDen).getD s.alphaDen)

/-- Step 6 (rule R167): the combined feedback sum, from the state registers before step 8. -/
def State.feedbackSum (s : State) (c : Nat) : NumT :=
  let two := s.num.add (s.num.mul s.gamma3 ((s.ph.s.get .s0).at c))
    (s.num.mul s.gamma2 ((s.ph.s.get .s1).at c))
  if s.ph.fbsw then two
  else s.num.add (s.num.add two (s.num.mul s.gamma1 ((s.ph.s.get .s2).at c))) ((s.ph.s.get .s3).at c)

/-- Step 7: u = alpha0·(x + K·Sn). -/
def State.cascadeIn (s : State) (c : Nat) (x : NumT) : NumT :=
  s.num.mul s.alpha0 (s.num.add x (s.num.mul s.feedbackK (s.feedbackSum c)))

/-- Steps 1 to 3: the phase advanced and written, the four stages retuned. -/
def State.phModulate (s : State) (c : Nat) : State :=
  ({ s with ph := { s.ph with phase := s.ph.phase.put c (s.phNextPhase c) } }).phRetune (s.phModulation c)

/-- Step 8: the outputs of the four stages, each feeding the next, for the cascade input u. -/
def State.cascadeOut (s : State) (c : Nat) (u : NumT) : Four NumT :=
  let y0 := s.apfOut .s0 c u
  let y1 := s.apfOut .s1 c y0
  let y2 := s.apfOut .s2 c y1
  let y3 := s.apfOut .s3 c y2
  ⟨y0, y1, y2, y3⟩

/-- Step 8: the state registers of the four stages written. A stage's step reads and writes that stage's
own register alone, so the outputs above are those of the sequential steps. -/
def State.cascadeStep (s : State) (c : Nat) (u : NumT) : State :=
  let y := s.cascadeOut c u
  (((s.apfStep .s0 c u).apfStep .s1 c y.s0).apfStep .s2 c y.s1).apfStep .s3 c y.s2

/-- Step 9 (rule R171): `MIX_DRY`·x + `MIX_WET`·y3. -/
def phMix (p : Params) (x y3 : NumT) : NumT :=
  p.num.add (p.num.mul p.mixDry x) (p.num.mul p.mixWet y3)

/-- Steps 1 to 9 on an initialised channel. -/
def State.phProcess (s : State) (c : Nat) (x : NumT) : State :=
  let t := s.phModulate c
  let u := t.cascadeIn c x
  let y := t.cascadeOut c u
  ((t.flagIf (clampDen t.cfg.p t.alphaDen).isSome .denClamp).cascadeStep c u).respond .ok
    (phMix s.cfg.p x y.s3)

/-- `PH.PROC ch, x` (rule R163); a refused sample passes through (rule R166). -/
def execPhProc (ch : BitVec 8) (s : State) : Host.Outcome State Fault Refusal :=
  .next (s.whenInit s.ph.init s.din (s.whenChannel ch.toNat s.ph.nch s.din (s.phProcess ch.toNat s.din)))

end Sys2Proof.Machine
end

