-- ==== Sys2Proof/Machine/Tone.lean ====
section
/-! DEFINITION. The low-shelf tone filter (spec/45_flanger.md rules R210 to R214): its coefficients, the
function `tone_step` and the commands `TONE.PROC`, `TONE.GETS`. -/

namespace Sys2Proof.Machine

open Sys2Proof

/-- mu = 10^(`TONE_GAIN_DB`/20) (rule R210). -/
def toneMu (p : Params) : NumT := p.num.pow10 (p.num.div p.toneGainDb (.rat 20))

/-- delta = beta·tan(theta/2), beta = 4/(1 + mu), theta = 2π·`TONE_FC`/`FL_FS` (rule R210). -/
def toneDelta (p : Params) (fs : NumT) : NumT :=
  p.num.mul (p.num.div (.rat 4) (p.num.add .one (toneMu p))) (p.num.tanpi (p.num.div p.toneFc fs))

/-- `TONE_G` = (1 − delta)/(1 + delta) -/
def toneG (p : Params) (fs : NumT) : NumT :=
  p.num.div (p.num.sub .one (toneDelta p fs)) (p.num.add .one (toneDelta p fs))

/-- `TONE_A` = (1 − `TONE_G`)/2 -/
def toneA (p : Params) (fs : NumT) : NumT := p.num.div (p.num.sub .one (toneG p fs)) (.rat 2)

/-- `TONE_C` = mu − 1 -/
def toneC (p : Params) : NumT := p.num.sub (toneMu p) .one

/-- The low-passed sample of `tone_step(c, x)` (rule R213): lp = `TONE_A`·x + `TZ[c]`. -/
def State.toneLp (s : State) (c : Nat) (x : NumT) : NumT :=
  s.num.add (s.num.mul (toneA s.cfg.p s.fl.fs) x) (s.fl.tz.at c)

/-- The output of `tone_step(c, x)`: x + `TONE_C`·lp. -/
def State.toneOut (s : State) (c : Nat) (x : NumT) : NumT :=
  s.num.add x (s.num.mul (toneC s.cfg.p) (s.toneLp c x))

/-- The state after `tone_step(c, x)`: `TZ[c] <- TONE_A·x + TONE_G·lp`. -/
def State.toneStep (s : State) (c : Nat) (x : NumT) : State :=
  { s with fl := { s.fl with
    tz := s.fl.tz.put c (s.num.add (s.num.mul (toneA s.cfg.p s.fl.fs) x)
      (s.num.mul (toneG s.cfg.p s.fl.fs) (s.toneLp c x))) } }

/-! ## Commands -/

/-- `TONE.PROC ch, x` (rule R211); a refused sample passes through. -/
def execToneProc (ch : BitVec 8) (s : State) : Host.Outcome State Fault Refusal :=
  .next (s.whenFl ch s.din ((s.toneStep ch.toNat s.din).respond .ok (s.toneOut ch.toNat s.din)))

/-- `TONE.GETS ch` (rule R212). -/
def execToneGets (ch : BitVec 8) (s : State) : Host.Outcome State Fault Refusal :=
  .next (s.whenFl ch .zero (s.respond .ok (s.fl.tz.at ch.toNat)))

end Sys2Proof.Machine
end

