-- ==== Sys2Proof/Machine/Flanger.lean ====
section
/-! DEFINITION. The flanger engine (spec/45_flanger.md rules R200 to R209): `FL.RESET`, `FL.SETP`,
`FL.GETP`, `FL.PROC`. -/

namespace Sys2Proof.Machine

open Sys2Proof

/-! ## Engine reset (rule R200) -/

/-- The buffer length of rule R204: L = ceil((`BASE_DELAY` + `SWEEP_MAX`)·fs) + `MARGIN`. -/
def bufferLen (p : Params) (fs : NumT) : Int :=
  p.num.ceil (p.num.mul (p.num.add p.baseDelay p.sweepMax) fs) + p.margin

/-- The value `FL_LEN` takes: L, a count of words. Under `NUM = REAL` L is positive for every rate that the reset
accepts (rule R204). Under another `NUM` the spec does not say what `FL_LEN` holds for a negative L: the model
holds 0 and the reset succeeds, the model's choice (assumption log entry 18). -/
def latchedLen (p : Params) (fs : NumT) : Nat := (bufferLen p fs).toNat

/-- The rate, the channel count and the length latched; the first L words of channels 0 to n − 1, their
write positions, phases and tone-filter states zeroed. -/
def State.flLatch (s : State) (n : Nat) (fs : NumT) : State :=
  let len := latchedLen s.cfg.p fs
  { s with fl := { s.fl with
    fs := fs
    nch := n
    len := len
    buf := s.fl.buf.clear len n
    wpos := Store.dropBelow s.fl.wpos n
    phase := Store.dropBelow s.fl.phase n
    tz := Store.dropBelow s.fl.tz n } }

/-- `FL_INIT <- b` -/
def State.setFlInit (s : State) (b : Bool) : State := { s with fl := { s.fl with init := b } }

/-- `FL.RESET n, fs` (rule R200). -/
def execFlReset (n : BitVec 8) (s : State) : Host.Outcome State Fault Refusal :=
  .next
    (if resetRejects s.cfg.p n.toNat s.din || decide ((s.cfg.p.bufCap : Int) < bufferLen s.cfg.p s.din) then
      (s.setFlInit false).raise .resetFail .zero
    else ((s.flLatch n.toNat s.din).setFlInit true).respond .ok .zero)

/-! ## Parameter registers (rules R201, R202) -/

/-- `FL.SETP name, value` (rule R201). -/
def execFlSetp (ival pid : BitVec 8) (s : State) : Host.Outcome State Fault Refusal :=
  .next
    (match FlReg.ofPid pid with
    | some .rate => s.setReal ival .zero s.cfg.p.rateHi
        fun v t => { t with fl := { t.fl with rate := v } }
    | some .depth => s.setReal ival .zero (.rat 100)
        fun v t => { t with fl := { t.fl with depth := v } }
    | some .fb => s.setReal ival .zero .one
        fun v t => { t with fl := { t.fl with fb := v } }
    | some .inv => s.setBit ival fun b t => { t with fl := { t.fl with inv := b } }
    | some .toneEn => s.setBit ival fun b t => { t with fl := { t.fl with toneEn := b } }
    | some .fs => s.raise .illegal .zero
    | some .nch => s.raise .illegal .zero
    | some .init => s.raise .illegal .zero
    | some .len => s.raise .illegal .zero
    | none => s.raise .illegal .zero)

/-- The value of a flanger register, bits and integers as `NUM.ofInt` (rule R202). -/
def State.flReg (s : State) : FlReg → NumT
  | .rate => s.fl.rate
  | .depth => s.fl.depth
  | .fb => s.fl.fb
  | .inv => .ofBit s.fl.inv
  | .toneEn => .ofBit s.fl.toneEn
  | .fs => s.fl.fs
  | .nch => .ofInt s.fl.nch
  | .init => .ofBit s.fl.init
  | .len => .ofInt s.fl.len

/-- `FL.GETP name` (rule R202). -/
def execFlGetp (pid : BitVec 8) (s : State) : Host.Outcome State Fault Refusal :=
  .next
    (match FlReg.ofPid pid with
    | some r => s.respond .ok (s.flReg r)
    | none => s.raise .illegal .zero)

/-! ## One sample (rule R203) -/

/-- Step 1, the advanced phase. -/
def State.flNextPhase (s : State) (c : Nat) : NumT :=
  lfoAdvance s.num (s.fl.phase.at c) (s.num.div s.fl.rate s.fl.fs)

/-- depth = `FL_DEPTH`/100 (rule R206: it acts on the sweep and on the output). -/
def State.flDepthScale (s : State) : NumT := s.num.div s.fl.depth (.rat 100)

/-- Step 2 (rule R205): the delay in samples for the oscillator phase p. -/
def State.flDelay (s : State) (p : NumT) : NumT :=
  s.num.mul (s.num.add s.cfg.p.baseDelay
    (s.num.mul (s.num.mul s.flDepthScale s.cfg.p.sweepMax) (lfoRender s.num s.cfg.p.flWave p))) s.fl.fs

/-- Steps 3 to 5: the interpolated value, read before the write of step 7 (rule R81). -/
def State.flTap (s : State) (c : Nat) : NumT := s.dlRead c (s.flDelay (s.flNextPhase c))

/-- sign = (`FL_INV` = 1) ? −1 : +1 -/
def State.flSign (s : State) : NumT := if s.fl.inv then .rat (-1) else .rat 1

/-- Step 6: out = x + v·depth·sign. -/
def State.flOut (s : State) (c : Nat) (x : NumT) : NumT :=
  s.num.add x (s.num.mul (s.num.mul (s.flTap c) s.flDepthScale) s.flSign)

/-- Steps 1, 7 and 8: the phase, the word at the write position and the write position written. -/
def State.flAdvance (s : State) (c : Nat) (x : NumT) : State :=
  { s with fl := { s.fl with
    phase := s.fl.phase.put c (s.flNextPhase c)
    buf := s.fl.buf.write c (s.flWpos c) (s.num.add x (s.num.mul (s.flTap c) s.fl.fb))
    wpos := Store.set 0 s.fl.wpos c (imod (s.flWpos c + 1) s.fl.len) } }

/-- Steps 1 to 9 on an initialised channel; the tone filter acts on the output alone (rule R207). -/
def State.flProcess (s : State) (c : Nat) (x : NumT) : State :=
  let out := s.flOut c x
  let t := s.flAdvance c x
  if s.fl.toneEn then (t.toneStep c out).respond .ok (t.toneOut c out) else t.respond .ok out

/-- `FL.PROC ch, x` (rule R203); a refused sample passes through (rule R209). -/
def execFlProc (ch : BitVec 8) (s : State) : Host.Outcome State Fault Refusal :=
  .next (s.whenFl ch s.din (s.flProcess ch.toNat s.din))

end Sys2Proof.Machine
end

