-- ==== Sys2Proof/Machine/System.lean ====
section
/-! DEFINITION. The system commands (spec/46_system.md): `NOP`, `SYS.GETE`, `SYS.CLRE`. -/

namespace Sys2Proof.Machine

open Sys2Proof

/-- `NOP` (rule R230): `respond(OK, 0)`. -/
def execNop (s : State) : Host.Outcome State Fault Refusal := .next (s.respond .ok .zero)

/-- `SYS.GETE` (rule R231): the sticky flags as a number; reading does not clear. -/
def execSysGete (s : State) : Host.Outcome State Fault Refusal := .next (s.respond .ok s.estatNum)

/-- `SYS.CLRE` (rule R232): the sticky flags are cleared and the value they had is returned. -/
def execSysClre (s : State) : Host.Outcome State Fault Refusal :=
  .next ({ s with estat := 0#7 }.respond .ok s.estatNum)

end Sys2Proof.Machine
end

