-- ==== Sys2Proof/Machine/Dispatch.lean ====
section
/-! DEFINITION. One arm per command: the direct call of its meaning. -/

namespace Sys2Proof.Machine

open Sys2Proof

def exec (i : Instr) (s : State) : Host.Outcome State Fault Refusal :=
  match i with
  | .nop => Sys2Proof.Machine.execNop s
  | .sysGete => Sys2Proof.Machine.execSysGete s
  | .sysClre => Sys2Proof.Machine.execSysClre s
  | .phReset n => Sys2Proof.Machine.execPhReset n s
  | .phSetp ival pid => Sys2Proof.Machine.execPhSetp ival pid s
  | .phGetp pid => Sys2Proof.Machine.execPhGetp pid s
  | .phProc ch => Sys2Proof.Machine.execPhProc ch s
  | .apfSetp fsel stage => Sys2Proof.Machine.execApfSetp fsel stage s
  | .apfGetp fsel stage => Sys2Proof.Machine.execApfGetp fsel stage s
  | .apfProc ch stage => Sys2Proof.Machine.execApfProc ch stage s
  | .apfGetg stage => Sys2Proof.Machine.execApfGetg stage s
  | .apfGets ch stage => Sys2Proof.Machine.execApfGets ch stage s
  | .lfoAdv ch xinc eng => Sys2Proof.Machine.execLfoAdv ch xinc eng s
  | .lfoRender ch wave quad eng => Sys2Proof.Machine.execLfoRender ch wave quad eng s
  | .lfoGetph ch eng => Sys2Proof.Machine.execLfoGetph ch eng s
  | .flReset n => Sys2Proof.Machine.execFlReset n s
  | .flSetp ival pid => Sys2Proof.Machine.execFlSetp ival pid s
  | .flGetp pid => Sys2Proof.Machine.execFlGetp pid s
  | .flProc ch => Sys2Proof.Machine.execFlProc ch s
  | .dlRead ch => Sys2Proof.Machine.execDlRead ch s
  | .dlPeek ch addr => Sys2Proof.Machine.execDlPeek ch addr s
  | .dlGetw ch => Sys2Proof.Machine.execDlGetw ch s
  | .toneProc ch => Sys2Proof.Machine.execToneProc ch s
  | .toneGets ch => Sys2Proof.Machine.execToneGets ch s

end Sys2Proof.Machine
end

