-- ==== Sys2Proof/Machine/Step.lean ====
section
/-! DEFINITION. One step of the machine (spec/10_state.md rules R22, R23; spec/70_reset_and_hazards.md
rule R271): the head of the host's command list is taken, and one command is one atomic transition. -/

namespace Sys2Proof.Machine

open Sys2Proof

/-- One step. An operand that is not finite is refused, which `NUM = REAL` never does (rule R9). With nothing presented the block is idle and nothing changes (assumption log entry 6). -/
def step (s : State) : Host.Outcome State Fault Refusal :=
  match s.fetch with
  | .idle => .next s
  | .reset t => .next t
  | .illegal t => .next t
  | .notFinite => .refused .notFinite
  | .run i t => exec i t

/-- The state with one command word put in front of the host's list, with `DIN` = 0 (what the assembler
of spec/30_encoding.md rule R98 emits where `DIN` is ignored), so that the next step runs exactly it. The
block has no instruction memory: the list is presented from outside (assumption log entry 6). -/
def State.withFetchWord (s : State) (nbits w : Nat) : State :=
  { s with inputs := .cmd (BitVec.ofNat 32 (w % 2 ^ nbits)) .zero :: s.inputs }

end Sys2Proof.Machine
end

