-- ==== Sys2Proof/WellFormed.lean ====
section
/-! DEFINITION. Which commands of the syntax spell a command of the block: the value checks of
spec/30_encoding.md rule R96, made after a row of the opcode map has matched. A command that fails
one is refused by the machine with `E_ILLEGAL`, it is not refused by the decoder (rule R97 gives
the order of the checks). Written from rule R96 and the register tables of rules R27 and R50 alone;
the machine's own tables are in `Machine/Operands.lean`. -/

namespace Sys2Proof

/-- The phaser's parameter ids (rule R27): 0x00 to 0x05 read/write, 0x10 to 0x12 read-only. -/
def legalPhPid (pid : BitVec 8) : Bool := pid.toNat ≤ 0x05 || (0x10 ≤ pid.toNat && pid.toNat ≤ 0x12)

/-- The flanger's parameter ids (rule R50): 0x00 to 0x04 read/write, 0x10 to 0x13 read-only. -/
def legalFlPid (pid : BitVec 8) : Bool := pid.toNat ≤ 0x04 || (0x10 ≤ pid.toNat && pid.toNat ≤ 0x13)

/-- A write to a parameter register (rule R96): the register exists and is not read-only (ids up to
`last`), and `ival` is zero where the register is real-valued (ids 0x00 to 0x02 in both engines). -/
def legalSetp (last : Nat) (ival pid : BitVec 8) : Bool :=
  pid.toNat ≤ last && (2 < pid.toNat || ival == 0#8)

/-- The value checks of rule R96. -/
def Instr.wellFormed : Instr → Bool
  | .nop => true
  | .sysGete => true
  | .sysClre => true
  | .phReset _ => true
  | .phSetp ival pid => legalSetp 0x05 ival pid
  | .phGetp pid => legalPhPid pid
  | .phProc _ => true
  | .apfSetp fsel _ => fsel != 3#2
  | .apfGetp fsel _ => fsel != 3#2
  | .apfProc _ _ => true
  | .apfGetg _ => true
  | .apfGets _ _ => true
  | .lfoAdv _ _ _ => true
  | .lfoRender _ _ _ _ => true
  | .lfoGetph _ _ => true
  | .flReset _ => true
  | .flSetp ival pid => legalSetp 0x04 ival pid
  | .flGetp pid => legalFlPid pid
  | .flProc _ => true
  | .dlRead _ => true
  | .dlPeek _ _ => true
  | .dlGetw _ => true
  | .toneProc _ => true
  | .toneGets _ => true

end Sys2Proof
end

