-- ==== Sys2Proof/Safety.lean ====
section
/-! DEFINITION. The terms claims are stated in: the spec's formulas on the real numbers, the opcode map as matches and masks, the table of error
causes, and the invariants of the state that the spec names. -/

namespace Sys2Proof

/-! ## Exact expressions and real numbers -/

/-- The real number `x` lies in the interval (ends in units of 2⁻⁶⁴). -/
def Ival.Has (i : Ival) (x : ℝ) : Prop := (i.lo : ℝ) ≤ x * scale ∧ x * scale ≤ (i.hi : ℝ)

/-- The real number lies between two bounds. -/
def NumT.Within (v lo hi : NumT) : Prop := lo.val ≤ v.val ∧ v.val ≤ hi.val

/-! ## The spec's formulas on the real numbers -/

/-- `clamp(x, lo, hi)` (rule R11). -/
noncomputable def Spec.clamp (x lo hi : ℝ) : ℝ := if x < lo then lo else if hi < x then hi else x

/-- `lfo_render(w, p)` (spec/41_lfo.md rules R121 to R123). -/
noncomputable def Spec.render (w : Wave) (p : ℝ) : ℝ :=
  match w with
  | .sine => 0.5 + 0.5 * Real.sin (2 * Real.pi * p)
  | .tri => if p < 0.25 then 0.5 + 2 * p else if p < 0.75 then 1 - 2 * (p - 0.25) else 2 * (p - 0.75)
  | .saw => if p < 0.5 then 0.5 + p else p - 0.5
  | .isaw => if p < 0.5 then 0.5 - p else 1.5 - p

/-- `apf_coef(fc, fs)` (spec/42_apf.md rule R141). -/
noncomputable def Spec.apfCoef (fc fs : ℝ) : ℝ :=
  (Real.tan (Real.pi * fc / fs) - 1) / (Real.tan (Real.pi * fc / fs) + 1)

/-- Step 5's clamp of the denominator (spec/43_phaser.md rules R163, R169). -/
noncomputable def Spec.clampDen (eps den : ℝ) : ℝ :=
  if 0 ≤ den ∧ den < eps then eps else if -eps < den ∧ den < 0 then -eps else den

/-- `cubic(s0, s1, s2, s3, f)` (spec/44_delay_line.md rule R183). -/
noncomputable def Spec.cubic (s0 s1 s2 s3 f : ℝ) : ℝ :=
  (((-0.5 * s0 + 1.5 * s1 - 1.5 * s2 + 0.5 * s3) * f + (s0 - 2.5 * s1 + 2 * s2 - 0.5 * s3)) * f +
    (-0.5 * s0 + 0.5 * s2)) * f + s1

/-- mu (spec/45_flanger.md rule R210). -/
noncomputable def Spec.toneMu (p : Params) : ℝ := (10 : ℝ) ^ (p.toneGainDb.val / 20)

/-- delta (rule R210), with theta = 2π·`TONE_FC`/fs and beta = 4/(1 + mu). -/
noncomputable def Spec.toneDelta (p : Params) (fs : ℝ) : ℝ :=
  4 / (1 + Spec.toneMu p) * Real.tan (2 * Real.pi * p.toneFc.val / fs / 2)

/-- `TONE_G` (rule R210). -/
noncomputable def Spec.toneG (p : Params) (fs : ℝ) : ℝ :=
  (1 - Spec.toneDelta p fs) / (1 + Spec.toneDelta p fs)

/-- `TONE_A` (rule R210). -/
noncomputable def Spec.toneA (p : Params) (fs : ℝ) : ℝ := (1 - Spec.toneG p fs) / 2

/-- `TONE_C` (rule R210). -/
noncomputable def Spec.toneC (p : Params) : ℝ := Spec.toneMu p - 1

/-! ## The opcode map -/

/-- `match` and `mask` of the command's row in the table of spec/30_encoding.md rule R95. -/
def Instr.matchMask : Instr → BitVec 32 × BitVec 32
  | .nop => (0x00000000#32, 0xFFFFFFFF#32)
  | .sysGete => (0x01000000#32, 0xFFFFFFFF#32)
  | .sysClre => (0x02000000#32, 0xFFFFFFFF#32)
  | .phReset _ => (0x10000000#32, 0xFFFFFF00#32)
  | .phSetp _ _ => (0x11000000#32, 0xFFFF0000#32)
  | .phGetp _ => (0x12000000#32, 0xFFFFFF00#32)
  | .phProc _ => (0x13000000#32, 0xFF00FFFF#32)
  | .apfSetp _ _ => (0x20000000#32, 0xFFFFFCFC#32)
  | .apfGetp _ _ => (0x21000000#32, 0xFFFFFCFC#32)
  | .apfProc _ _ => (0x22000000#32, 0xFF00FFFC#32)
  | .apfGetg _ => (0x23000000#32, 0xFFFFFFFC#32)
  | .apfGets _ _ => (0x24000000#32, 0xFF00FFFC#32)
  | .lfoAdv _ _ _ => (0x30000000#32, 0xFF00FAFF#32)
  | .lfoRender _ _ _ _ => (0x31000000#32, 0xFF008CFF#32)
  | .lfoGetph _ _ => (0x32000000#32, 0xFF00FEFF#32)
  | .flReset _ => (0x40000000#32, 0xFFFFFF00#32)
  | .flSetp _ _ => (0x41000000#32, 0xFFFF0000#32)
  | .flGetp _ => (0x42000000#32, 0xFFFFFF00#32)
  | .flProc _ => (0x43000000#32, 0xFF00FFFF#32)
  | .dlRead _ => (0x50000000#32, 0xFF00FFFF#32)
  | .dlPeek _ _ => (0x51000000#32, 0xFF000000#32)
  | .dlGetw _ => (0x52000000#32, 0xFF00FFFF#32)
  | .toneProc _ => (0x60000000#32, 0xFF00FFFF#32)
  | .toneGets _ => (0x61000000#32, 0xFF00FFFF#32)

/-- The word lies in the command's row: w AND mask = match (rule R95). -/
def Instr.rowHolds (i : Instr) (w : BitVec 32) : Prop := w &&& i.matchMask.2 = i.matchMask.1

/-! ## The commands by what they need -/

/-- A `PROC` command (spec/60_exceptions.md rule R240). -/
def Instr.isProc : Instr → Bool
  | .phProc _ | .flProc _ | .apfProc _ _ | .toneProc _ => true
  | _ => false

/-- The engine a command belongs to (spec/00_scope.md rule R5); the system commands belong to none. -/
def Instr.engine : Instr → Option Engine
  | .nop | .sysGete | .sysClre => none
  | .phReset _ | .phSetp _ _ | .phGetp _ | .phProc _ => some .phaser
  | .apfSetp _ _ | .apfGetp _ _ | .apfProc _ _ | .apfGetg _ | .apfGets _ _ => some .phaser
  | .lfoAdv _ _ eng | .lfoRender _ _ _ eng | .lfoGetph _ eng => some eng
  | .flReset _ | .flSetp _ _ | .flGetp _ | .flProc _ => some .flanger
  | .dlRead _ | .dlPeek _ _ | .dlGetw _ | .toneProc _ | .toneGets _ => some .flanger

/-- The engine whose `*_INIT` a command checks (spec/60_exceptions.md rules R242, R243). -/
def Instr.needsInit : Instr → Option Engine
  | .phReset _ | .phSetp _ _ | .phGetp _ | .flReset _ | .flSetp _ _ | .flGetp _ => none
  | i => i.engine

/-- The channel a command names, where it has a channel field (rule R91; the field must be zero in
`APF.SETP`, `APF.GETP` and `APF.GETG`). -/
def Instr.channel : Instr → Option (BitVec 8)
  | .phProc ch | .apfProc ch _ | .apfGets ch _ => some ch
  | .lfoAdv ch _ _ | .lfoRender ch _ _ _ | .lfoGetph ch _ => some ch
  | .flProc ch | .dlRead ch | .dlPeek ch _ | .dlGetw ch | .toneProc ch | .toneGets ch => some ch
  | _ => none

/-- The probe commands (spec/60_exceptions.md rule R253). -/
def Instr.isProbe : Instr → Bool
  | .phGetp _ | .flGetp _ | .apfGetp _ _ | .apfGetg _ | .apfGets _ _ => true
  | .lfoGetph _ _ | .lfoRender _ _ _ _ | .dlRead _ | .dlPeek _ _ | .dlGetw _ | .toneGets _ => true
  | .sysGete => true
  | _ => false

namespace Machine

/-! ## The table of causes (spec/60_exceptions.md rule R242) -/

/-- The column `E_BADVAL`. -/
def badValue (i : Instr) (s : State) : Bool :=
  match i with
  | .phSetp ival pid =>
    ((pid == 3#8 || pid == 4#8) && decide (1 < ival.toNat)) || (pid == 5#8 && decide (3 < ival.toNat))
  | .flSetp ival pid => (pid == 3#8 || pid == 4#8) && decide (1 < ival.toNat)
  | .lfoRender _ wave _ _ => decide (4 ≤ wave.toNat)
  | .dlPeek _ addr => decide (s.fl.len ≤ addr.toNat)
  | _ => false

/-- The column `E_RESETFAIL`: fs below `FS_MIN` or above `FS_MAX`, n = 0 or n > `NCH_MAX`; for the flanger
also a length above `BUF_CAP`. -/
def resetFails (i : Instr) (s : State) : Bool :=
  match i with
  | .phReset n =>
    s.num.lt s.din s.cfg.p.fsMin || s.num.lt s.cfg.p.fsMax s.din || n == 0#8 ||
      decide (s.cfg.p.nchMax < n.toNat)
  | .flReset n =>
    s.num.lt s.din s.cfg.p.fsMin || s.num.lt s.cfg.p.fsMax s.din || n == 0#8 ||
      decide (s.cfg.p.nchMax < n.toNat) || decide ((s.cfg.p.bufCap : Int) < bufferLen s.cfg.p s.din)
  | _ => false

/-- The status of a command, by the causes of rule R242 in the order of rule R245. -/
def causeStatus (i : Instr) (s : State) : Status :=
  if i.wellFormed = false then .illegal
  else if i.needsInit.any (fun e => !s.engInit e) then .uninit
  else if i.engine.any (fun e => i.channel.any fun ch => decide (s.engNch e ≤ ch.toNat)) then .badCh
  else if badValue i s then .badVal
  else if resetFails i s then .resetFail
  else .ok

/-! ## The delay line on the real numbers -/

/-- `dl_read(c, d)` on the real numbers (spec/44_delay_line.md rules R181 to R184): the cubic of the four words
around r = (w − d + L) mod L, at the fraction of r. -/
noncomputable def State.readAt (s : State) (c : Nat) (d : ℝ) : ℝ :=
  let len := s.fl.len
  let x := (s.flWpos c : ℝ) - d + len
  let r := x - len * ⌊x / len⌋
  let word := fun k : ℤ => (s.fl.buf.read c ((⌊r⌋ + k) % len).toNat).val
  Spec.cubic (word (-1)) (word 0) (word 1) (word 2) (Int.fract r)

/-! ## Reset values -/

/-- The values of the power-on column of spec/10_state.md rule R59 and of rule R270, for the parameters `p`;
the elements the column calls unspecified are not named. -/
def State.PowerOnValues (p : Params) (t : State) : Prop :=
  t.status = .ok ∧ t.dout = .rat 0 ∧ t.estat = 0#7 ∧
    t.ph.rate = .rat 0 ∧ t.ph.depth = .rat 0 ∧ t.ph.intensity = .rat 0 ∧ t.ph.quad = false ∧
    t.ph.fbsw = false ∧ t.ph.wave = .sine ∧ t.ph.fs = .rat 0 ∧ t.ph.nch = 0 ∧ t.ph.init = false ∧
    (∀ i, t.ph.fc.get i = p.num.div (p.num.add (p.fmin.get i) (p.fmax.get i)) (.rat 2) ∧
      t.ph.q.get i = .rat (707 / 1000) ∧ t.ph.boost.get i = .rat 0) ∧
    t.fl.rate = .rat 0 ∧ t.fl.depth = .rat 0 ∧ t.fl.fb = .rat 0 ∧ t.fl.inv = false ∧
    t.fl.toneEn = false ∧ t.fl.fs = .rat 0 ∧ t.fl.nch = 0 ∧ t.fl.init = false ∧ t.fl.len = 0

/-! ## Invariants -/

/-- Every array of the state and the delay memory is in its canonical form. -/
def State.Canonical (s : State) : Prop :=
  Store.wf NumT.zero s.ph.phase = true ∧ (∀ i, Store.wf NumT.zero (s.ph.s.get i) = true) ∧
    Store.wf NumT.zero s.fl.phase = true ∧ Store.wf NumT.zero s.fl.tz = true ∧
    Store.wf 0 s.fl.wpos = true ∧ Memory.wf s.fl.buf = true

/-- The legal values of the tables of spec/10_state.md rules R27 and R50, as real numbers. -/
def State.LegalRegisters (s : State) : Prop :=
  s.ph.rate.Within .zero s.cfg.p.rateHi ∧ s.ph.depth.Within .zero (.rat 100) ∧
    s.ph.intensity.Within .zero (.rat 100) ∧
    (s.ph.fs.val = 0 ∧ s.ph.init = false ∨ s.ph.fs.Within s.cfg.p.fsMin s.cfg.p.fsMax) ∧
    s.ph.nch ≤ s.cfg.p.nchMax ∧ (s.ph.init = true → 1 ≤ s.ph.nch) ∧
    s.fl.rate.Within .zero s.cfg.p.rateHi ∧ s.fl.depth.Within .zero (.rat 100) ∧
    s.fl.fb.Within .zero .one ∧
    (s.fl.fs.val = 0 ∧ s.fl.init = false ∨ s.fl.fs.Within s.cfg.p.fsMin s.cfg.p.fsMax) ∧
    s.fl.nch ≤ s.cfg.p.nchMax ∧ (s.fl.init = true → 1 ≤ s.fl.nch) ∧
    (s.fl.len = 0 ∧ s.fl.init = false ∨ s.cfg.p.margin ≤ s.fl.len ∧ s.fl.len ≤ s.cfg.p.bufCap)

/-- The invariants of the per-channel positions (spec/10_state.md rules R41, R52, R53; spec/45_flanger.md rule
R204 for the length): in an initialised engine a reachable channel's phase lies in [0, 1), its write position
lies below `FL_LEN`, and `FL_LEN` is ceil((`BASE_DELAY` + `SWEEP_MAX`)·`FL_FS`) + `MARGIN`. -/
def State.Geometry (s : State) : Prop :=
  (s.ph.init = true → ∀ c < s.ph.nch, 0 ≤ (s.ph.phase.at c).val ∧ (s.ph.phase.at c).val < 1) ∧
    (s.fl.init = true →
      (s.fl.len : ℤ) = ⌈(s.cfg.p.baseDelay.val + s.cfg.p.sweepMax.val) * s.fl.fs.val⌉ + s.cfg.p.margin ∧
      ∀ c < s.fl.nch, s.flWpos c < s.fl.len ∧
        0 ≤ (s.fl.phase.at c).val ∧ (s.fl.phase.at c).val < 1)

/-- The invariant of spec/10_state.md rules R42 and R43: in an initialised phaser every stage's frequency
lies in [`FC_LO`, `FC_HI_FRAC`·`PH_FS`] and its coefficient is the one of that frequency. -/
def State.Tuned (s : State) : Prop :=
  s.ph.init = true → ∀ i, s.cfg.p.fcLo.val ≤ (s.ph.fc.get i).val ∧
    (s.ph.fc.get i).val ≤ s.cfg.p.fcHiFrac.val * s.ph.fs.val ∧
    (s.ph.d0.get i).val = Spec.apfCoef (s.ph.fc.get i).val s.ph.fs.val

/-! ## Reachable state -/

/-- Two phasers agree on everything a command can reach: the registers, and in an initialised engine the
coefficients and the state of the channels below the channel count (spec/10_state.md rules R29, R59;
spec/93_implementation_defined.md items U5, U6). -/
def Phaser.SameLive (a b : Phaser) : Prop :=
  { a with phase := b.phase, d0 := b.d0, s := b.s } = b ∧
    (a.init = true → a.d0 = b.d0 ∧ ∀ c < a.nch,
      a.phase.at c = b.phase.at c ∧ ∀ i, (a.s.get i).at c = (b.s.get i).at c)

/-- Two flangers agree on everything a command can reach (rules R51, R54, R59; items U5, U6). -/
def Flanger.SameLive (a b : Flanger) : Prop :=
  { a with phase := b.phase, wpos := b.wpos, buf := b.buf, tz := b.tz } = b ∧
    (a.init = true → ∀ c < a.nch,
      a.phase.at c = b.phase.at c ∧ Store.get 0 a.wpos c = Store.get 0 b.wpos c ∧
        a.tz.at c = b.tz.at c ∧ ∀ k < a.len, a.buf.read c k = b.buf.read c k)

/-- Two states agree on everything but what the spec calls unspecified or unreachable. -/
def State.SameLive (a b : State) : Prop :=
  { a with ph := b.ph, fl := b.fl } = b ∧ a.ph.SameLive b.ph ∧ a.fl.SameLive b.fl

/-- Two states agree on everything but the elements of the channels other than `c` (spec/10_state.md rule
R40, spec/20_memory.md rule R76). -/
def State.SameChannel (c : Nat) (a b : State) : Prop :=
  { a with ph := b.ph, fl := b.fl } = b ∧ { a.ph with phase := b.ph.phase, s := b.ph.s } = b.ph ∧
    { a.fl with phase := b.fl.phase, wpos := b.fl.wpos, buf := b.fl.buf, tz := b.fl.tz } = b.fl ∧
    a.ph.phase.at c = b.ph.phase.at c ∧ (∀ i, (a.ph.s.get i).at c = (b.ph.s.get i).at c) ∧
    a.fl.phase.at c = b.fl.phase.at c ∧ a.flWpos c = b.flWpos c ∧ a.fl.tz.at c = b.fl.tz.at c ∧
    ∀ k, a.fl.buf.read c k = b.fl.buf.read c k

end Machine

end Sys2Proof
end

