-- ==== Sys2Proof/Certificates/Slice0/Obligations.lean ====
section
/-! DEFINITION. The statements for the provers. A clause of the form `t = { s with … := t.…, … }` is the
frame: everything not named there is as in `s`. Values of `NUM.T` are compared as the real numbers they
denote (`NumT.val`) where the spec gives a formula, under `NUM = REAL` (`s.num = .real`), for which every rule
of the spec is stated (rule R8). An operand is any value of `NumT`, `sym n` among them (assumption log entry
1). -/

open Sys2Proof Sys2Proof.Machine

/-! ## System commands -/

/-- Rule R230. Only the all-zero word is `NOP`, the other words with opcode 0 raise `E_ILLEGAL`; `NOP` answers
`OK` and 0 and changes nothing else, so it clears no flag. (The operand is finite, rule R9, as every operand is
under `NUM = REAL`.) -/
def Obligations.NopRespondsOnly : Prop :=
  (∀ w : BitVec 32, decode w = .ok .nop ↔ w = 0#32) ∧
    (∀ s w d rest, s.inputs = .cmd w d :: rest → s.num.finite d = true → 1 ≤ w.toNat →
      w.toNat ≤ 0x00FFFFFF →
      step s = .next { s with
        inputs := rest, cmd := w, din := d, estat := s.estat ||| 1#7, status := .illegal
        dout := .rat 0 }) ∧
    ∀ s : State, exec .nop s = .next { s with status := .ok, dout := .rat 0 }

/-- Rules R231, R232. `SYS.GETE` answers the sum of the set flags' powers of two, 0 to 127, and changes nothing
else; `SYS.CLRE` answers the same and clears the seven flags. -/
def Obligations.FlagCommandsReadAndClear : Prop :=
  (∀ w : BitVec 32, (decode w = .ok .sysGete ↔ w = 0x01000000#32) ∧
    (decode w = .ok .sysClre ↔ w = 0x02000000#32)) ∧
    ∀ s : State, ∃ q : Rat,
      q = (∑ b ∈ Finset.range 7, if s.estat.getLsbD b then (2 : Rat) ^ b else 0) ∧ 0 ≤ q ∧ q ≤ 127 ∧
        exec .sysGete s = .next { s with status := .ok, dout := .rat q } ∧
        exec .sysClre s = .next { s with status := .ok, dout := .rat q, estat := 0#7 }

/-! ## Encoding -/

/-- Rules R91, R95. Decoding the encoding of any command gives it back, every field at every value. -/
def Obligations.DecodeEncodeRoundTrip : Prop := ∀ i : Instr, decode (encode i) = .ok i

/-- Rules R91, R95. A word that decodes is the encoding of what it decodes to: no bit is ignored. -/
def Obligations.EncodeDecodeRoundTrip : Prop := ∀ w i, decode w = .ok i → encode i = w

/-- Rule R95. A word decodes as a row's command exactly when w AND mask = match, and the rows are
disjoint. -/
def Obligations.DecodeFollowsTable : Prop :=
  ∀ w : BitVec 32,
    (∀ i, decode w = .ok i → i.rowHolds w) ∧
      (∀ i : Instr, i.rowHolds w → ∃ j, decode w = .ok j ∧ j.matchMask = i.matchMask) ∧
      ∀ i j : Instr, i.rowHolds w → j.rowHolds w → i.matchMask = j.matchMask

/-- Rule R100, one word of each family (a sanity statement). -/
def Obligations.WorkedWordsDecode : Prop :=
  decode 0x01000000#32 = .ok .sysGete ∧ decode 0x11000105#32 = .ok (.phSetp 1#8 5#8) ∧
    decode 0x20000103#32 = .ok (.apfSetp 1#2 .s3) ∧
    decode 0x31001300#32 = .ok (.lfoRender 0#8 1#3 true .flanger) ∧
    decode 0x42000013#32 = .ok (.flGetp 0x13#8) ∧ decode 0x51000009#32 = .ok (.dlPeek 0#8 9#16) ∧
    decode 0x61010000#32 = .ok (.toneGets 1#8)

/-! ## The step -/

/-- Rules R22, R9. A presented word that decodes is run, with its operand, in the state where the list has
advanced past it; a command whose operand is not finite is refused instead, and under `NUM = REAL` every
operand is finite. -/
def Obligations.StepRunsDecoded : Prop :=
  (∀ s w d rest i, s.inputs = .cmd w d :: rest → decode w = .ok i →
    step s = if s.num.finite d = true then exec i { s with inputs := rest, cmd := w, din := d }
      else .refused .notFinite) ∧
  ∀ (s : State) d, s.num = .real → s.num.finite d = true

/-- Rules R22, R58. The list and the parameters are the model's own fields (assumption log entries 2 and 6). A
step takes the head of the host's list and no step changes the rest of it, the
parameters, or, while a command runs, the two input ports. -/
def Obligations.StepTakesHead : Prop :=
  (∀ s e rest t, s.inputs = e :: rest → step s = .next t → t.inputs = rest ∧ t.cfg = s.cfg) ∧
    ∀ i s t, exec i s = .next t →
      t.inputs = s.inputs ∧ t.cfg = s.cfg ∧ t.cmd = s.cmd ∧ t.din = s.din

/-- Rule R96. A word in no row of the opcode map raises `E_ILLEGAL` and changes nothing else; so does a command
that fails a value check (`fsel` = 3, a `pid` that names no register or a read-only one, a non-zero `ival` with a
real-valued register), and no other command does. (The operand is finite, rule R9, as every operand is under
`NUM = REAL`.) -/
def Obligations.BadWordsRaiseIllegal : Prop :=
  (∀ s w d rest, s.inputs = .cmd w d :: rest → s.num.finite d = true →
    (∀ i : Instr, ¬ i.rowHolds w) →
    step s = .next { s with
      inputs := rest, cmd := w, din := d, estat := s.estat ||| 1#7, status := .illegal, dout := .rat 0 }) ∧
  ∀ i s,
    (i.wellFormed = false →
      exec i s = .next { s with estat := s.estat ||| 1#7, status := .illegal, dout := .rat 0 }) ∧
    (i.wellFormed = true → ∀ t, exec i s = .next t → t.status ≠ .illegal)

/-- Rules R59, R270, R271. The state after reset, for every parameter set, and the state after the event `rst`
have the values of the power-on column; the elements it leaves unspecified are not named. -/
def Obligations.PowerOnResetValues : Prop :=
  (∀ c : Config, (State.resetWith c).PowerOnValues c.p) ∧
    ∀ s rest, s.inputs = .rst :: rest → ∃ t, step s = .next t ∧ t.inputs = rest ∧ t.cfg = s.cfg ∧
      t.PowerOnValues s.cfg.p

/-! ## Errors -/

/-- Rules R242, R245. Every command completes, and its status is the first cause of the table in the order
of the checks. -/
def Obligations.StatusFollowsCauses : Prop :=
  ∀ i s, ∃ t, exec i s = .next t ∧ t.status = causeStatus i s

/-- Rules R240, R241, R244. A command that ends with a non-zero code sets that code's flag, answers `DIN`
where a `PROC` command is not initialised or has a bad channel and 0 otherwise, and changes nothing else,
but for the `*_INIT` bit of a failed engine reset. -/
def Obligations.ErrorChangesNothingElse : Prop :=
  ∀ i s t, exec i s = .next t → t.status ≠ .ok →
    t = { s with
      estat := s.estat ||| (1#7 <<< (t.status.code.toNat - 1))
      status := t.status
      dout := (if i.isProc = true ∧ (t.status = .uninit ∨ t.status = .badCh) then s.din else .rat 0)
      ph := (match i with
        | .phReset _ => { s.ph with init := false }
        | _ => s.ph)
      fl := (match i with
        | .flReset _ => { s.fl with init := false }
        | _ => s.fl) }

/-- Rule R26. But for the two commands that read the flags, the flags a command finds affect nothing, and
it only sets flags: there is one set of flags it adds, whatever the flags were, of which the five error
flags are exactly the one of its status. -/
def Obligations.FlagsStickyAndUnread : Prop :=
  ∀ (i : Instr) (s : State), i ≠ .sysGete → i ≠ .sysClre → ∃ (t : State) (m : BitVec 7),
    m &&& 0x1F#7 = t.status.mask ∧
      ∀ e : BitVec 7, exec i { s with estat := e } = .next { t with estat := e ||| m }

/-- Rules R57, R253. A probe changes no state of either engine, and no flag when it answers `OK`. -/
def Obligations.ProbesChangeNothing : Prop :=
  ∀ i s t, i.isProbe = true → exec i s = .next t →
    t.ph = s.ph ∧ t.fl = s.fl ∧ (t.status = .ok → t.estat = s.estat)

/-- Rule R5. The two engines are independent: a command of one engine neither reads nor writes the other's
state. -/
def Obligations.EnginesIndependent : Prop :=
  (∀ i s t f, i.engine = some .phaser → exec i s = .next t →
    t.fl = s.fl ∧ exec i { s with fl := f } = .next { t with fl := f }) ∧
    ∀ i s t f, i.engine = some .flanger → exec i s = .next t →
      t.ph = s.ph ∧ exec i { s with ph := f } = .next { t with ph := f }

/-- Rules R29, R51. `*_INIT` is 1 after an engine reset exactly when it succeeded, and no other command
changes it. -/
def Obligations.InitRecordsLastReset : Prop :=
  ∀ i s t, exec i s = .next t →
    (match i with
      | .phReset _ => (t.ph.init = true ↔ t.status = .ok)
      | _ => t.ph.init = s.ph.init) ∧
      match i with
      | .flReset _ => (t.fl.init = true ↔ t.status = .ok)
      | _ => t.fl.init = s.fl.init

/-- Rules R76, R286. A command with a channel field leaves every element of every other channel. -/
def Obligations.OtherChannelsUnchanged : Prop :=
  ∀ i s t ch c, i.channel = some ch → exec i s = .next t → c ≠ ch.toNat →
    t.ph.phase.at c = s.ph.phase.at c ∧ (∀ j, (t.ph.s.get j).at c = (s.ph.s.get j).at c) ∧
      t.fl.phase.at c = s.fl.phase.at c ∧ t.flWpos c = s.flWpos c ∧ t.fl.tz.at c = s.fl.tz.at c ∧
      ∀ a, t.fl.buf.read c a = s.fl.buf.read c a

/-- Rules R76, R286. What a command with a channel field answers and writes depends on no element of
another channel: from two states that agree but for other channels, the next states agree so too. -/
def Obligations.OtherChannelsUnread : Prop :=
  ∀ i a b t ch, i.channel = some ch → a.SameChannel ch.toNat b → exec i a = .next t →
    ∃ u, exec i b = .next u ∧ t.SameChannel ch.toNat u

/-- Rule R73. Only `FL.PROC` and a successful `FL.RESET` write the delay memory: the first the one word at the
write position of its channel, the second zeros in the first `FL_LEN` words of the channels it
initialises. -/
def Obligations.DelayMemoryWriters : Prop :=
  ∀ i s t, exec i s = .next t → ∀ c a,
    match i with
    | .flProc ch => (c ≠ ch.toNat ∨ a ≠ s.flWpos ch.toNat) → t.fl.buf.read c a = s.fl.buf.read c a
    | .flReset n => t.fl.buf.read c a =
        if t.status = .ok ∧ c < n.toNat ∧ a < t.fl.len then .rat 0 else s.fl.buf.read c a
    | _ => t.fl.buf.read c a = s.fl.buf.read c a

/-! ## Invariants of the step -/

/-- Every step keeps the canonical form of the arrays and of the delay memory, from every state that has
it. The form is the model's choice (assumption log entry 8). -/
def Obligations.StepKeepsCanonical : Prop :=
  ∀ s t : State, s.Canonical → step s = .next t → t.Canonical

/-- Rules R27, R50. Every step keeps the registers at their legal values, under `NUM = REAL`. -/
def Obligations.StepKeepsLegalRegisters : Prop :=
  ∀ s t : State, s.num = .real → s.LegalRegisters → step s = .next t → t.LegalRegisters

/-- Rules R41, R52, R53, R204. In an initialised engine every step keeps the phases of reachable channels in
[0, 1), their write positions below `FL_LEN`, and `FL_LEN` = ceil((`BASE_DELAY` + `SWEEP_MAX`)·`FL_FS`) +
`MARGIN`, under `NUM = REAL`. -/
def Obligations.StepKeepsGeometry : Prop :=
  ∀ s t : State, s.num = .real → s.Geometry → step s = .next t → t.Geometry

/-- Rules R42, R43. Every step keeps each stage's frequency in the clamped range and its coefficient the one of
that frequency, in a phaser whose rate is legal, under `NUM = REAL`. -/
def Obligations.StepKeepsTuning : Prop :=
  ∀ s t : State, s.num = .real → s.LegalRegisters → s.Tuned → step s = .next t → t.Tuned

/-- The four invariants hold after reset, for every parameter set. What the arrays hold there is the model's
choice (assumption log entry 5). -/
def Obligations.ResetMeetsInvariants : Prop :=
  ∀ c : Config, (State.resetWith c).Canonical ∧
    (c.p.num = .real → (State.resetWith c).LegalRegisters ∧ (State.resetWith c).Geometry ∧
      (State.resetWith c).Tuned)

/-- Rules R29, R51, R59, with the guards of rule R243. No unspecified or unreachable element is ever
observed: two states that agree on the rest answer alike and go on agreeing. The spec marks this
consequence (rules R243, R287) as derived. -/
def Obligations.StaleStateNeverObserved : Prop :=
  ∀ a b t : State, a.Geometry → a.SameLive b → step a = .next t →
    ∃ u, step b = .next u ∧ t.SameLive u ∧ t.status = u.status ∧ t.dout = u.dout

/-! ## The oscillator -/

/-- Rule R120. `lfo_advance(p, inc)` is the fractional part of p + inc, in [0, 1), for every phase and every
increment. -/
def Obligations.AdvanceTakesFraction : Prop :=
  ∀ p inc : NumT, (lfoAdvance .real p inc).val = Int.fract (p.val + inc.val) ∧
    0 ≤ (lfoAdvance .real p inc).val ∧ (lfoAdvance .real p inc).val < 1

/-- Rule R120. If inc·N is an integer, N advances return to the starting phase exactly, for every phase in
[0, 1) and every increment. The spec marks this property (rule R129 (b)) as derived. -/
def Obligations.AdvancePeriodic : Prop :=
  ∀ (p inc : NumT) (n : Nat) (z : ℤ), 0 ≤ p.val → p.val < 1 → inc.val * n = z →
    ((fun q => lfoAdvance .real q inc)^[n] p).val = p.val

/-- Rules R121, R122, R123. The rendered value is the spec's formula of the phase; it lies in [0, 1], SAW
never reaches 1, ISAW never reaches 0, and ISAW is 1 minus SAW. The spec marks the common range (rule R129
(a)) as derived. -/
def Obligations.RenderFollowsFormula : Prop :=
  (∀ w (p : NumT), (lfoRender .real w p).val = Spec.render w p.val) ∧
  ∀ p : ℝ, 0 ≤ p → p < 1 →
    (∀ w, 0 ≤ Spec.render w p ∧ Spec.render w p ≤ 1) ∧ Spec.render .saw p < 1 ∧
      0 < Spec.render .isaw p ∧ Spec.render .isaw p = 1 - Spec.render .saw p

/-- Rule R125. `LFO.ADV` on an initialised engine and a legal channel completes: it writes the wrapped sum of
the phase and the increment (`DIN` or rate/fs) to the one channel's phase and answers it. -/
def Obligations.LfoAdvCompletes : Prop :=
  ∀ ch xinc eng s, s.engInit eng = true → ch.toNat < s.engNch eng → ∃ t p,
    exec (.lfoAdv ch xinc eng) s = .next t ∧
    p = lfoAdvance s.num (s.engPhase eng ch.toNat) (if xinc = true then s.din else s.engStep eng) ∧
    t.dout = p ∧ (∀ c, t.engPhase eng c = if c = ch.toNat then p else s.engPhase eng c) ∧
    t = match eng with
      | .phaser => { s with status := .ok, dout := p, ph := { s.ph with phase := t.ph.phase } }
      | .flanger => { s with status := .ok, dout := p, fl := { s.fl with phase := t.fl.phase } }

/-- Rules R124, R126, R127. `LFO.RENDER` of a waveform 0 to 3 and `LFO.GETPH` complete on an initialised engine
and a legal channel: they answer the rendered value (at the phase, or a quarter later) and the phase, and
change nothing else. -/
def Obligations.LfoRenderAndGetphComplete : Prop :=
  ∀ ch eng s, s.engInit eng = true → ch.toNat < s.engNch eng →
    exec (.lfoGetph ch eng) s = .next { s with status := .ok, dout := s.engPhase eng ch.toNat } ∧
    ∀ w wave, wave.toNat = waveCode w →
      exec (.lfoRender ch wave false eng) s = .next { s with
        status := .ok, dout := lfoRender s.num w (s.engPhase eng ch.toNat) } ∧
      exec (.lfoRender ch wave true eng) s = .next { s with
        status := .ok
        dout := lfoRender s.num w (s.num.frac (s.num.add (s.engPhase eng ch.toNat) (.rat (1 / 4)))) }

/-! ## The all-pass stage -/

/-- Rule R141. The coefficient is (t − 1)/(t + 1) with t = tan(π·fc/fs); for 0 < fc < fs/2 it lies
strictly between −1 and 1, increases with fc, and is 0 exactly at fs/4. The spec marks these properties
(rule R142) as derived. -/
def Obligations.CoefficientFormulaAndBounds : Prop :=
  (∀ fc fs : NumT, (apfCoef .real fc fs).val = Spec.apfCoef fc.val fs.val) ∧
    ∀ fc fs : ℝ, 0 < fc → fc < fs / 2 →
      -1 < Spec.apfCoef fc fs ∧ Spec.apfCoef fc fs < 1 ∧ (Spec.apfCoef fc fs = 0 ↔ fc = fs / 4) ∧
        ∀ fc', fc < fc' → fc' < fs / 2 → Spec.apfCoef fc fs < Spec.apfCoef fc' fs

/-- Rule R140. A centre frequency is clamped to [`FC_LO`, `FC_HI_FRAC`·fs], which is not empty and lies strictly
inside (0, fs/2) for every rate of at least `FS_MIN`. -/
def Obligations.FrequencyClampRange : Prop :=
  ∀ p : Params, p.num = .real → p.legal = true →
    (∀ fc fs : NumT,
      (apfClampFc p fc fs).val = Spec.clamp fc.val p.fcLo.val (p.fcHiFrac.val * fs.val)) ∧
    ∀ fs : ℝ, p.fsMin.val ≤ fs →
      0 < p.fcLo.val ∧ p.fcLo.val ≤ p.fcHiFrac.val * fs ∧ p.fcHiFrac.val * fs < fs / 2

/-- Rule R143. `apf_step`: y = g·x + S, the stage's state of the channel becomes x − g·y, nothing else
changes, and the next output with the same coefficient is g·x' + x − g·y. The spec marks this difference
equation as derived. -/
def Obligations.StageStepEquation : Prop :=
  ∀ (s : State) i c (x x' : NumT), s.num = .real →
    let g := (s.ph.d0.get i).val
    let y := s.apfOut i c x
    let t := s.apfStep i c x
    y.val = g * x.val + ((s.ph.s.get i).at c).val ∧
      ((t.ph.s.get i).at c).val = x.val - g * y.val ∧
      (∀ j k, (j ≠ i ∨ k ≠ c) → (t.ph.s.get j).at k = (s.ph.s.get j).at k) ∧
      t = { s with ph := { s.ph with s := t.ph.s } } ∧
      (t.apfOut i c x').val = g * x'.val + x.val - g * y.val

/-- Rules R144, R149. `APF.SETP` completes on an initialised phaser: `FC` stores the clamped value with its
coefficient and sets `CLAMP` if `DIN` lies outside [`FC_LO`, `FC_HI_FRAC`·`PH_FS`]; `Q` and `BOOST` store the
value and change nothing else. -/
def Obligations.ApfSetpCompletes : Prop :=
  ∀ i s, s.ph.init = true →
    (s.num = .real →
      let lo := s.cfg.p.fcLo.val
      let hi := s.cfg.p.fcHiFrac.val * s.ph.fs.val
      ∃ v g : NumT, v.val = Spec.clamp s.din.val lo hi ∧ g.val = Spec.apfCoef v.val s.ph.fs.val ∧
        exec (.apfSetp 0#2 i) s = .next { s with
          status := .ok, dout := .rat 0
          estat := if s.din.val < lo ∨ hi < s.din.val then s.estat ||| 0x20#7 else s.estat
          ph := { s.ph with fc := s.ph.fc.set i v, d0 := s.ph.d0.set i g } }) ∧
    exec (.apfSetp 1#2 i) s = .next { s with
      status := .ok, dout := .rat 0, ph := { s.ph with q := s.ph.q.set i s.din } } ∧
    exec (.apfSetp 2#2 i) s = .next { s with
      status := .ok, dout := .rat 0, ph := { s.ph with boost := s.ph.boost.set i s.din } }

/-- Rules R145, R147, R148. `APF.GETP`, `APF.GETG` and `APF.GETS` complete on an initialised phaser (and a legal
channel): they answer the register named and change nothing else. -/
def Obligations.ApfReadsComplete : Prop :=
  ∀ i s, s.ph.init = true →
    exec (.apfGetp 0#2 i) s = .next { s with status := .ok, dout := s.ph.fc.get i } ∧
    exec (.apfGetp 1#2 i) s = .next { s with status := .ok, dout := s.ph.q.get i } ∧
    exec (.apfGetp 2#2 i) s = .next { s with status := .ok, dout := s.ph.boost.get i } ∧
    exec (.apfGetg i) s = .next { s with status := .ok, dout := s.ph.d0.get i } ∧
    ∀ ch : BitVec 8, ch.toNat < s.ph.nch →
      exec (.apfGets ch i) s = .next { s with status := .ok, dout := (s.ph.s.get i).at ch.toNat }

/-- Rule R146. `APF.PROC` completes on an initialised phaser and a legal channel: it answers g·x + S and stores
x − g·y in the one stage's state of the one channel. -/
def Obligations.ApfProcCompletes : Prop :=
  ∀ ch i s, s.num = .real → s.ph.init = true → ch.toNat < s.ph.nch → ∃ t,
    exec (.apfProc ch i) s = .next t ∧
    (let g := (s.ph.d0.get i).val
     t.dout.val = g * s.din.val + ((s.ph.s.get i).at ch.toNat).val ∧
      ((t.ph.s.get i).at ch.toNat).val = s.din.val - g * t.dout.val) ∧
    (∀ j c, (j ≠ i ∨ c ≠ ch.toNat) → (t.ph.s.get j).at c = (s.ph.s.get j).at c) ∧
    t = { s with status := .ok, dout := t.dout, ph := { s.ph with s := t.ph.s } }

/-! ## The phaser -/

/-- Rules R59, R160. `PH.RESET` with legal arguments completes: the rate and the channel count are latched,
channels below n are zeroed and the others kept, every stage is clamped and retuned against the new rate,
and `PH_INIT` is set. `CLAMP` is set exactly when a stored frequency lies outside the new range: rules R160
and R250 say so where the table of rule R59 keeps `ESTAT`, and the model follows the first two (the model's
choice, assumption log entry 16). -/
def Obligations.PhResetCompletes : Prop :=
  ∀ n s, s.num = .real → s.din.Within s.cfg.p.fsMin s.cfg.p.fsMax → 1 ≤ n.toNat →
    n.toNat ≤ s.cfg.p.nchMax →
    let lo := s.cfg.p.fcLo.val
    let hi := s.cfg.p.fcHiFrac.val * s.din.val
    let old := fun i => (s.ph.fc.get i).val
    ∃ t, exec (.phReset n) s = .next t ∧
      (∀ c, t.ph.phase.at c = if c < n.toNat then .rat 0 else s.ph.phase.at c) ∧
      (∀ i c, (t.ph.s.get i).at c = if c < n.toNat then .rat 0 else (s.ph.s.get i).at c) ∧
      (∀ i, (t.ph.fc.get i).val = Spec.clamp (old i) lo hi ∧
        (t.ph.d0.get i).val = Spec.apfCoef (t.ph.fc.get i).val s.din.val) ∧
      ((∀ i, lo ≤ old i ∧ old i ≤ hi) → t.estat = s.estat) ∧
      ((∃ i, old i < lo ∨ hi < old i) → t.estat = s.estat ||| 0x20#7) ∧
      t = { s with
        status := .ok, dout := .rat 0, estat := t.estat
        ph := { s.ph with
          fs := s.din, nch := n.toNat, init := true
          phase := t.ph.phase, s := t.ph.s, fc := t.ph.fc, d0 := t.ph.d0 } }

/-- Rules R27, R28, R161. `PH.SETP` completes for every register that can be written, with any operand, a bit 0
or 1, or a waveform 0 to 3: the register takes the value, a real one clamped to its range with `CLAMP` set
exactly when `DIN` lies outside it; nothing else changes. -/
def Obligations.PhSetpCompletes : Prop :=
  ∀ s : State,
    (s.num = .real →
      let hi := s.cfg.p.rateHi.val
      ∃ v : NumT, v.val = Spec.clamp s.din.val 0 hi ∧
        exec (.phSetp 0#8 0x00#8) s = .next { s with
          status := .ok, dout := .rat 0
          estat := if s.din.val < 0 ∨ hi < s.din.val then s.estat ||| 0x20#7 else s.estat
          ph := { s.ph with rate := v } }) ∧
    (s.num = .real → ∃ v : NumT, v.val = Spec.clamp s.din.val 0 100 ∧
      (let flags := if s.din.val < 0 ∨ 100 < s.din.val then s.estat ||| 0x20#7 else s.estat
       exec (.phSetp 0#8 0x01#8) s = .next { s with
          status := .ok, dout := .rat 0, estat := flags, ph := { s.ph with depth := v } } ∧
       exec (.phSetp 0#8 0x02#8) s = .next { s with
          status := .ok, dout := .rat 0, estat := flags, ph := { s.ph with intensity := v } })) ∧
    (∀ ival : BitVec 8, ival.toNat ≤ 1 →
      exec (.phSetp ival 0x03#8) s = .next { s with
        status := .ok, dout := .rat 0, ph := { s.ph with quad := decide (ival.toNat = 1) } } ∧
      exec (.phSetp ival 0x04#8) s = .next { s with
        status := .ok, dout := .rat 0, ph := { s.ph with fbsw := decide (ival.toNat = 1) } }) ∧
    ∀ (ival : BitVec 8) w, ival.toNat = waveCode w →
      exec (.phSetp ival 0x05#8) s = .next { s with
        status := .ok, dout := .rat 0, ph := { s.ph with wave := w } }

/-- Rule R11. The clamp of the parameter registers is the clamp of real numbers, and it moves a value (which
`CLAMP` records) exactly when the value lies outside the two bounds. -/
def Obligations.ClampFollowsReals : Prop :=
  ∀ x lo hi : NumT, (Num.real.clamp x lo hi).val = Spec.clamp x.val lo.val hi.val ∧
    (Num.real.clamp x lo hi ≠ x ↔ x.val < lo.val ∨ hi.val < x.val)

/-- Rules R163 to R165, steps 1 to 3. `PH.PROC` completes on an initialised phaser and a legal channel: the
phase advances, m = (depth/100)·(2·v − 1), every stage is retuned to its clamped target, `CLAMP` is set if
a target lies outside the range, and only the phase and stage states of the one channel, the tuning and the
two information flags are written. -/
def Obligations.PhProcTunesStages : Prop :=
  ∀ ch s, s.num = .real → s.ph.init = true → ch.toNat < s.ph.nch → ∃ (t : State) (p : NumT) (m : ℝ),
    let lo := s.cfg.p.fcLo.val
    let hi := s.cfg.p.fcHiFrac.val * s.ph.fs.val
    let target := fun i => (s.cfg.p.fmin.get i).val +
      (m + 1) / 2 * ((s.cfg.p.fmax.get i).val - (s.cfg.p.fmin.get i).val)
    exec (.phProc ch) s = .next t ∧
    p.val = Int.fract ((s.ph.phase.at ch.toNat).val + s.ph.rate.val / s.ph.fs.val) ∧
    m = s.ph.depth.val / 100 *
      (2 * Spec.render s.ph.wave (if s.ph.quad then Int.fract (p.val + 0.25) else p.val) - 1) ∧
    (∀ i, (t.ph.fc.get i).val = Spec.clamp (target i) lo hi ∧
      (t.ph.d0.get i).val = Spec.apfCoef (t.ph.fc.get i).val s.ph.fs.val) ∧
    (t.estat.getLsbD 5 = true ↔
      s.estat.getLsbD 5 = true ∨ ∃ i, target i < lo ∨ hi < target i) ∧
    t.estat &&& 0x1F#7 = s.estat &&& 0x1F#7 ∧
    (∀ c, t.ph.phase.at c = if c = ch.toNat then p else s.ph.phase.at c) ∧
    (∀ i c, c ≠ ch.toNat → (t.ph.s.get i).at c = (s.ph.s.get i).at c) ∧
    t = { s with
      status := .ok, dout := t.dout, estat := t.estat
      ph := { s.ph with phase := t.ph.phase, fc := t.ph.fc, d0 := t.ph.d0, s := t.ph.s } }

/-- Rule R163, steps 4 to 9. With the coefficients it has just set, `PH.PROC` forms the gammas, the
denominator (clamped if near 0, which `DENCLAMP` records), the feedback sum from the old stage states, the
cascade input, the four stage outputs and new states, and the mix. -/
def Obligations.PhProcMixesCascade : Prop :=
  ∀ ch s, s.num = .real → s.ph.init = true → ch.toNat < s.ph.nch → ∃ t,
    exec (.phProc ch) s = .next t ∧
    (let g := fun i => (t.ph.d0.get i).val
     let st := fun i => ((s.ph.s.get i).at ch.toNat).val
     let st' := fun i => ((t.ph.s.get i).at ch.toNat).val
     let x := s.din.val
     let k := s.ph.intensity.val / 100
     let gamma1 := g .s3
     let gamma2 := g .s2 * gamma1
     let gamma3 := g .s1 * gamma2
     let gamma4 := g .s0 * gamma3
     let den := 1 + k * gamma4
     let sn := if s.ph.fbsw then gamma3 * st .s0 + gamma2 * st .s1
       else gamma3 * st .s0 + gamma2 * st .s1 + gamma1 * st .s2 + st .s3
     let u := 1 / Spec.clampDen s.cfg.p.epsDen.val den * (x + k * sn)
     let y0 := g .s0 * u + st .s0
     let y1 := g .s1 * y0 + st .s1
     let y2 := g .s2 * y1 + st .s2
     let y3 := g .s3 * y2 + st .s3
     (t.estat.getLsbD 6 = true ↔ s.estat.getLsbD 6 = true ∨ |den| < s.cfg.p.epsDen.val) ∧
      st' .s0 = u - g .s0 * y0 ∧ st' .s1 = y0 - g .s1 * y1 ∧ st' .s2 = y1 - g .s2 * y2 ∧
      st' .s3 = y2 - g .s3 * y3 ∧ t.dout.val = s.cfg.p.mixDry.val * x + s.cfg.p.mixWet.val * y3)

/-- Rule R163 step 5, rule R169. The denominator is kept at least `EPS_DEN` from zero, a denominator of 0
counting as positive, and left alone otherwise; after the clamp it is not 0. -/
def Obligations.DenominatorClamp : Prop :=
  ∀ (p : Params) (d : NumT), p.num = .real → p.legal = true →
    ((clampDen p d).getD d).val = Spec.clampDen p.epsDen.val d.val ∧
    (clampDen p d ≠ none ↔ |d.val| < p.epsDen.val) ∧ p.epsDen.val ≤ |((clampDen p d).getD d).val|

/-- Rule R163. What `PH.PROC` does depends on no tuning that another call left behind: any stored
frequencies and coefficients give the same next state. The spec marks this (rule R285) as derived. -/
def Obligations.PhProcIgnoresOldTuning : Prop :=
  ∀ ch s (f g : Four NumT), s.ph.init = true → ch.toNat < s.ph.nch →
    exec (.phProc ch) { s with ph := { s.ph with fc := f, d0 := g } } = exec (.phProc ch) s

/-- Rule R163. With intensity 0 the cascade input is the sample itself and the denominator is never
clamped, whatever the coefficients and the feedback switch. The spec marks this (rule R170 (a)) as
derived. -/
def Obligations.PhProcZeroIntensity : Prop :=
  ∀ ch s, s.num = .real → s.ph.init = true → ch.toNat < s.ph.nch → s.ph.intensity.val = 0 → ∃ t,
    exec (.phProc ch) s = .next t ∧ t.estat.getLsbD 6 = s.estat.getLsbD 6 ∧
    (let g := fun i => (t.ph.d0.get i).val
     let st := fun i => ((s.ph.s.get i).at ch.toNat).val
     let x := s.din.val
     t.dout.val = s.cfg.p.mixDry.val * x + s.cfg.p.mixWet.val *
        (g .s3 * (g .s2 * (g .s1 * (g .s0 * x + st .s0) + st .s1) + st .s2) + st .s3) ∧
      ((t.ph.s.get .s0).at ch.toNat).val = x - g .s0 * (g .s0 * x + st .s0))

/-- Rules R143, R163. The last stage's output splits into gamma4·u and the weighted sum of the stage
states, which is the feedback sum with all four states, and the first two of its terms with `PH_FBSW` set.
The spec marks this (rule R167) as derived. -/
def Obligations.CascadeOutputSplits : Prop :=
  ∀ (s : State) c (u : NumT), s.num = .real →
    let g := fun i => (s.ph.d0.get i).val
    let st := fun i => ((s.ph.s.get i).at c).val
    let two := g .s1 * (g .s2 * g .s3) * st .s0 + g .s2 * g .s3 * st .s1
    (s.cascadeOut c u).s3.val =
        g .s0 * (g .s1 * (g .s2 * g .s3)) * u.val + (two + g .s3 * st .s2 + st .s3) ∧
      (s.feedbackSum c).val = if s.ph.fbsw then two else two + g .s3 * st .s2 + st .s3

/-! ## The flanger -/

/-- Rules R59, R200, R204. `FL.RESET` with legal arguments completes: the rate, the channel count and the length
L = ceil((`BASE_DELAY` + `SWEEP_MAX`)·fs) + `MARGIN` are latched, the first L words and the per-channel state of
channels below n are zeroed and the rest kept, and `FL_INIT` is set. -/
def Obligations.FlResetCompletes : Prop :=
  ∀ n s, s.num = .real → s.din.Within s.cfg.p.fsMin s.cfg.p.fsMax → 1 ≤ n.toNat →
    n.toNat ≤ s.cfg.p.nchMax →
    let len := ⌈(s.cfg.p.baseDelay.val + s.cfg.p.sweepMax.val) * s.din.val⌉ + (s.cfg.p.margin : ℤ)
    len ≤ s.cfg.p.bufCap → ∃ t, exec (.flReset n) s = .next t ∧
      (t.fl.len : ℤ) = len ∧
      (∀ c, t.fl.phase.at c = if c < n.toNat then .rat 0 else s.fl.phase.at c) ∧
      (∀ c, t.flWpos c = if c < n.toNat then 0 else s.flWpos c) ∧
      (∀ c, t.fl.tz.at c = if c < n.toNat then .rat 0 else s.fl.tz.at c) ∧
      (∀ c a, t.fl.buf.read c a =
        if c < n.toNat ∧ a < t.fl.len then .rat 0 else s.fl.buf.read c a) ∧
      t = { s with
        status := .ok, dout := .rat 0
        fl := { s.fl with
          fs := s.din, nch := n.toNat, init := true, len := t.fl.len
          phase := t.fl.phase, wpos := t.fl.wpos, tz := t.fl.tz, buf := t.fl.buf } }

/-- Rules R160, R200. Issuing the same successful engine reset twice in a row leaves what issuing it once
leaves, for every rate it accepts (`PH.RESET`: under `NUM = REAL`). The spec marks this (rule R272) as
derived. -/
def Obligations.ResetTwiceIsOnce : Prop :=
  (∀ n s t, s.num = .real → exec (.phReset n) s = .next t → t.status = .ok →
    exec (.phReset n) t = .next t) ∧
  ∀ n s t, exec (.flReset n) s = .next t → t.status = .ok → ∃ u, exec (.flReset n) t = .next u ∧
    (∀ c a, u.fl.buf.read c a = t.fl.buf.read c a) ∧ u = { t with fl := { t.fl with buf := u.fl.buf } }

/-- Rules R50, R201. `FL.SETP` completes for every register that can be written, with any operand or a bit
0 or 1: the register takes the value, a real one clamped to its range with `CLAMP` set exactly when `DIN`
lies outside it; nothing else changes. -/
def Obligations.FlSetpCompletes : Prop :=
  ∀ s : State,
    (s.num = .real →
      let hi := s.cfg.p.rateHi.val
      ∃ v : NumT, v.val = Spec.clamp s.din.val 0 hi ∧
        exec (.flSetp 0#8 0x00#8) s = .next { s with
          status := .ok, dout := .rat 0
          estat := if s.din.val < 0 ∨ hi < s.din.val then s.estat ||| 0x20#7 else s.estat
          fl := { s.fl with rate := v } }) ∧
    (s.num = .real → ∃ v : NumT, v.val = Spec.clamp s.din.val 0 100 ∧
      exec (.flSetp 0#8 0x01#8) s = .next { s with
        status := .ok, dout := .rat 0
        estat := if s.din.val < 0 ∨ 100 < s.din.val then s.estat ||| 0x20#7 else s.estat
        fl := { s.fl with depth := v } }) ∧
    (s.num = .real → ∃ v : NumT, v.val = Spec.clamp s.din.val 0 1 ∧
      exec (.flSetp 0#8 0x02#8) s = .next { s with
        status := .ok, dout := .rat 0
        estat := if s.din.val < 0 ∨ 1 < s.din.val then s.estat ||| 0x20#7 else s.estat
        fl := { s.fl with fb := v } }) ∧
    ∀ ival : BitVec 8, ival.toNat ≤ 1 →
      exec (.flSetp ival 0x03#8) s = .next { s with
        status := .ok, dout := .rat 0, fl := { s.fl with inv := decide (ival.toNat = 1) } } ∧
      exec (.flSetp ival 0x04#8) s = .next { s with
        status := .ok, dout := .rat 0, fl := { s.fl with toneEn := decide (ival.toNat = 1) } }

/-- Rules R27, R50, R162, R202. `PH.GETP` and `FL.GETP` complete for every register of their tables, initialised or
not: they answer the register, bits and integers as numbers, and change nothing else. -/
def Obligations.GetpCompletes : Prop :=
  ∀ s : State,
    (∀ pid v, (pid, v) ∈ [(0x00#8, s.ph.rate), (0x01#8, s.ph.depth), (0x02#8, s.ph.intensity),
        (0x03#8, .rat (if s.ph.quad then 1 else 0)), (0x04#8, .rat (if s.ph.fbsw then 1 else 0)),
        (0x05#8, .rat (waveCode s.ph.wave)), (0x10#8, s.ph.fs), (0x11#8, .rat s.ph.nch),
        (0x12#8, NumT.rat (if s.ph.init then 1 else 0))] →
      exec (.phGetp pid) s = .next { s with status := .ok, dout := v }) ∧
    ∀ pid v, (pid, v) ∈ [(0x00#8, s.fl.rate), (0x01#8, s.fl.depth), (0x02#8, s.fl.fb),
        (0x03#8, .rat (if s.fl.inv then 1 else 0)), (0x04#8, .rat (if s.fl.toneEn then 1 else 0)),
        (0x10#8, s.fl.fs), (0x11#8, .rat s.fl.nch), (0x12#8, .rat (if s.fl.init then 1 else 0)),
        (0x13#8, NumT.rat s.fl.len)] →
      exec (.flGetp pid) s = .next { s with status := .ok, dout := v }

/-- Rules R203, R205 to R207. `FL.PROC` completes on an initialised flanger and a legal channel: the phase
advances, the delay follows it, v is read at that delay before the write, x + v·`FL_FB` is written at the
write position, which advances and wraps, and the answer is x + v·depth·sign, passed through the tone filter
if it is enabled; nothing else changes. -/
def Obligations.FlProcCompletes : Prop :=
  ∀ ch s, s.num = .real → s.fl.init = true → ch.toNat < s.fl.nch → ∃ (t : State) (p : NumT),
    exec (.flProc ch) s = .next t ∧
    p.val = Int.fract ((s.fl.phase.at ch.toNat).val + s.fl.rate.val / s.fl.fs.val) ∧
    (let d := (s.cfg.p.baseDelay.val + s.fl.depth.val / 100 * s.cfg.p.sweepMax.val *
       Spec.render s.cfg.p.flWave p.val) * s.fl.fs.val
     let w := s.flWpos ch.toNat
     let x := s.din.val
     let v := s.readAt ch.toNat d
     let out := x + v * (s.fl.depth.val / 100) * (if s.fl.inv then -1 else 1)
     let lp := Spec.toneA s.cfg.p s.fl.fs.val * out + (s.fl.tz.at ch.toNat).val
     (t.fl.buf.read ch.toNat w).val = x + v * s.fl.fb.val ∧
      (∀ c a, (c ≠ ch.toNat ∨ a ≠ w) → t.fl.buf.read c a = s.fl.buf.read c a) ∧
      (∀ c, t.flWpos c = if c = ch.toNat then (w + 1) % s.fl.len else s.flWpos c) ∧
      (∀ c, t.fl.phase.at c = if c = ch.toNat then p else s.fl.phase.at c) ∧
      (s.fl.toneEn = false → t.dout.val = out ∧ t.fl.tz = s.fl.tz) ∧
      (s.fl.toneEn = true → t.dout.val = out + Spec.toneC s.cfg.p * lp ∧
        (t.fl.tz.at ch.toNat).val =
          Spec.toneA s.cfg.p s.fl.fs.val * out + Spec.toneG s.cfg.p s.fl.fs.val * lp ∧
        ∀ c, c ≠ ch.toNat → t.fl.tz.at c = s.fl.tz.at c)) ∧
    t = { s with
      status := .ok, dout := t.dout
      fl := { s.fl with phase := t.fl.phase, buf := t.fl.buf, wpos := t.fl.wpos, tz := t.fl.tz } }

/-- Rule R203. With depth 0 and the tone filter off, `FL.PROC` answers its input exactly, for every
feedback, rate, inversion and buffer content. The spec marks this (rule R208 (a)) as derived. -/
def Obligations.FlProcZeroDepthPassthrough : Prop :=
  ∀ ch s, s.num = .real → s.fl.init = true → ch.toNat < s.fl.nch → s.fl.depth.val = 0 →
    s.fl.toneEn = false → ∃ t,
    exec (.flProc ch) s = .next t ∧ t.status = .ok ∧ t.dout.val = s.din.val

/-- Rule R203. A channel whose words are all 0 stays silent under zero input: the answer is 0 and every
word stays 0, for every rate, depth, feedback and inversion. The spec marks this (rule R208 (b)) as
derived. -/
def Obligations.FlProcSilence : Prop :=
  ∀ ch s, s.num = .real → s.fl.init = true → ch.toNat < s.fl.nch → 0 < s.fl.len →
    s.fl.toneEn = false → s.din.val = 0 → (∀ a < s.fl.len, (s.fl.buf.read ch.toNat a).val = 0) → ∃ t,
    exec (.flProc ch) s = .next t ∧ t.dout.val = 0 ∧
      ∀ a < s.fl.len, (t.fl.buf.read ch.toNat a).val = 0

/-- Rules R6, R200, R203. In an initialised flanger with legal registers, for every oscillator phase in
[0, 1), the delay is more than 2 samples and at most `FL_LEN` − `MARGIN`. The spec marks this (rule R204) as
derived. -/
def Obligations.FlProcDelayBounds : Prop :=
  ∀ (s : State) (p : NumT), s.num = .real → s.LegalRegisters → s.Geometry → s.fl.init = true →
    0 ≤ p.val → p.val < 1 →
    2 < (s.flDelay p).val ∧ (s.flDelay p).val ≤ (s.fl.len : ℝ) - s.cfg.p.margin

/-- Rules R181, R182. For every delay of more than 2 samples and at most L − 3, none of the four taps is the
write position, and the four are distinct. The spec marks this (rules R182, R189, R204) as derived. -/
def Obligations.TapsAvoidWritePosition : Prop :=
  ∀ (w len : Nat) (d : NumT), w < len → 2 < d.val → d.val ≤ (len : ℝ) - 3 →
    let t := dlTaps .real (dlReadpos .real w d len) len
    t.i0 ≠ w ∧ t.i1 ≠ w ∧ t.i2 ≠ w ∧ t.i3 ≠ w ∧ [t.i0, t.i1, t.i2, t.i3].Nodup

/-! ## The delay line and the tone filter -/

/-- Rule R183. The interpolation is the spec's cubic, which gives s1 at f = 0, tends to s2 at f = 1 and
reproduces straight lines. The spec marks the last two (rule R188) as derived. -/
def Obligations.CubicInterpolates : Prop :=
  (∀ s0 s1 s2 s3 f : NumT,
    (cubic .real s0 s1 s2 s3 f).val = Spec.cubic s0.val s1.val s2.val s3.val f.val) ∧
    ∀ a b c d f : ℝ, Spec.cubic a b c d 0 = b ∧ Spec.cubic a b c d 1 = c ∧
      Spec.cubic a (a + b) (a + 2 * b) (a + 3 * b) f = a + b + b * f

/-- Rules R181, R182, R184. `dl_read` is the cubic of the four words around the read position: r = (w − d + L)
mod L, in [0, L), the words at floor(r) − 1, floor(r), floor(r) + 1, floor(r) + 2, all modulo L, and the
fraction of r, for every delay. -/
def Obligations.DelayReadFollowsTaps : Prop :=
  ∀ (s : State) c (d : NumT), s.num = .real → 0 < s.fl.len →
    let len := s.fl.len
    let x := (s.flWpos c : ℝ) - d.val + len
    let r := x - len * ⌊x / len⌋
    let word := fun k : ℤ => (s.fl.buf.read c ((⌊r⌋ + k) % len).toNat).val
    0 ≤ r ∧ r < len ∧
      (s.dlRead c d).val = Spec.cubic (word (-1)) (word 0) (word 1) (word 2) (Int.fract r)

/-- Rules R181, R182, R183. A read at a whole delay of D samples gives exactly the word D places behind
the write position, the places before the buffer's start wrapping to its end, for every whole D. -/
def Obligations.WholeDelayReadsStoredWord : Prop :=
  ∀ (s : State) c (d : NumT) (D : ℤ), s.num = .real → 0 < s.fl.len → d.val = D →
    (s.dlRead c d).val = (s.fl.buf.read c (((s.flWpos c : ℤ) - D) % s.fl.len).toNat).val

/-- Rules R185, R186, R187. `DL.READ`, `DL.GETW` and, for an address below `FL_LEN`, `DL.PEEK` complete on an
initialised flanger and a legal channel: they answer the interpolated value, the write position and the word,
and change nothing else. -/
def Obligations.DelayProbesComplete : Prop :=
  ∀ ch s, s.fl.init = true → ch.toNat < s.fl.nch →
    exec (.dlRead ch) s = .next { s with status := .ok, dout := s.dlRead ch.toNat s.din } ∧
    exec (.dlGetw ch) s = .next { s with status := .ok, dout := .rat (s.flWpos ch.toNat) } ∧
    ∀ addr : BitVec 16, addr.toNat < s.fl.len →
      exec (.dlPeek ch addr) s = .next { s with
        status := .ok, dout := s.fl.buf.read ch.toNat addr.toNat }

/-- Rules R210 to R213. `TONE.PROC` and `TONE.GETS` complete on an initialised flanger and a legal channel: the
first answers x + `TONE_C`·lp with lp = `TONE_A`·x + `TZ` and stores `TONE_A`·x + `TONE_G`·lp in the one channel's
state, the second answers that state; nothing else changes. -/
def Obligations.ToneCommandsComplete : Prop :=
  ∀ ch s, s.fl.init = true → ch.toNat < s.fl.nch →
    exec (.toneGets ch) s = .next { s with status := .ok, dout := s.fl.tz.at ch.toNat } ∧
    (s.num = .real → ∃ t, exec (.toneProc ch) s = .next t ∧
      (let x := s.din.val
       let lp := Spec.toneA s.cfg.p s.fl.fs.val * x + (s.fl.tz.at ch.toNat).val
       t.dout.val = x + Spec.toneC s.cfg.p * lp ∧
        (t.fl.tz.at ch.toNat).val =
          Spec.toneA s.cfg.p s.fl.fs.val * x + Spec.toneG s.cfg.p s.fl.fs.val * lp) ∧
      (∀ c, c ≠ ch.toNat → t.fl.tz.at c = s.fl.tz.at c) ∧
      t = { s with status := .ok, dout := t.dout, fl := { s.fl with tz := t.fl.tz } })

/-- Rules R6, R210, R213. For every rate of at least `FS_MIN` the coefficients the machine uses are the spec's
formulas and the tone filter is stable: delta > 0 and −1 < `TONE_G` < 1, and its low-pass has gain 1 at 0 Hz.
The spec marks the gain (rule R214) as derived. -/
def Obligations.ToneFilterStable : Prop :=
  ∀ (p : Params) (fs : NumT), p.num = .real → p.legal = true → p.fsMin.val ≤ fs.val →
    let mu := (10 : ℝ) ^ (p.toneGainDb.val / 20)
    (toneDelta p fs).val = 4 / (1 + mu) * Real.tan (2 * Real.pi * p.toneFc.val / fs.val / 2) ∧
      (toneG p fs).val = (1 - (toneDelta p fs).val) / (1 + (toneDelta p fs).val) ∧
      (toneA p fs).val = (1 - (toneG p fs).val) / 2 ∧ (toneC p).val = mu - 1 ∧
      0 < (toneDelta p fs).val ∧ -1 < (toneG p fs).val ∧ (toneG p fs).val < 1 ∧
      2 * (toneA p fs).val / (1 - (toneG p fs).val) = 1
end

