-- ==== Sys2Proof/Laws/Decode.lean ====
section
/-! SUPPORT. The words and fields of `Decode.lean`: a word is its four bytes, and each field packed is the
field unpacked. -/

namespace Sys2Proof

/-! ## Bytes -/

/-- The number a packed word is. -/
theorem packWord_toNat (a b c d : BitVec 8) :
    (packWord a b c d).toNat = a.toNat * 2 ^ 24 + b.toNat * 2 ^ 16 + c.toNat * 2 ^ 8 + d.toNat := by
  have h : (packWord a b c d).toNat = ((a ++ b) ++ (c ++ d)).toNat := rfl
  have ha := a.isLt
  have hb := b.isLt
  have hc := c.isLt
  have hd := d.isLt
  rw [h]
  simp only [BitVec.toNat_append, Nat.shiftLeft_eq]
  rw [← Nat.shiftLeft_eq, ← Nat.shiftLeft_eq, ← Nat.shiftLeft_eq, ← Nat.shiftLeft_add_eq_or_of_lt hb,
    ← Nat.shiftLeft_add_eq_or_of_lt hd, ← Nat.shiftLeft_add_eq_or_of_lt (by simp only [Nat.shiftLeft_eq]; omega)]
  simp only [Nat.shiftLeft_eq]
  omega

/-- The bytes of a packed word. -/
@[simp] theorem byte3_packWord (a b c d : BitVec 8) : byte3 (packWord a b c d) = a := by
  apply BitVec.eq_of_toNat_eq
  simp only [byte3, BitVec.extractLsb'_toNat, packWord_toNat, Nat.shiftRight_eq_div_pow]
  omega

@[simp] theorem byte2_packWord (a b c d : BitVec 8) : byte2 (packWord a b c d) = b := by
  apply BitVec.eq_of_toNat_eq
  simp only [byte2, BitVec.extractLsb'_toNat, packWord_toNat, Nat.shiftRight_eq_div_pow]
  omega

@[simp] theorem byte1_packWord (a b c d : BitVec 8) : byte1 (packWord a b c d) = c := by
  apply BitVec.eq_of_toNat_eq
  simp only [byte1, BitVec.extractLsb'_toNat, packWord_toNat, Nat.shiftRight_eq_div_pow]
  omega

@[simp] theorem byte0_packWord (a b c d : BitVec 8) : byte0 (packWord a b c d) = d := by
  apply BitVec.eq_of_toNat_eq
  simp only [byte0, BitVec.extractLsb'_toNat, packWord_toNat, Nat.shiftRight_eq_div_pow]
  omega

/-- A word is its four bytes. -/
theorem packWord_bytes (w : BitVec 32) : packWord (byte3 w) (byte2 w) (byte1 w) (byte0 w) = w := by
  apply BitVec.eq_of_toNat_eq
  have := w.isLt
  simp only [packWord_toNat, byte3, byte2, byte1, byte0, BitVec.extractLsb'_toNat, Nat.shiftRight_eq_div_pow]
  omega

theorem decode_packWord (a b c d : BitVec 8) : decode (packWord a b c d) = decodeBytes a b c d := by simp [decode]

/-- A row answers its command exactly when its must-be-zero bits are zero. -/
theorem row_eq_ok {m : Bool} {i j : Instr} : row m i = .ok j ↔ m = true ∧ i = j := by
  
  unfold row
  split <;> simp_all

/-! ## Fields -/

@[simp] theorem Stage.ofBits_toBits (s : Stage) : Stage.ofBits s.toBits = s := by cases s <;> rfl

@[simp] theorem Stage.toBits_ofBits (b : BitVec 2) : (Stage.ofBits b).toBits = b := by revert b; decide

@[simp] theorem Engine.ofBit_toBit (e : Engine) : Engine.ofBit e.toBit = e := by cases e <;> rfl

@[simp] theorem Engine.toBit_ofBit (b : Bool) : (Engine.ofBit b).toBit = b := by cases b <;> rfl

@[simp] theorem fselByte_low (f : BitVec 2) : (fselByte f).extractLsb' 0 2 = f := by revert f; decide

@[simp] theorem fselByte_high (f : BitVec 2) : (fselByte f).extractLsb' 2 6 = 0#6 := by revert f; decide

@[simp] theorem stageByte_low (st : Stage) : Stage.ofBits ((stageByte st).extractLsb' 0 2) = st := by
  cases st <;> decide

@[simp] theorem stageByte_high (st : Stage) : (stageByte st).extractLsb' 2 6 = 0#6 := by
  cases st <;> decide

/-- The fields of an oscillator command's byte. -/
theorem lfoByte_fields (wave : BitVec 3) (xinc quad : Bool) (eng : Engine) :
    (lfoByte wave xinc quad eng).extractLsb' 4 3 = wave ∧ (lfoByte wave xinc quad eng).getLsbD 2 = xinc ∧
      (lfoByte wave xinc quad eng).getLsbD 1 = quad ∧
      Engine.ofBit ((lfoByte wave xinc quad eng).getLsbD 0) = eng := by
  cases xinc <;> cases quad <;> cases eng <;> revert wave <;> decide

end Sys2Proof
end

