-- ==== Sys2Proof/Laws/Enclosure.lean ====
section
/-! SUPPORT. The operations of `Machine/Numerics.lean` for `NUM = REAL` against the real numbers: the folding
of rational results changes no value, every enclosure holds the number it is computed for, and `lt`, `le` and
`floor` are those of the real numbers for all values. -/

namespace Sys2Proof

theorem NumT.rat?_some {a : NumT} {q : Rat} (h : a.rat? = some q) : a = .rat q := by
  cases a <;> simp_all [NumT.rat?]

@[simp] theorem NumT.rat?_rat (q : Rat) : (NumT.rat q).rat? = some q := rfl

@[simp] theorem NumT.val_rat (q : Rat) : (NumT.rat q).val = (q : ℝ) := rfl

/-! ## The record's operations denote the operations on the reals -/

@[simp] theorem NumT.val_add (a b : NumT) : (a.add b).val = a.val + b.val := by
  unfold NumT.add
  split
  · rename_i p q hp hq
    rw [NumT.rat?_some hp, NumT.rat?_some hq]
    simp
  · rename_i p hp hq
    rw [NumT.rat?_some hp]
    split <;> simp_all [NumT.val]
  · rename_i q hp hq
    rw [NumT.rat?_some hq]
    split <;> simp_all [NumT.val]
  · rfl

@[simp] theorem NumT.val_sub (a b : NumT) : (a.sub b).val = a.val - b.val := by
  unfold NumT.sub
  split
  · rename_i p q hp hq
    rw [NumT.rat?_some hp, NumT.rat?_some hq]
    simp
  · rename_i q hp hq
    rw [NumT.rat?_some hq]
    split <;> simp_all [NumT.val]
  · rfl

@[simp] theorem NumT.val_mul (a b : NumT) : (a.mul b).val = a.val * b.val := by
  unfold NumT.mul
  split
  · rename_i p q hp hq
    rw [NumT.rat?_some hp, NumT.rat?_some hq]
    simp
  · rename_i p hp hq
    rw [NumT.rat?_some hp]
    split
    · simp_all
    · split <;> simp_all [NumT.val]
  · rename_i q hp hq
    rw [NumT.rat?_some hq]
    split
    · simp_all
    · split <;> simp_all [NumT.val]
  · rfl

@[simp] theorem NumT.val_div (a b : NumT) : (a.div b).val = a.val / b.val := by
  unfold NumT.div
  split
  · rename_i p q hp hq
    rw [NumT.rat?_some hp, NumT.rat?_some hq]
    simp
  · rename_i p hp hq
    rw [NumT.rat?_some hp]
    split <;> simp_all [NumT.val]
  · rename_i q hp hq
    rw [NumT.rat?_some hq]
    split <;> simp_all [NumT.val]
  · rfl

@[simp] theorem NumT.val_neg (a : NumT) : a.neg.val = -a.val := by
  unfold NumT.neg
  split
  · rename_i p hp
    rw [NumT.rat?_some hp]
    simp
  · rfl

@[simp] theorem NumT.val_ofInt (z : Int) : (NumT.ofInt z).val = (z : ℝ) := by
  simp [NumT.ofInt]

@[simp] theorem NumT.val_zero : NumT.zero.val = 0 := by simp [NumT.zero]

@[simp] theorem NumT.val_one : NumT.one.val = 1 := by simp [NumT.one]

theorem sin_twelfth {k r : Rat} (h : sinTwelfth k = some r) :
    Real.sin (2 * Real.pi * ((k : ℝ) / 12)) = (r : ℝ) := by
  unfold sinTwelfth at h
  have h6 := Real.sin_pi_div_six
  split at h
  · obtain rfl := Option.some.inj h
    simp_all
  split at h
  · obtain rfl := Option.some.inj h
    rename_i hk; subst hk
    rw [show 2 * Real.pi * (((1 : Rat) : ℝ) / 12) = Real.pi / 6 by push_cast; ring, h6]
    norm_num
  split at h
  · obtain rfl := Option.some.inj h
    rename_i hk; subst hk
    rw [show 2 * Real.pi * (((3 : Rat) : ℝ) / 12) = Real.pi / 2 by push_cast; ring, Real.sin_pi_div_two]
    norm_num
  split at h
  · obtain rfl := Option.some.inj h
    rename_i hk; subst hk
    rw [show 2 * Real.pi * (((5 : Rat) : ℝ) / 12) = Real.pi - Real.pi / 6 by push_cast; ring,
      Real.sin_pi_sub, h6]
    norm_num
  split at h
  · obtain rfl := Option.some.inj h
    rename_i hk; subst hk
    rw [show 2 * Real.pi * (((6 : Rat) : ℝ) / 12) = Real.pi by push_cast; ring, Real.sin_pi]
    norm_num
  split at h
  · obtain rfl := Option.some.inj h
    rename_i hk; subst hk
    rw [show 2 * Real.pi * (((7 : Rat) : ℝ) / 12) = Real.pi / 6 + Real.pi by push_cast; ring,
      Real.sin_add_pi, h6]
    norm_num
  split at h
  · obtain rfl := Option.some.inj h
    rename_i hk; subst hk
    rw [show 2 * Real.pi * (((9 : Rat) : ℝ) / 12) = Real.pi / 2 + Real.pi by push_cast; ring,
      Real.sin_add_pi, Real.sin_pi_div_two]
    norm_num
  split at h
  · obtain rfl := Option.some.inj h
    rename_i hk; subst hk
    rw [show 2 * Real.pi * (((11 : Rat) : ℝ) / 12) = (Real.pi - Real.pi / 6) + Real.pi by push_cast; ring,
      Real.sin_add_pi, Real.sin_pi_sub, h6]
    norm_num
  · cases h

theorem tan_quarter {k r : Rat} (h : tanQuarter k = some r) :
    Real.tan (Real.pi * ((k : ℝ) / 4)) = (r : ℝ) := by
  unfold tanQuarter at h
  split at h
  · obtain rfl := Option.some.inj h
    simp_all
  split at h
  · obtain rfl := Option.some.inj h
    rename_i hk; subst hk
    rw [show Real.pi * (((1 : Rat) : ℝ) / 4) = Real.pi / 4 by push_cast; ring, Real.tan_pi_div_four]
    norm_num
  split at h
  · obtain rfl := Option.some.inj h
    rename_i hk; subst hk
    rw [show Real.pi * (((3 : Rat) : ℝ) / 4) = -(Real.pi / 4) + Real.pi by push_cast; ring,
      Real.tan_add_pi, Real.tan_neg, Real.tan_pi_div_four]
    norm_num
  · cases h

@[simp] theorem NumT.val_sin2pi (a : NumT) : a.sin2pi.val = Real.sin (2 * Real.pi * a.val) := by
  unfold NumT.sin2pi
  split
  · rename_i q hq
    rw [NumT.rat?_some hq]
    split
    · rename_i r hr
      rw [NumT.val_rat, ← sin_twelfth hr]
      push_cast
      rw [show 2 * Real.pi * (12 * ((q : ℝ) - (q.floor : ℝ)) / 12)
        = 2 * Real.pi * (q : ℝ) - (q.floor : ℝ) * (2 * Real.pi) by ring, Real.sin_sub_int_mul_two_pi]
      rfl
    · rfl
  · rfl

@[simp] theorem NumT.val_tanpi (a : NumT) : a.tanpi.val = Real.tan (Real.pi * a.val) := by
  unfold NumT.tanpi
  split
  · rename_i q hq
    rw [NumT.rat?_some hq]
    split
    · rename_i r hr
      rw [NumT.val_rat, ← tan_quarter hr]
      push_cast
      rw [show Real.pi * (4 * ((q : ℝ) - (q.floor : ℝ)) / 4)
        = Real.pi * (q : ℝ) - (q.floor : ℝ) * Real.pi by ring, Real.tan_sub_int_mul_pi]
      rfl
    · rfl
  · rfl

@[simp] theorem NumT.val_pow10 (a : NumT) : a.pow10.val = (10 : ℝ) ^ a.val := by
  unfold NumT.pow10
  split
  · rename_i q hq
    rw [NumT.rat?_some hq]
    split
    · rename_i hd
      have hv : ((q : Rat) : ℝ) = (q.num : ℝ) := by
        rw [Rat.cast_def, hd]; simp
      split
      · rename_i hn
        obtain ⟨n, hn⟩ := Int.eq_ofNat_of_zero_le hn
        simp only [NumT.val_rat]
        rw [hv, hn]
        push_cast
        simp
      · rename_i hn
        obtain ⟨n, hn⟩ := Int.eq_ofNat_of_zero_le (show 0 ≤ -q.num by omega)
        have hq' : q.num = -(n : ℤ) := by omega
        simp only [NumT.val_rat]
        rw [hv, hq']
        push_cast
        rw [Real.rpow_neg (by norm_num)]
        simp
    · rfl
  · rfl

/-! ## Enclosures -/

theorem scale_pos : (0 : ℝ) < (scale : ℝ) := by norm_num [scale]

theorem scale_pos_int : (0 : ℤ) < (scale : ℤ) := by norm_num [scale]

/-- Division rounded down does not exceed the quotient. -/
theorem floorDiv_mul_le (a : ℤ) {n : ℤ} (hn : 0 < n) : ((a / n : ℤ) : ℝ) * n ≤ a := by
  exact_mod_cast Int.ediv_mul_le a hn.ne'

/-- Division rounded up is not below the quotient. -/
theorem le_ceilDiv_mul (a : ℤ) {n : ℤ} (hn : 0 < n) : (a : ℝ) ≤ ((-(-a / n) : ℤ) : ℝ) * n := by
  have h := Int.ediv_mul_le (-a) hn.ne'
  have h' : a ≤ (-(-a / n)) * n := by linarith
  exact_mod_cast h'

theorem Ival.has_ofRat (q : Rat) : (Ival.ofRat q).Has q := by
  have hd : (0 : ℤ) < (q.den : ℤ) := by exact_mod_cast q.pos
  have hdr : (0 : ℝ) < (q.den : ℝ) := by exact_mod_cast q.pos
  have h1 := floorDiv_mul_le (q.num * scale) hd
  have h2 := le_ceilDiv_mul (q.num * scale) hd
  have hq : (q : ℝ) * scale * q.den = q.num * scale := by
    rw [Rat.cast_def]
    field_simp
  push_cast at h1 h2
  constructor
  · refine le_of_mul_le_mul_right ?_ hdr
    rw [hq]
    simpa [Ival.ofRat] using h1
  · refine le_of_mul_le_mul_right ?_ hdr
    rw [hq]
    simpa [Ival.ofRat] using h2

theorem Ival.Has.add {i j : Ival} {x y : ℝ} (hx : i.Has x) (hy : j.Has y) : (i.add j).Has (x + y) := by
  obtain ⟨a, b⟩ := hx
  obtain ⟨c, d⟩ := hy
  constructor <;> simp only [Ival.add] <;> push_cast <;> linarith

theorem Ival.Has.neg {i : Ival} {x : ℝ} (hx : i.Has x) : i.neg.Has (-x) := by
  obtain ⟨a, b⟩ := hx
  constructor <;> simp only [Ival.neg] <;> push_cast <;> linarith

theorem Ival.Has.sub {i j : Ival} {x y : ℝ} (hx : i.Has x) (hy : j.Has y) : (i.sub j).Has (x - y) := by
  rw [sub_eq_add_neg]
  exact hx.add hy.neg

/-- A product lies between the least and the greatest corner product. -/
theorem corner_bounds {l h l' h' x y : ℝ} (hx : l ≤ x ∧ x ≤ h) (hy : l' ≤ y ∧ y ≤ h') :
    min (min (l * l') (l * h')) (min (h * l') (h * h')) ≤ x * y ∧
      x * y ≤ max (max (l * l') (l * h')) (max (h * l') (h * h')) := by
  obtain ⟨hx1, hx2⟩ := hx
  obtain ⟨hy1, hy2⟩ := hy
  have line : ∀ a : ℝ, min (a * l') (a * h') ≤ a * y ∧ a * y ≤ max (a * l') (a * h') := by
    intro a
    rcases le_total 0 a with ha | ha
    · exact ⟨min_le_of_left_le (mul_le_mul_of_nonneg_left hy1 ha),
        le_max_of_le_right (mul_le_mul_of_nonneg_left hy2 ha)⟩
    · exact ⟨min_le_of_right_le (mul_le_mul_of_nonpos_left hy2 ha),
        le_max_of_le_left (mul_le_mul_of_nonpos_left hy1 ha)⟩
  rcases le_total 0 y with hy0 | hy0
  · exact ⟨(min_le_left _ _).trans ((line l).1.trans (mul_le_mul_of_nonneg_right hx1 hy0)),
      (mul_le_mul_of_nonneg_right hx2 hy0).trans ((line h).2.trans (le_max_right _ _))⟩
  · exact ⟨(min_le_right _ _).trans ((line h).1.trans (mul_le_mul_of_nonpos_right hx2 hy0)),
      (mul_le_mul_of_nonpos_right hx1 hy0).trans ((line l).2.trans (le_max_left _ _))⟩

theorem Ival.Has.mul {i j : Ival} {x y : ℝ} (hx : i.Has x) (hy : j.Has y) : (i.mul j).Has (x * y) := by
  have hb := corner_bounds hx hy
  have hs := scale_pos
  have h1 := floorDiv_mul_le (min (min (i.lo * j.lo) (i.lo * j.hi)) (min (i.hi * j.lo) (i.hi * j.hi)))
    scale_pos_int
  have h2 := le_ceilDiv_mul (max (max (i.lo * j.lo) (i.lo * j.hi)) (max (i.hi * j.lo) (i.hi * j.hi)))
    scale_pos_int
  push_cast at h1 h2
  constructor
  · refine le_of_mul_le_mul_right (le_trans ?_ (hb.1.trans_eq (by ring))) hs
    simpa [Ival.mul] using h1
  · refine le_of_mul_le_mul_right (le_trans ((by ring : _ = _).trans_le hb.2) ?_) hs
    simpa [Ival.mul] using h2

theorem Ival.Has.invPos {i : Ival} {x : ℝ} (h0 : 0 < i.lo) (hx : i.Has x) : i.invPos.Has (1 / x) := by
  obtain ⟨h1, h2⟩ := hx
  have hs := scale_pos
  have hlo : (0 : ℝ) < (i.lo : ℝ) := by exact_mod_cast h0
  have hX : 0 < x * scale := hlo.trans_le h1
  have hx0 : 0 < x := by
    by_contra hn
    push Not at hn
    nlinarith
  have hhi : (0 : ℝ) < (i.hi : ℝ) := hX.trans_le h2
  have hhi' : 0 < i.hi := by exact_mod_cast hhi
  have e1 := floorDiv_mul_le (scale * scale) hhi'
  have e2 := le_ceilDiv_mul (scale * scale) h0
  push_cast at e1 e2
  have key : (1 / x * scale) * (x * scale) = scale * scale := by field_simp
  constructor
  · by_contra hn
    push Not at hn
    have : (1 / x * scale) * (x * scale) < (((scale : ℤ) * scale / i.hi : ℤ) : ℝ) * i.hi := by
      have hp : 0 < 1 / x * scale := by positivity
      calc (1 / x * scale) * (x * scale) ≤ (1 / x * scale) * i.hi := by
            exact mul_le_mul_of_nonneg_left h2 hp.le
        _ < _ := mul_lt_mul_of_pos_right (by simpa [Ival.invPos] using hn) hhi
    linarith
  · by_contra hn
    push Not at hn
    have hp : 0 < 1 / x * scale := by positivity
    have : ((-(-(scale * scale : ℤ) / i.lo) : ℤ) : ℝ) * i.lo < (1 / x * scale) * (x * scale) := by
      calc ((-(-(scale * scale : ℤ) / i.lo) : ℤ) : ℝ) * i.lo < (1 / x * scale) * i.lo :=
            mul_lt_mul_of_pos_right (by simpa [Ival.invPos] using hn) hlo
        _ ≤ _ := mul_le_mul_of_nonneg_left h1 hp.le
    push_cast at this
    linarith

theorem Ival.Has.inv {i j : Ival} {x : ℝ} (hx : i.Has x) (h : i.inv = some j) : j.Has (1 / x) := by
  unfold Ival.inv at h
  split at h
  · rename_i h0
    obtain rfl := Option.some.inj h
    exact hx.invPos h0
  split at h
  · rename_i h0
    obtain rfl := Option.some.inj h
    have h1 : 0 < i.neg.lo := by simp only [Ival.neg]; omega
    have := (hx.neg.invPos h1).neg
    simpa using this
  · cases h

theorem Ival.Has.divNat {i : Ival} {x : ℝ} (hx : i.Has x) {n : ℕ} (hn : 0 < n) :
    (i.divNat n).Has (x / n) := by
  obtain ⟨h1, h2⟩ := hx
  have hni : (0 : ℤ) < (n : ℤ) := by exact_mod_cast hn
  have hnr : (0 : ℝ) < (n : ℝ) := by exact_mod_cast hn
  have e1 := floorDiv_mul_le i.lo hni
  have e2 := le_ceilDiv_mul i.hi hni
  have key : x / n * scale * n = x * scale := by field_simp
  push_cast at e1 e2
  constructor
  · refine le_of_mul_le_mul_right (le_trans ?_ (h1.trans_eq key.symm)) hnr
    simpa [Ival.divNat] using e1
  · refine le_of_mul_le_mul_right (key.trans_le (h2.trans ?_)) hnr
    simpa [Ival.divNat] using e2

theorem Ival.has_one : Ival.one.Has 1 := by
  constructor <;> simp [Ival.one]

theorem Ival.has_twoPi : Ival.twoPi.Has (2 * Real.pi) := by
  have h1 := Real.pi_gt_d20
  have h2 := Real.pi_lt_d20
  have hs := scale_pos
  have hn : (0 : ℤ) < 10 ^ 20 := by norm_num
  have e1 := floorDiv_mul_le (2 * 314159265358979323846 * scale) hn
  have e2 := le_ceilDiv_mul (2 * 314159265358979323847 * scale) hn
  have h10 : (0 : ℝ) < ((10 ^ 20 : ℤ) : ℝ) := by exact_mod_cast hn
  have hc : ((10 ^ 20 : ℤ) : ℝ) = 100000000000000000000 := by norm_num
  constructor
  · refine le_of_mul_le_mul_right (e1.trans ?_) h10
    rw [hc]
    push_cast
    nlinarith
  · refine le_of_mul_le_mul_right (le_trans ?_ e2) h10
    rw [hc]
    push_cast
    nlinarith

theorem Ival.Has.widen {i : Ival} {x y : ℝ} (hx : i.Has x) {e : ℤ} (h : |y - x| * scale ≤ e) :
    (i.widen e).Has y := by
  obtain ⟨h1, h2⟩ := hx
  have hs := scale_pos
  have ha := abs_le.mp (le_refl |y - x|)
  have hb1 : -(|y - x| * scale) ≤ (y - x) * scale := by nlinarith [ha.1]
  have hb2 : (y - x) * scale ≤ |y - x| * scale := by nlinarith [ha.2]
  constructor <;> simp only [Ival.widen] <;> push_cast <;> nlinarith

/-! ## The sine's series -/

/-- The nested form of the series, on the reals. -/
noncomputable def sinNestReal (z : ℝ) : ℕ → ℕ → ℝ
  | _, 0 => 1
  | k, fuel + 1 => 1 - z * sinNestReal z (k + 1) fuel / ((2 * k + 2) * (2 * k + 3) : ℕ)

theorem Ival.has_sinNest {i : Ival} {z : ℝ} (h : i.Has z) (k fuel : ℕ) :
    (Ival.sinNest i k fuel).Has (sinNestReal z k fuel) := by
  induction fuel generalizing k with
  | zero => exact Ival.has_one
  | succ fuel ih =>
    exact Ival.has_one.sub ((h.mul (ih (k + 1))).divNat (by positivity))

theorem sinNestReal_eq (z : ℝ) (k fuel : ℕ) :
    sinNestReal z k fuel
      = ∑ j ∈ Finset.range (fuel + 1),
          (-1) ^ j * z ^ j * ((2 * k + 1).factorial / (2 * k + 2 * j + 1).factorial) := by
  induction fuel generalizing k with
  | zero =>
    have : ((2 * k + 1).factorial : ℝ) ≠ 0 := by positivity
    simp [sinNestReal, this]
  | succ fuel ih =>
    rw [Finset.sum_range_succ', sinNestReal, ih (k + 1)]
    have h0 : ((2 * k + 1).factorial : ℝ) ≠ 0 := by positivity
    have hf : ((2 * (k + 1) + 1).factorial : ℝ) = (2 * k + 2) * (2 * k + 3) * (2 * k + 1).factorial := by
      rw [show 2 * (k + 1) + 1 = (2 * k + 1) + 1 + 1 by ring, Nat.factorial_succ, Nat.factorial_succ]
      push_cast
      ring
    simp only [pow_zero, mul_zero, add_zero, one_mul, mul_one]
    rw [div_self h0, sub_eq_add_neg, add_comm (1 : ℝ)]
    congr 1
    rw [mul_div_assoc, Finset.sum_div, Finset.mul_sum, ← Finset.sum_neg_distrib]
    refine Finset.sum_congr rfl fun j _ => ?_
    rw [hf, show 2 * k + 2 * (j + 1) + 1 = 2 * (k + 1) + 2 * j + 1 by ring]
    have h1 : ((2 * (k + 1) + 2 * j + 1).factorial : ℝ) ≠ 0 := by positivity
    push_cast
    field_simp
    ring

/-- The imaginary part of the exponential's partial sum is the sine's. -/
theorem exp_sum_im (y : ℝ) (n : ℕ) :
    (∑ m ∈ Finset.range (2 * n), (y * Complex.I : ℂ) ^ m / m.factorial).im
      = ∑ j ∈ Finset.range n, (-1) ^ j * y ^ (2 * j + 1) / (2 * j + 1).factorial := by
  induction n with
  | zero => simp
  | succ n ih =>
    rw [show 2 * (n + 1) = 2 * n + 1 + 1 by ring, Finset.sum_range_succ, Finset.sum_range_succ,
      Finset.sum_range_succ, Complex.add_im, Complex.add_im, ih]
    have e1 : ((y * Complex.I : ℂ) ^ (2 * n) / (2 * n).factorial)
        = (((-1) ^ n * y ^ (2 * n) / (2 * n).factorial : ℝ) : ℂ) := by
      rw [mul_pow, pow_mul Complex.I, Complex.I_sq]
      push_cast
      ring
    have e2 : ((y * Complex.I : ℂ) ^ (2 * n + 1) / (2 * n + 1).factorial)
        = (((-1) ^ n * y ^ (2 * n + 1) / (2 * n + 1).factorial : ℝ) : ℂ) * Complex.I := by
      rw [mul_pow, pow_succ Complex.I, pow_mul Complex.I, Complex.I_sq]
      push_cast
      ring
    rw [e1, e2, Complex.ofReal_im, Complex.im_ofReal_mul, Complex.I_im]
    ring

/-- The sine against the first 24 terms of its series, on half a turn around 0. -/
theorem sin_near_nest {y : ℝ} (hy : |y| ≤ Real.pi) :
    |Real.sin y - y * sinNestReal (y * y) 0 23| * scale ≤ 1 := by
  have hpi : |y| ≤ 3.15 := hy.trans (by have := Real.pi_lt_d2; linarith)
  have hn : ‖(y * Complex.I : ℂ)‖ = |y| := by simp
  have hb := Complex.exp_bound' (x := (y * Complex.I : ℂ)) (n := 48)
    (by rw [hn]; push_cast; have := abs_nonneg y; linarith)
  rw [hn] at hb
  have him := (Complex.abs_im_le_norm _).trans hb
  rw [Complex.sub_im, Complex.exp_ofReal_mul_I_im, exp_sum_im y 24] at him
  have hser : y * sinNestReal (y * y) 0 23
      = ∑ j ∈ Finset.range 24, (-1) ^ j * y ^ (2 * j + 1) / (2 * j + 1).factorial := by
    rw [sinNestReal_eq, Finset.mul_sum]
    refine Finset.sum_congr rfl fun j _ => ?_
    simp only [mul_zero, zero_add, Nat.factorial_one, Nat.cast_one]
    rw [← pow_two, ← pow_mul]
    ring
  rw [hser]
  have h48 : |y| ^ 48 ≤ 3.15 ^ 48 := pow_le_pow_left₀ (abs_nonneg y) hpi 48
  have hsc : (0 : ℝ) ≤ scale := scale_pos.le
  refine (mul_le_mul_of_nonneg_right him hsc).trans ?_
  have hf : (0 : ℝ) < (Nat.factorial 48 : ℝ) := by positivity
  rw [div_mul_eq_mul_div, div_mul_eq_mul_div, div_le_one hf]
  calc |y| ^ 48 * 2 * (scale : ℝ) ≤ 3.15 ^ 48 * 2 * scale := by gcongr
    _ ≤ _ := by
      norm_num [scale, Nat.factorial]

/-- The interval of `sinPoint` holds the sine at its point. -/
theorem Ival.has_sinPoint (n : ℤ) : (Ival.sinPoint n).Has (Real.sin (2 * Real.pi * (n / scale))) := by
  have hs := scale_pos
  obtain ⟨m, k, hm, hm1, hm2, hdef⟩ : ∃ m k : ℤ, n = m + k * scale ∧ -(2 ^ 63 : ℤ) ≤ m ∧ m ≤ 2 ^ 63 ∧
      m = (n + (scale / 2 : Nat)) % scale - (scale / 2 : Nat) := by
    refine ⟨(n + (scale / 2 : Nat)) % scale - (scale / 2 : Nat), (n + (scale / 2 : Nat)) / scale,
      ?_, ?_, ?_, rfl⟩
    · have := Int.emod_add_mul_ediv (n + (scale / 2 : Nat)) scale
      linarith
    · have := Int.emod_nonneg (n + (scale / 2 : Nat)) scale_pos_int.ne'
      norm_num [scale] at *
      omega
    · have := Int.emod_lt_of_pos (n + (scale / 2 : Nat)) scale_pos_int
      norm_num [scale] at *
      omega
  have hsin : Real.sin (2 * Real.pi * (n / scale)) = Real.sin (m / scale * (2 * Real.pi)) := by
    rw [hm]
    push_cast
    rw [show 2 * Real.pi * (((m : ℝ) + k * scale) / scale)
      = m / scale * (2 * Real.pi) + k * (2 * Real.pi) by field_simp, Real.sin_add_int_mul_two_pi]
  have hpt : (Ival.mk m m).Has (m / scale) := by
    constructor <;> simp only <;> rw [div_mul_cancel₀ _ hs.ne']
  have hy := hpt.mul Ival.has_twoPi
  have hr := hy.mul (Ival.has_sinNest (hy.mul hy) 0 23)
  rw [hsin]
  have hw : |m / scale * (2 * Real.pi)| ≤ Real.pi := by
    rw [abs_mul, abs_of_pos Real.two_pi_pos, abs_div, abs_of_pos hs]
    have hmr : |(m : ℝ)| ≤ 2 ^ 63 := by
      rw [abs_le]
      constructor
      · exact_mod_cast hm1
      · exact_mod_cast hm2
    have hsv : (scale : ℝ) = 2 ^ 64 := by norm_num [scale]
    rw [hsv]
    have hpos := Real.pi_pos
    have : |(m : ℝ)| / 2 ^ 64 ≤ 1 / 2 := by
      rw [div_le_div_iff₀ (by positivity) (by norm_num)]
      linarith
    nlinarith
  have := hr.widen (e := 1) (by simpa using sin_near_nest hw)
  unfold Ival.sinPoint
  rw [← hdef]
  exact this

theorem Ival.Has.sinTurn {i : Ival} {x : ℝ} (hx : i.Has x) :
    i.sinTurn.Has (Real.sin (2 * Real.pi * x)) := by
  obtain ⟨h1, h2⟩ := hx
  have hs := scale_pos
  refine (Ival.has_sinPoint i.lo).widen ?_
  have hl := Real.abs_sin_sub_sin_le (2 * Real.pi * x) (2 * Real.pi * (i.lo / scale))
  have hpi := Real.pi_lt_d2
  have hpos := Real.pi_pos
  have hd : 2 * Real.pi * x - 2 * Real.pi * (i.lo / scale) = 2 * Real.pi * ((x * scale - i.lo) / scale) := by
    field_simp
  have h0 : 0 ≤ x * scale - i.lo := by linarith
  rw [hd, abs_mul, abs_of_pos Real.two_pi_pos, abs_of_nonneg (div_nonneg h0 hs.le)] at hl
  calc _ ≤ 2 * Real.pi * ((x * scale - i.lo) / scale) * scale := mul_le_mul_of_nonneg_right hl hs.le
    _ = 2 * Real.pi * (x * scale - i.lo) := by field_simp
    _ ≤ 7 * (x * scale - i.lo) := by nlinarith
    _ ≤ _ := by push_cast; linarith

theorem Ival.Has.tanHalf {i j : Ival} {x : ℝ} (hx : i.Has x) (h : i.tanHalf = some j) :
    j.Has (Real.tan (Real.pi * x)) := by
  unfold Ival.tanHalf at h
  have h2 : (i.divNat 2).Has (x / 2) := by simpa using hx.divNat (n := 2) (by norm_num)
  have hq : (Ival.mk (scale / 4) (scale / 4)).Has (1 / 4) := by
    constructor <;> norm_num [scale]
  have hc := (h2.add hq).sinTurn
  have hsn := h2.sinTurn
  simp only at h
  split at h
  · rename_i c hcinv
    obtain rfl := Option.some.inj h
    have := hsn.mul (hc.inv hcinv)
    rw [Real.tan_eq_sin_div_cos, ← Real.sin_add_pi_div_two (Real.pi * x)]
    convert this using 1
    rw [show 2 * Real.pi * (x / 2) = Real.pi * x by ring,
      show 2 * Real.pi * (x / 2 + 1 / 4) = Real.pi * x + Real.pi / 2 by ring]
    ring
  · cases h

/-- Ten to a rational power, raised to the denominator. -/
theorem tenTo_pow_den (q : Rat) : ((10 : ℝ) ^ (q : ℝ)) ^ q.den = (10 : ℝ) ^ (q.num : ℝ) := by
  rw [← Real.rpow_natCast, ← Real.rpow_mul (by norm_num)]
  congr 1
  have hd : (q.den : ℝ) ≠ 0 := by exact_mod_cast q.den_nz
  rw [Rat.cast_def]
  field_simp

theorem belowTenTo_le {q : Rat} {r : ℕ} (h : belowTenTo q r = true) :
    (r : ℝ) ≤ (10 : ℝ) ^ (q : ℝ) * scale := by
  have hs := scale_pos
  refine le_of_pow_le_pow_left₀ q.den_nz (by positivity) ?_
  rw [mul_pow, tenTo_pow_den]
  unfold belowTenTo at h
  split at h
  · rename_i hn
    obtain ⟨n, hn⟩ := Int.eq_ofNat_of_zero_le hn
    have h := of_decide_eq_true h
    rw [hn] at h ⊢
    simp only [Int.toNat_natCast, Int.cast_natCast, Real.rpow_natCast] at h ⊢
    exact_mod_cast h
  · rename_i hn
    obtain ⟨n, hn⟩ := Int.eq_ofNat_of_zero_le (show 0 ≤ -q.num by omega)
    have hq : q.num = -(n : ℤ) := by omega
    have h := of_decide_eq_true h
    rw [hq] at h ⊢
    simp only [neg_neg, Int.toNat_natCast, Int.cast_neg, Int.cast_natCast] at h ⊢
    rw [Real.rpow_neg (by norm_num), Real.rpow_natCast, inv_mul_eq_div, le_div_iff₀ (by positivity)]
    exact_mod_cast h

theorem aboveTenTo_le {q : Rat} {r : ℕ} (h : aboveTenTo q r = true) :
    (10 : ℝ) ^ (q : ℝ) * scale ≤ (r : ℝ) := by
  have hs := scale_pos
  refine le_of_pow_le_pow_left₀ q.den_nz (by positivity) ?_
  rw [mul_pow, tenTo_pow_den]
  unfold aboveTenTo at h
  split at h
  · rename_i hn
    obtain ⟨n, hn⟩ := Int.eq_ofNat_of_zero_le hn
    have h := of_decide_eq_true h
    rw [hn] at h ⊢
    simp only [Int.toNat_natCast, Int.cast_natCast, Real.rpow_natCast] at h ⊢
    exact_mod_cast h
  · rename_i hn
    obtain ⟨n, hn⟩ := Int.eq_ofNat_of_zero_le (show 0 ≤ -q.num by omega)
    have hq : q.num = -(n : ℤ) := by omega
    have h := of_decide_eq_true h
    rw [hq] at h ⊢
    simp only [neg_neg, Int.toNat_natCast, Int.cast_neg, Int.cast_natCast] at h ⊢
    rw [Real.rpow_neg (by norm_num), Real.rpow_natCast, inv_mul_eq_div, div_le_iff₀ (by positivity)]
    exact_mod_cast h

theorem Ival.has_tenTo {q : Rat} {j : Ival} (h : Ival.tenTo q = some j) : j.Has ((10 : ℝ) ^ (q : ℝ)) := by
  unfold Ival.tenTo at h
  simp only at h
  split at h
  · rename_i hc
    rw [Bool.and_eq_true] at hc
    obtain rfl := Option.some.inj h
    constructor
    · simpa using belowTenTo_le hc.1
    · have := aboveTenTo_le hc.2
      push_cast at this ⊢
      exact this
  · cases h

/-- Every enclosure holds the real number the value denotes. -/
theorem NumT.encl_sound {a : NumT} {i : Ival} (h : a.encl = some i) : i.Has a.val := by
  induction a generalizing i with
  | rat q =>
    obtain rfl := Option.some.inj h
    exact Ival.has_ofRat q
  | sym n => cases h
  | plus a b iha ihb =>
    simp only [NumT.encl] at h
    split at h
    · rename_i x y hx hy
      obtain rfl := Option.some.inj h
      exact (iha hx).add (ihb hy)
    · cases h
  | minus a b iha ihb =>
    simp only [NumT.encl] at h
    split at h
    · rename_i x y hx hy
      obtain rfl := Option.some.inj h
      exact (iha hx).sub (ihb hy)
    · cases h
  | times a b iha ihb =>
    simp only [NumT.encl] at h
    split at h
    · rename_i x y hx hy
      obtain rfl := Option.some.inj h
      exact (iha hx).mul (ihb hy)
    · cases h
  | quot a b iha ihb =>
    simp only [NumT.encl] at h
    split at h
    · rename_i x y hx hy
      obtain ⟨z, hz, rfl⟩ := Option.map_eq_some_iff.mp h
      have := (iha hx).mul ((ihb hy).inv hz)
      rwa [mul_one_div] at this
    · cases h
  | opp a iha =>
    simp only [NumT.encl] at h
    obtain ⟨x, hx, rfl⟩ := Option.map_eq_some_iff.mp h
    exact (iha hx).neg
  | sinTurn a iha =>
    simp only [NumT.encl] at h
    obtain ⟨x, hx, rfl⟩ := Option.map_eq_some_iff.mp h
    exact (iha hx).sinTurn
  | tanHalf a iha =>
    simp only [NumT.encl] at h
    split at h
    · rename_i x hx
      exact (iha hx).tanHalf h
    · cases h
  | tenTo a iha =>
    simp only [NumT.encl] at h
    split at h
    · rename_i q hq
      rw [NumT.rat?_some hq]
      exact Ival.has_tenTo h
    · cases h

/-! ## Comparison and rounding -/

theorem Ival.lt?_sound {x y : Ival} {a b : ℝ} {r : Bool} (hx : x.Has a) (hy : y.Has b)
    (h : x.lt? y = some r) : r = true ↔ a < b := by
  have hs := scale_pos
  unfold Ival.lt? at h
  split at h
  · rename_i hlt
    obtain rfl := Option.some.inj h
    have : (x.hi : ℝ) < y.lo := by exact_mod_cast hlt
    refine iff_of_true rfl (lt_of_mul_lt_mul_right ?_ hs.le)
    linarith [hx.2, hy.1]
  split at h
  · rename_i hle
    obtain rfl := Option.some.inj h
    have : (y.hi : ℝ) ≤ x.lo := by exact_mod_cast hle
    refine iff_of_false (by simp) (not_lt.mpr (le_of_mul_le_mul_right ?_ hs))
    linarith [hx.1, hy.2]
  · cases h

@[simp] theorem NumT.lt_rat (p q : Rat) : (NumT.rat p).lt (.rat q) = decide (p < q) := rfl

@[simp] theorem NumT.floor_rat (q : Rat) : (NumT.rat q).floor = q.floor := rfl

/-- `truth p` is the truth value of `p`. -/
theorem truth_iff (p : Prop) : truth p = true ↔ p := (@someOf _ (truth_exists p) ()).property

theorem NumT.integerPart_eq (a : NumT) : a.integerPart = ⌊a.val⌋ :=
  (@someOf _ (integerPart_exists a) ()).property

/-- Where the enclosures decide the order of two values, they decide it rightly. -/
theorem NumT.lt?_sound {a b : NumT} {r : Bool} (h : a.lt? b = some r) : r = true ↔ a.val < b.val := by
  unfold NumT.lt? at h
  split at h
  · rename_i x y hx hy
    exact Ival.lt?_sound (NumT.encl_sound hx) (NumT.encl_sound hy) h
  · cases h

/-- Where the enclosure decides the integer part of a value, it decides it rightly. -/
theorem NumT.floor?_sound {a : NumT} {z : Int} (h : a.floor? = some z) : z = ⌊a.val⌋ := by
  unfold NumT.floor? at h
  split at h
  · rename_i x hx
    split at h
    · rename_i hs
      obtain rfl := Option.some.inj h
      obtain ⟨h1, h2⟩ := NumT.encl_sound hx
      have hp := scale_pos
      have hpi := scale_pos_int
      symm
      rw [Int.floor_eq_iff]
      constructor
      · refine le_of_mul_le_mul_right (le_trans ?_ h1) hp
        exact floorDiv_mul_le x.lo hpi
      · refine lt_of_mul_lt_mul_right (lt_of_le_of_lt h2 ?_) hp.le
        rw [hs]
        have := Int.lt_ediv_add_one_mul_self x.hi hpi
        exact_mod_cast this
    · cases h
  · cases h

/-- `lt` is the order of the real numbers denoted, for all values. -/
theorem NumT.lt_iff (a b : NumT) : a.lt b = true ↔ a.val < b.val := by
  unfold NumT.lt
  split
  · rename_i p q hp hq
    rw [NumT.rat?_some hp, NumT.rat?_some hq]
    simp
  · split
    · rename_i r hr
      exact NumT.lt?_sound hr
    · exact truth_iff _

/-- `lt` denies exactly the reverse order. -/
theorem NumT.lt_eq_false_iff (a b : NumT) : a.lt b = false ↔ b.val ≤ a.val := by
  rw [← not_lt, ← NumT.lt_iff, Bool.not_eq_true]

/-- `le` is the order of the real numbers denoted, for all values. -/
theorem NumT.le_iff (a b : NumT) : a.le b = true ↔ a.val ≤ b.val := by
  rw [NumT.le, Bool.not_eq_true', NumT.lt_eq_false_iff]

/-- `floor` is the integer part of the real number denoted, for all values. -/
theorem NumT.floor_eq (a : NumT) : a.floor = ⌊a.val⌋ := by
  unfold NumT.floor
  split
  · rename_i q hq
    rw [NumT.rat?_some hq, NumT.val_rat, Rat.floor_cast]
    rfl
  · split
    · rename_i z hz
      exact NumT.floor?_sound hz
    · exact a.integerPart_eq

/-! ## The record `REAL` -/

@[simp] theorem Num.real_add (a b : NumT) : Num.real.add a b = a.add b := rfl
@[simp] theorem Num.real_sub (a b : NumT) : Num.real.sub a b = a.sub b := rfl
@[simp] theorem Num.real_mul (a b : NumT) : Num.real.mul a b = a.mul b := rfl
@[simp] theorem Num.real_div (a b : NumT) : Num.real.div a b = a.div b := rfl
@[simp] theorem Num.real_neg (a : NumT) : Num.real.neg a = a.neg := rfl
@[simp] theorem Num.real_lt (a b : NumT) : Num.real.lt a b = a.lt b := rfl
@[simp] theorem Num.real_le (a b : NumT) : Num.real.le a b = a.le b := rfl
@[simp] theorem Num.real_floor (a : NumT) : Num.real.floor a = a.floor := rfl
@[simp] theorem Num.real_sin2pi (a : NumT) : Num.real.sin2pi a = a.sin2pi := rfl
@[simp] theorem Num.real_tanpi (a : NumT) : Num.real.tanpi a = a.tanpi := rfl
@[simp] theorem Num.real_pow10 (a : NumT) : Num.real.pow10 a = a.pow10 := rfl
@[simp] theorem Num.real_finite (a : NumT) : Num.real.finite a = true := rfl

/-- Every decision of a clamp is one of three, whatever the record (rule R11). -/
theorem Num.clamp_cases (N : Num) (x lo hi : NumT) :
    (N.lt x lo = true ∧ N.clamp x lo hi = lo) ∨
      (N.lt x lo = false ∧ N.lt hi x = true ∧ N.clamp x lo hi = hi) ∨
      (N.lt x lo = false ∧ N.lt hi x = false ∧ N.clamp x lo hi = x) := by
  unfold Num.clamp
  cases h1 : N.lt x lo
  · cases h2 : N.lt hi x <;> simp
  · simp

/-- `frac` is the fractional part of the real number denoted. -/
theorem Num.frac_val (a : NumT) : (Num.real.frac a).val = Int.fract a.val := by
  rw [Num.frac, Num.real_sub, Num.real_floor, NumT.val_sub, NumT.val_ofInt, NumT.floor_eq]
  rfl

/-- `ceil` is the ceiling of the real number denoted. -/
theorem Num.ceil_eq (a : NumT) : Num.real.ceil a = ⌈a.val⌉ := by
  rw [Num.ceil, Num.real_neg, Num.real_floor, NumT.floor_eq, NumT.val_neg]
  rfl

/-- `rmod` takes off whole lengths. -/
theorem Num.rmod_val (a : NumT) (len : Nat) :
    (Num.real.rmod a len).val = a.val - len * ⌊a.val / len⌋ := by
  simp only [Num.rmod, Num.real_sub, Num.real_mul, Num.real_div, Num.real_floor, NumT.floor_eq, NumT.val_sub,
    NumT.val_mul, NumT.val_div, NumT.val_ofInt, Int.cast_natCast]

end Sys2Proof
end

