-- ==== Sys2Proof/Laws/State.lean ====
section
/-! SUPPORT. The small lemmas of the state's updates: one per field per update, so that no later proof
unfolds a record update. -/

namespace Sys2Proof.Machine

open Sys2Proof

/-- The numerics record is a parameter: one spelling for it, so that no update hides it. -/
@[simp] theorem State.num_eq (s : State) : s.num = s.cfg.p.num := rfl

/-! ## `respond` -/

@[simp] theorem State.respond_cfg (s : State) (st : Status) (v : NumT) :
    (s.respond st v).cfg = s.cfg := rfl

@[simp] theorem State.respond_inputs (s : State) (st : Status) (v : NumT) :
    (s.respond st v).inputs = s.inputs := rfl

@[simp] theorem State.respond_cmd (s : State) (st : Status) (v : NumT) :
    (s.respond st v).cmd = s.cmd := rfl

@[simp] theorem State.respond_din (s : State) (st : Status) (v : NumT) :
    (s.respond st v).din = s.din := rfl

@[simp] theorem State.respond_status (s : State) (st : Status) (v : NumT) :
    (s.respond st v).status = st := rfl

@[simp] theorem State.respond_dout (s : State) (st : Status) (v : NumT) :
    (s.respond st v).dout = v := rfl

@[simp] theorem State.respond_estat (s : State) (st : Status) (v : NumT) :
    (s.respond st v).estat = s.estat := rfl

@[simp] theorem State.respond_ph (s : State) (st : Status) (v : NumT) :
    (s.respond st v).ph = s.ph := rfl

@[simp] theorem State.respond_fl (s : State) (st : Status) (v : NumT) :
    (s.respond st v).fl = s.fl := rfl

/-! ## `raise` -/

@[simp] theorem State.raise_cfg (s : State) (e : Status) (v : NumT) :
    (s.raise e v).cfg = s.cfg := rfl

@[simp] theorem State.raise_inputs (s : State) (e : Status) (v : NumT) :
    (s.raise e v).inputs = s.inputs := rfl

@[simp] theorem State.raise_cmd (s : State) (e : Status) (v : NumT) :
    (s.raise e v).cmd = s.cmd := rfl

@[simp] theorem State.raise_din (s : State) (e : Status) (v : NumT) :
    (s.raise e v).din = s.din := rfl

@[simp] theorem State.raise_status (s : State) (e : Status) (v : NumT) :
    (s.raise e v).status = e := rfl

@[simp] theorem State.raise_dout (s : State) (e : Status) (v : NumT) :
    (s.raise e v).dout = v := rfl

@[simp] theorem State.raise_estat (s : State) (e : Status) (v : NumT) :
    (s.raise e v).estat = s.estat ||| e.mask := rfl

@[simp] theorem State.raise_ph (s : State) (e : Status) (v : NumT) :
    (s.raise e v).ph = s.ph := rfl

@[simp] theorem State.raise_fl (s : State) (e : Status) (v : NumT) :
    (s.raise e v).fl = s.fl := rfl

/-! ## `flag` and `flagIf` -/

@[simp] theorem State.flag_cfg (s : State) (g : Flag) :
    (s.flag g).cfg = s.cfg := rfl

@[simp] theorem State.flag_inputs (s : State) (g : Flag) :
    (s.flag g).inputs = s.inputs := rfl

@[simp] theorem State.flag_cmd (s : State) (g : Flag) :
    (s.flag g).cmd = s.cmd := rfl

@[simp] theorem State.flag_din (s : State) (g : Flag) :
    (s.flag g).din = s.din := rfl

@[simp] theorem State.flag_status (s : State) (g : Flag) :
    (s.flag g).status = s.status := rfl

@[simp] theorem State.flag_dout (s : State) (g : Flag) :
    (s.flag g).dout = s.dout := rfl

@[simp] theorem State.flag_estat (s : State) (g : Flag) :
    (s.flag g).estat = s.estat ||| g.mask := rfl

@[simp] theorem State.flag_ph (s : State) (g : Flag) :
    (s.flag g).ph = s.ph := rfl

@[simp] theorem State.flag_fl (s : State) (g : Flag) :
    (s.flag g).fl = s.fl := rfl

@[simp] theorem State.flagIf_cfg (s : State) (b : Bool) (g : Flag) :
    (s.flagIf b g).cfg = s.cfg := by
  unfold State.flagIf
  split <;> rfl

@[simp] theorem State.flagIf_inputs (s : State) (b : Bool) (g : Flag) :
    (s.flagIf b g).inputs = s.inputs := by
  unfold State.flagIf
  split <;> rfl

@[simp] theorem State.flagIf_cmd (s : State) (b : Bool) (g : Flag) :
    (s.flagIf b g).cmd = s.cmd := by
  unfold State.flagIf
  split <;> rfl

@[simp] theorem State.flagIf_din (s : State) (b : Bool) (g : Flag) :
    (s.flagIf b g).din = s.din := by
  unfold State.flagIf
  split <;> rfl

@[simp] theorem State.flagIf_status (s : State) (b : Bool) (g : Flag) :
    (s.flagIf b g).status = s.status := by
  unfold State.flagIf
  split <;> rfl

@[simp] theorem State.flagIf_dout (s : State) (b : Bool) (g : Flag) :
    (s.flagIf b g).dout = s.dout := by
  unfold State.flagIf
  split <;> rfl

@[simp] theorem State.flagIf_estat (s : State) (b : Bool) (g : Flag) :
    (s.flagIf b g).estat = if b then s.estat ||| g.mask else s.estat := by
  unfold State.flagIf
  split <;> rfl

@[simp] theorem State.flagIf_ph (s : State) (b : Bool) (g : Flag) :
    (s.flagIf b g).ph = s.ph := by
  unfold State.flagIf
  split <;> rfl

@[simp] theorem State.flagIf_fl (s : State) (b : Bool) (g : Flag) :
    (s.flagIf b g).fl = s.fl := by
  unfold State.flagIf
  split <;> rfl

/-! ## `present` -/

@[simp] theorem State.present_cfg (s : State) (w : BitVec 32) (d : NumT) (r : List Event) :
    (s.present w d r).cfg = s.cfg := rfl

@[simp] theorem State.present_inputs (s : State) (w : BitVec 32) (d : NumT) (r : List Event) :
    (s.present w d r).inputs = r := rfl

@[simp] theorem State.present_cmd (s : State) (w : BitVec 32) (d : NumT) (r : List Event) :
    (s.present w d r).cmd = w := rfl

@[simp] theorem State.present_din (s : State) (w : BitVec 32) (d : NumT) (r : List Event) :
    (s.present w d r).din = d := rfl

@[simp] theorem State.present_status (s : State) (w : BitVec 32) (d : NumT) (r : List Event) :
    (s.present w d r).status = s.status := rfl

@[simp] theorem State.present_dout (s : State) (w : BitVec 32) (d : NumT) (r : List Event) :
    (s.present w d r).dout = s.dout := rfl

@[simp] theorem State.present_estat (s : State) (w : BitVec 32) (d : NumT) (r : List Event) :
    (s.present w d r).estat = s.estat := rfl

@[simp] theorem State.present_ph (s : State) (w : BitVec 32) (d : NumT) (r : List Event) :
    (s.present w d r).ph = s.ph := rfl

@[simp] theorem State.present_fl (s : State) (w : BitVec 32) (d : NumT) (r : List Event) :
    (s.present w d r).fl = s.fl := rfl

/-! ## The power-on reset -/

@[simp] theorem State.powerOn_cfg (s : State) :
    (s.powerOn).cfg = s.cfg := rfl

@[simp] theorem State.powerOn_inputs (s : State) :
    (s.powerOn).inputs = s.inputs := rfl

@[simp] theorem State.powerOn_cmd (s : State) :
    (s.powerOn).cmd = s.cmd := rfl

@[simp] theorem State.powerOn_din (s : State) :
    (s.powerOn).din = s.din := rfl

@[simp] theorem State.powerOn_status (s : State) :
    (s.powerOn).status = .ok := rfl

@[simp] theorem State.powerOn_dout (s : State) :
    (s.powerOn).dout = .rat 0 := rfl

@[simp] theorem State.powerOn_estat (s : State) :
    (s.powerOn).estat = 0#7 := rfl

@[simp] theorem State.powerOn_ph (s : State) :
    (s.powerOn).ph = { Phaser.reset s.cfg.p with phase := s.ph.phase, d0 := s.ph.d0, s := s.ph.s } := rfl

@[simp] theorem State.powerOn_fl (s : State) :
    (s.powerOn).fl = { Flanger.reset with phase := s.fl.phase, wpos := s.fl.wpos, buf := s.fl.buf, tz := s.fl.tz } := rfl

/-! ## `setPhInit` and `setFlInit` -/

@[simp] theorem State.setPhInit_cfg (s : State) (b : Bool) :
    (s.setPhInit b).cfg = s.cfg := rfl

@[simp] theorem State.setPhInit_inputs (s : State) (b : Bool) :
    (s.setPhInit b).inputs = s.inputs := rfl

@[simp] theorem State.setPhInit_cmd (s : State) (b : Bool) :
    (s.setPhInit b).cmd = s.cmd := rfl

@[simp] theorem State.setPhInit_din (s : State) (b : Bool) :
    (s.setPhInit b).din = s.din := rfl

@[simp] theorem State.setPhInit_status (s : State) (b : Bool) :
    (s.setPhInit b).status = s.status := rfl

@[simp] theorem State.setPhInit_dout (s : State) (b : Bool) :
    (s.setPhInit b).dout = s.dout := rfl

@[simp] theorem State.setPhInit_estat (s : State) (b : Bool) :
    (s.setPhInit b).estat = s.estat := rfl

@[simp] theorem State.setPhInit_ph (s : State) (b : Bool) :
    (s.setPhInit b).ph = { s.ph with init := b } := rfl

@[simp] theorem State.setPhInit_fl (s : State) (b : Bool) :
    (s.setPhInit b).fl = s.fl := rfl

@[simp] theorem State.setFlInit_cfg (s : State) (b : Bool) :
    (s.setFlInit b).cfg = s.cfg := rfl

@[simp] theorem State.setFlInit_inputs (s : State) (b : Bool) :
    (s.setFlInit b).inputs = s.inputs := rfl

@[simp] theorem State.setFlInit_cmd (s : State) (b : Bool) :
    (s.setFlInit b).cmd = s.cmd := rfl

@[simp] theorem State.setFlInit_din (s : State) (b : Bool) :
    (s.setFlInit b).din = s.din := rfl

@[simp] theorem State.setFlInit_status (s : State) (b : Bool) :
    (s.setFlInit b).status = s.status := rfl

@[simp] theorem State.setFlInit_dout (s : State) (b : Bool) :
    (s.setFlInit b).dout = s.dout := rfl

@[simp] theorem State.setFlInit_estat (s : State) (b : Bool) :
    (s.setFlInit b).estat = s.estat := rfl

@[simp] theorem State.setFlInit_ph (s : State) (b : Bool) :
    (s.setFlInit b).ph = s.ph := rfl

@[simp] theorem State.setFlInit_fl (s : State) (b : Bool) :
    (s.setFlInit b).fl = { s.fl with init := b } := rfl

/-! ## `apf_set` (rule R149) -/

@[simp] theorem State.apfSet_cfg (s : State) (i : Stage) (v : NumT) :
    (s.apfSet i v).cfg = s.cfg := by
  simp [State.apfSet]

@[simp] theorem State.apfSet_inputs (s : State) (i : Stage) (v : NumT) :
    (s.apfSet i v).inputs = s.inputs := by
  simp [State.apfSet]

@[simp] theorem State.apfSet_cmd (s : State) (i : Stage) (v : NumT) :
    (s.apfSet i v).cmd = s.cmd := by
  simp [State.apfSet]

@[simp] theorem State.apfSet_din (s : State) (i : Stage) (v : NumT) :
    (s.apfSet i v).din = s.din := by
  simp [State.apfSet]

@[simp] theorem State.apfSet_status (s : State) (i : Stage) (v : NumT) :
    (s.apfSet i v).status = s.status := by
  simp [State.apfSet]

@[simp] theorem State.apfSet_dout (s : State) (i : Stage) (v : NumT) :
    (s.apfSet i v).dout = s.dout := by
  simp [State.apfSet]

@[simp] theorem State.apfSet_estat (s : State) (i : Stage) (v : NumT) :
    (s.apfSet i v).estat = if decide (apfClampFc s.cfg.p v s.ph.fs ≠ v) then s.estat ||| Flag.clamp.mask else s.estat := by
  simp [State.apfSet]

@[simp] theorem State.apfSet_fl (s : State) (i : Stage) (v : NumT) :
    (s.apfSet i v).fl = s.fl := by
  simp [State.apfSet]

@[simp] theorem State.apfSet_ph_rate (s : State) (i : Stage) (v : NumT) :
    (s.apfSet i v).ph.rate = s.ph.rate := by
  simp [State.apfSet]

@[simp] theorem State.apfSet_ph_depth (s : State) (i : Stage) (v : NumT) :
    (s.apfSet i v).ph.depth = s.ph.depth := by
  simp [State.apfSet]

@[simp] theorem State.apfSet_ph_intensity (s : State) (i : Stage) (v : NumT) :
    (s.apfSet i v).ph.intensity = s.ph.intensity := by
  simp [State.apfSet]

@[simp] theorem State.apfSet_ph_quad (s : State) (i : Stage) (v : NumT) :
    (s.apfSet i v).ph.quad = s.ph.quad := by
  simp [State.apfSet]

@[simp] theorem State.apfSet_ph_fbsw (s : State) (i : Stage) (v : NumT) :
    (s.apfSet i v).ph.fbsw = s.ph.fbsw := by
  simp [State.apfSet]

@[simp] theorem State.apfSet_ph_wave (s : State) (i : Stage) (v : NumT) :
    (s.apfSet i v).ph.wave = s.ph.wave := by
  simp [State.apfSet]

@[simp] theorem State.apfSet_ph_fs (s : State) (i : Stage) (v : NumT) :
    (s.apfSet i v).ph.fs = s.ph.fs := by
  simp [State.apfSet]

@[simp] theorem State.apfSet_ph_nch (s : State) (i : Stage) (v : NumT) :
    (s.apfSet i v).ph.nch = s.ph.nch := by
  simp [State.apfSet]

@[simp] theorem State.apfSet_ph_init (s : State) (i : Stage) (v : NumT) :
    (s.apfSet i v).ph.init = s.ph.init := by
  simp [State.apfSet]

@[simp] theorem State.apfSet_ph_phase (s : State) (i : Stage) (v : NumT) :
    (s.apfSet i v).ph.phase = s.ph.phase := by
  simp [State.apfSet]

@[simp] theorem State.apfSet_ph_fc (s : State) (i : Stage) (v : NumT) :
    (s.apfSet i v).ph.fc = s.ph.fc.set i (apfClampFc s.cfg.p v s.ph.fs) := by
  simp [State.apfSet]

@[simp] theorem State.apfSet_ph_d0 (s : State) (i : Stage) (v : NumT) :
    (s.apfSet i v).ph.d0 = s.ph.d0.set i (apfCoef s.num (apfClampFc s.cfg.p v s.ph.fs) s.ph.fs) := by
  simp [State.apfSet]

@[simp] theorem State.apfSet_ph_q (s : State) (i : Stage) (v : NumT) :
    (s.apfSet i v).ph.q = s.ph.q := by
  simp [State.apfSet]

@[simp] theorem State.apfSet_ph_boost (s : State) (i : Stage) (v : NumT) :
    (s.apfSet i v).ph.boost = s.ph.boost := by
  simp [State.apfSet]

@[simp] theorem State.apfSet_ph_s (s : State) (i : Stage) (v : NumT) :
    (s.apfSet i v).ph.s = s.ph.s := by
  simp [State.apfSet]

/-! ## `apf_step` (rule R143) -/

@[simp] theorem State.apfStep_cfg (s : State) (i : Stage) (c : Nat) (x : NumT) :
    (s.apfStep i c x).cfg = s.cfg := by
  dsimp only [State.apfStep]

@[simp] theorem State.apfStep_inputs (s : State) (i : Stage) (c : Nat) (x : NumT) :
    (s.apfStep i c x).inputs = s.inputs := by
  dsimp only [State.apfStep]

@[simp] theorem State.apfStep_cmd (s : State) (i : Stage) (c : Nat) (x : NumT) :
    (s.apfStep i c x).cmd = s.cmd := by
  dsimp only [State.apfStep]

@[simp] theorem State.apfStep_din (s : State) (i : Stage) (c : Nat) (x : NumT) :
    (s.apfStep i c x).din = s.din := by
  dsimp only [State.apfStep]

@[simp] theorem State.apfStep_status (s : State) (i : Stage) (c : Nat) (x : NumT) :
    (s.apfStep i c x).status = s.status := by
  dsimp only [State.apfStep]

@[simp] theorem State.apfStep_dout (s : State) (i : Stage) (c : Nat) (x : NumT) :
    (s.apfStep i c x).dout = s.dout := by
  dsimp only [State.apfStep]

@[simp] theorem State.apfStep_estat (s : State) (i : Stage) (c : Nat) (x : NumT) :
    (s.apfStep i c x).estat = s.estat := by
  dsimp only [State.apfStep]

@[simp] theorem State.apfStep_fl (s : State) (i : Stage) (c : Nat) (x : NumT) :
    (s.apfStep i c x).fl = s.fl := by
  dsimp only [State.apfStep]

@[simp] theorem State.apfStep_ph_rate (s : State) (i : Stage) (c : Nat) (x : NumT) :
    (s.apfStep i c x).ph.rate = s.ph.rate := by
  dsimp only [State.apfStep]

@[simp] theorem State.apfStep_ph_depth (s : State) (i : Stage) (c : Nat) (x : NumT) :
    (s.apfStep i c x).ph.depth = s.ph.depth := by
  dsimp only [State.apfStep]

@[simp] theorem State.apfStep_ph_intensity (s : State) (i : Stage) (c : Nat) (x : NumT) :
    (s.apfStep i c x).ph.intensity = s.ph.intensity := by
  dsimp only [State.apfStep]

@[simp] theorem State.apfStep_ph_quad (s : State) (i : Stage) (c : Nat) (x : NumT) :
    (s.apfStep i c x).ph.quad = s.ph.quad := by
  dsimp only [State.apfStep]

@[simp] theorem State.apfStep_ph_fbsw (s : State) (i : Stage) (c : Nat) (x : NumT) :
    (s.apfStep i c x).ph.fbsw = s.ph.fbsw := by
  dsimp only [State.apfStep]

@[simp] theorem State.apfStep_ph_wave (s : State) (i : Stage) (c : Nat) (x : NumT) :
    (s.apfStep i c x).ph.wave = s.ph.wave := by
  dsimp only [State.apfStep]

@[simp] theorem State.apfStep_ph_fs (s : State) (i : Stage) (c : Nat) (x : NumT) :
    (s.apfStep i c x).ph.fs = s.ph.fs := by
  dsimp only [State.apfStep]

@[simp] theorem State.apfStep_ph_nch (s : State) (i : Stage) (c : Nat) (x : NumT) :
    (s.apfStep i c x).ph.nch = s.ph.nch := by
  dsimp only [State.apfStep]

@[simp] theorem State.apfStep_ph_init (s : State) (i : Stage) (c : Nat) (x : NumT) :
    (s.apfStep i c x).ph.init = s.ph.init := by
  dsimp only [State.apfStep]

@[simp] theorem State.apfStep_ph_phase (s : State) (i : Stage) (c : Nat) (x : NumT) :
    (s.apfStep i c x).ph.phase = s.ph.phase := by
  dsimp only [State.apfStep]

@[simp] theorem State.apfStep_ph_fc (s : State) (i : Stage) (c : Nat) (x : NumT) :
    (s.apfStep i c x).ph.fc = s.ph.fc := by
  dsimp only [State.apfStep]

@[simp] theorem State.apfStep_ph_d0 (s : State) (i : Stage) (c : Nat) (x : NumT) :
    (s.apfStep i c x).ph.d0 = s.ph.d0 := by
  dsimp only [State.apfStep]

@[simp] theorem State.apfStep_ph_q (s : State) (i : Stage) (c : Nat) (x : NumT) :
    (s.apfStep i c x).ph.q = s.ph.q := by
  dsimp only [State.apfStep]

@[simp] theorem State.apfStep_ph_boost (s : State) (i : Stage) (c : Nat) (x : NumT) :
    (s.apfStep i c x).ph.boost = s.ph.boost := by
  dsimp only [State.apfStep]

@[simp] theorem State.apfStep_ph_s (s : State) (i : Stage) (c : Nat) (x : NumT) :
    (s.apfStep i c x).ph.s = s.ph.s.set i ((s.ph.s.get i).put c (s.num.sub x (s.num.mul (s.ph.d0.get i) (s.apfOut i c x)))) := by
  dsimp only [State.apfStep]

/-! ## The phaser's engine reset and retuning -/

@[simp] theorem State.phLatch_cfg (s : State) (n : Nat) (fs : NumT) :
    (s.phLatch n fs).cfg = s.cfg := by
  dsimp only [State.phLatch]

@[simp] theorem State.phLatch_inputs (s : State) (n : Nat) (fs : NumT) :
    (s.phLatch n fs).inputs = s.inputs := by
  dsimp only [State.phLatch]

@[simp] theorem State.phLatch_cmd (s : State) (n : Nat) (fs : NumT) :
    (s.phLatch n fs).cmd = s.cmd := by
  dsimp only [State.phLatch]

@[simp] theorem State.phLatch_din (s : State) (n : Nat) (fs : NumT) :
    (s.phLatch n fs).din = s.din := by
  dsimp only [State.phLatch]

@[simp] theorem State.phLatch_status (s : State) (n : Nat) (fs : NumT) :
    (s.phLatch n fs).status = s.status := by
  dsimp only [State.phLatch]

@[simp] theorem State.phLatch_dout (s : State) (n : Nat) (fs : NumT) :
    (s.phLatch n fs).dout = s.dout := by
  dsimp only [State.phLatch]

@[simp] theorem State.phLatch_estat (s : State) (n : Nat) (fs : NumT) :
    (s.phLatch n fs).estat = s.estat := by
  dsimp only [State.phLatch]

@[simp] theorem State.phLatch_fl (s : State) (n : Nat) (fs : NumT) :
    (s.phLatch n fs).fl = s.fl := by
  dsimp only [State.phLatch]

@[simp] theorem State.phLatch_ph_rate (s : State) (n : Nat) (fs : NumT) :
    (s.phLatch n fs).ph.rate = s.ph.rate := by
  dsimp only [State.phLatch]

@[simp] theorem State.phLatch_ph_depth (s : State) (n : Nat) (fs : NumT) :
    (s.phLatch n fs).ph.depth = s.ph.depth := by
  dsimp only [State.phLatch]

@[simp] theorem State.phLatch_ph_intensity (s : State) (n : Nat) (fs : NumT) :
    (s.phLatch n fs).ph.intensity = s.ph.intensity := by
  dsimp only [State.phLatch]

@[simp] theorem State.phLatch_ph_quad (s : State) (n : Nat) (fs : NumT) :
    (s.phLatch n fs).ph.quad = s.ph.quad := by
  dsimp only [State.phLatch]

@[simp] theorem State.phLatch_ph_fbsw (s : State) (n : Nat) (fs : NumT) :
    (s.phLatch n fs).ph.fbsw = s.ph.fbsw := by
  dsimp only [State.phLatch]

@[simp] theorem State.phLatch_ph_wave (s : State) (n : Nat) (fs : NumT) :
    (s.phLatch n fs).ph.wave = s.ph.wave := by
  dsimp only [State.phLatch]

@[simp] theorem State.phLatch_ph_fs (s : State) (n : Nat) (fs : NumT) :
    (s.phLatch n fs).ph.fs = fs := by
  dsimp only [State.phLatch]

@[simp] theorem State.phLatch_ph_nch (s : State) (n : Nat) (fs : NumT) :
    (s.phLatch n fs).ph.nch = n := by
  dsimp only [State.phLatch]

@[simp] theorem State.phLatch_ph_init (s : State) (n : Nat) (fs : NumT) :
    (s.phLatch n fs).ph.init = s.ph.init := by
  dsimp only [State.phLatch]

@[simp] theorem State.phLatch_ph_phase (s : State) (n : Nat) (fs : NumT) :
    (s.phLatch n fs).ph.phase = Store.dropBelow s.ph.phase n := by
  dsimp only [State.phLatch]

@[simp] theorem State.phLatch_ph_fc (s : State) (n : Nat) (fs : NumT) :
    (s.phLatch n fs).ph.fc = s.ph.fc := by
  dsimp only [State.phLatch]

@[simp] theorem State.phLatch_ph_d0 (s : State) (n : Nat) (fs : NumT) :
    (s.phLatch n fs).ph.d0 = s.ph.d0 := by
  dsimp only [State.phLatch]

@[simp] theorem State.phLatch_ph_q (s : State) (n : Nat) (fs : NumT) :
    (s.phLatch n fs).ph.q = s.ph.q := by
  dsimp only [State.phLatch]

@[simp] theorem State.phLatch_ph_boost (s : State) (n : Nat) (fs : NumT) :
    (s.phLatch n fs).ph.boost = s.ph.boost := by
  dsimp only [State.phLatch]

@[simp] theorem State.phLatch_ph_s (s : State) (n : Nat) (fs : NumT) :
    (s.phLatch n fs).ph.s = ⟨Store.dropBelow s.ph.s.s0 n, Store.dropBelow s.ph.s.s1 n, Store.dropBelow s.ph.s.s2 n,
      Store.dropBelow s.ph.s.s3 n⟩ := by
  dsimp only [State.phLatch]

/-! ## The flanger's engine reset -/

@[simp] theorem State.flLatch_cfg (s : State) (n : Nat) (fs : NumT) :
    (s.flLatch n fs).cfg = s.cfg := by
  dsimp only [State.flLatch]

@[simp] theorem State.flLatch_inputs (s : State) (n : Nat) (fs : NumT) :
    (s.flLatch n fs).inputs = s.inputs := by
  dsimp only [State.flLatch]

@[simp] theorem State.flLatch_cmd (s : State) (n : Nat) (fs : NumT) :
    (s.flLatch n fs).cmd = s.cmd := by
  dsimp only [State.flLatch]

@[simp] theorem State.flLatch_din (s : State) (n : Nat) (fs : NumT) :
    (s.flLatch n fs).din = s.din := by
  dsimp only [State.flLatch]

@[simp] theorem State.flLatch_status (s : State) (n : Nat) (fs : NumT) :
    (s.flLatch n fs).status = s.status := by
  dsimp only [State.flLatch]

@[simp] theorem State.flLatch_dout (s : State) (n : Nat) (fs : NumT) :
    (s.flLatch n fs).dout = s.dout := by
  dsimp only [State.flLatch]

@[simp] theorem State.flLatch_estat (s : State) (n : Nat) (fs : NumT) :
    (s.flLatch n fs).estat = s.estat := by
  dsimp only [State.flLatch]

@[simp] theorem State.flLatch_ph (s : State) (n : Nat) (fs : NumT) :
    (s.flLatch n fs).ph = s.ph := by
  dsimp only [State.flLatch]

@[simp] theorem State.flLatch_fl_rate (s : State) (n : Nat) (fs : NumT) :
    (s.flLatch n fs).fl.rate = s.fl.rate := by
  dsimp only [State.flLatch]

@[simp] theorem State.flLatch_fl_depth (s : State) (n : Nat) (fs : NumT) :
    (s.flLatch n fs).fl.depth = s.fl.depth := by
  dsimp only [State.flLatch]

@[simp] theorem State.flLatch_fl_fb (s : State) (n : Nat) (fs : NumT) :
    (s.flLatch n fs).fl.fb = s.fl.fb := by
  dsimp only [State.flLatch]

@[simp] theorem State.flLatch_fl_inv (s : State) (n : Nat) (fs : NumT) :
    (s.flLatch n fs).fl.inv = s.fl.inv := by
  dsimp only [State.flLatch]

@[simp] theorem State.flLatch_fl_toneEn (s : State) (n : Nat) (fs : NumT) :
    (s.flLatch n fs).fl.toneEn = s.fl.toneEn := by
  dsimp only [State.flLatch]

@[simp] theorem State.flLatch_fl_fs (s : State) (n : Nat) (fs : NumT) :
    (s.flLatch n fs).fl.fs = fs := by
  dsimp only [State.flLatch]

@[simp] theorem State.flLatch_fl_nch (s : State) (n : Nat) (fs : NumT) :
    (s.flLatch n fs).fl.nch = n := by
  dsimp only [State.flLatch]

@[simp] theorem State.flLatch_fl_init (s : State) (n : Nat) (fs : NumT) :
    (s.flLatch n fs).fl.init = s.fl.init := by
  dsimp only [State.flLatch]

@[simp] theorem State.flLatch_fl_len (s : State) (n : Nat) (fs : NumT) :
    (s.flLatch n fs).fl.len = latchedLen s.cfg.p fs := by
  dsimp only [State.flLatch]

@[simp] theorem State.flLatch_fl_phase (s : State) (n : Nat) (fs : NumT) :
    (s.flLatch n fs).fl.phase = Store.dropBelow s.fl.phase n := by
  dsimp only [State.flLatch]

@[simp] theorem State.flLatch_fl_wpos (s : State) (n : Nat) (fs : NumT) :
    (s.flLatch n fs).fl.wpos = Store.dropBelow s.fl.wpos n := by
  dsimp only [State.flLatch]

@[simp] theorem State.flLatch_fl_buf (s : State) (n : Nat) (fs : NumT) :
    (s.flLatch n fs).fl.buf = s.fl.buf.clear (latchedLen s.cfg.p fs) n := by
  dsimp only [State.flLatch]

@[simp] theorem State.flLatch_fl_tz (s : State) (n : Nat) (fs : NumT) :
    (s.flLatch n fs).fl.tz = Store.dropBelow s.fl.tz n := by
  dsimp only [State.flLatch]

/-! ## The flanger's sample and the tone filter -/

@[simp] theorem State.flAdvance_cfg (s : State) (c : Nat) (x : NumT) :
    (s.flAdvance c x).cfg = s.cfg := by
  dsimp only [State.flAdvance]

@[simp] theorem State.flAdvance_inputs (s : State) (c : Nat) (x : NumT) :
    (s.flAdvance c x).inputs = s.inputs := by
  dsimp only [State.flAdvance]

@[simp] theorem State.flAdvance_cmd (s : State) (c : Nat) (x : NumT) :
    (s.flAdvance c x).cmd = s.cmd := by
  dsimp only [State.flAdvance]

@[simp] theorem State.flAdvance_din (s : State) (c : Nat) (x : NumT) :
    (s.flAdvance c x).din = s.din := by
  dsimp only [State.flAdvance]

@[simp] theorem State.flAdvance_status (s : State) (c : Nat) (x : NumT) :
    (s.flAdvance c x).status = s.status := by
  dsimp only [State.flAdvance]

@[simp] theorem State.flAdvance_dout (s : State) (c : Nat) (x : NumT) :
    (s.flAdvance c x).dout = s.dout := by
  dsimp only [State.flAdvance]

@[simp] theorem State.flAdvance_estat (s : State) (c : Nat) (x : NumT) :
    (s.flAdvance c x).estat = s.estat := by
  dsimp only [State.flAdvance]

@[simp] theorem State.flAdvance_ph (s : State) (c : Nat) (x : NumT) :
    (s.flAdvance c x).ph = s.ph := by
  dsimp only [State.flAdvance]

@[simp] theorem State.flAdvance_fl_rate (s : State) (c : Nat) (x : NumT) :
    (s.flAdvance c x).fl.rate = s.fl.rate := by
  dsimp only [State.flAdvance]

@[simp] theorem State.flAdvance_fl_depth (s : State) (c : Nat) (x : NumT) :
    (s.flAdvance c x).fl.depth = s.fl.depth := by
  dsimp only [State.flAdvance]

@[simp] theorem State.flAdvance_fl_fb (s : State) (c : Nat) (x : NumT) :
    (s.flAdvance c x).fl.fb = s.fl.fb := by
  dsimp only [State.flAdvance]

@[simp] theorem State.flAdvance_fl_inv (s : State) (c : Nat) (x : NumT) :
    (s.flAdvance c x).fl.inv = s.fl.inv := by
  dsimp only [State.flAdvance]

@[simp] theorem State.flAdvance_fl_toneEn (s : State) (c : Nat) (x : NumT) :
    (s.flAdvance c x).fl.toneEn = s.fl.toneEn := by
  dsimp only [State.flAdvance]

@[simp] theorem State.flAdvance_fl_fs (s : State) (c : Nat) (x : NumT) :
    (s.flAdvance c x).fl.fs = s.fl.fs := by
  dsimp only [State.flAdvance]

@[simp] theorem State.flAdvance_fl_nch (s : State) (c : Nat) (x : NumT) :
    (s.flAdvance c x).fl.nch = s.fl.nch := by
  dsimp only [State.flAdvance]

@[simp] theorem State.flAdvance_fl_init (s : State) (c : Nat) (x : NumT) :
    (s.flAdvance c x).fl.init = s.fl.init := by
  dsimp only [State.flAdvance]

@[simp] theorem State.flAdvance_fl_len (s : State) (c : Nat) (x : NumT) :
    (s.flAdvance c x).fl.len = s.fl.len := by
  dsimp only [State.flAdvance]

@[simp] theorem State.flAdvance_fl_phase (s : State) (c : Nat) (x : NumT) :
    (s.flAdvance c x).fl.phase = s.fl.phase.put c (s.flNextPhase c) := by
  dsimp only [State.flAdvance]

@[simp] theorem State.flAdvance_fl_wpos (s : State) (c : Nat) (x : NumT) :
    (s.flAdvance c x).fl.wpos = Store.set 0 s.fl.wpos c (imod (s.flWpos c + 1) s.fl.len) := by
  dsimp only [State.flAdvance]

@[simp] theorem State.flAdvance_fl_buf (s : State) (c : Nat) (x : NumT) :
    (s.flAdvance c x).fl.buf = s.fl.buf.write c (s.flWpos c) (s.num.add x (s.num.mul (s.flTap c) s.fl.fb)) := by
  dsimp only [State.flAdvance]

@[simp] theorem State.flAdvance_fl_tz (s : State) (c : Nat) (x : NumT) :
    (s.flAdvance c x).fl.tz = s.fl.tz := by
  dsimp only [State.flAdvance]

@[simp] theorem State.toneStep_cfg (s : State) (c : Nat) (x : NumT) :
    (s.toneStep c x).cfg = s.cfg := by
  dsimp only [State.toneStep]

@[simp] theorem State.toneStep_inputs (s : State) (c : Nat) (x : NumT) :
    (s.toneStep c x).inputs = s.inputs := by
  dsimp only [State.toneStep]

@[simp] theorem State.toneStep_cmd (s : State) (c : Nat) (x : NumT) :
    (s.toneStep c x).cmd = s.cmd := by
  dsimp only [State.toneStep]

@[simp] theorem State.toneStep_din (s : State) (c : Nat) (x : NumT) :
    (s.toneStep c x).din = s.din := by
  dsimp only [State.toneStep]

@[simp] theorem State.toneStep_status (s : State) (c : Nat) (x : NumT) :
    (s.toneStep c x).status = s.status := by
  dsimp only [State.toneStep]

@[simp] theorem State.toneStep_dout (s : State) (c : Nat) (x : NumT) :
    (s.toneStep c x).dout = s.dout := by
  dsimp only [State.toneStep]

@[simp] theorem State.toneStep_estat (s : State) (c : Nat) (x : NumT) :
    (s.toneStep c x).estat = s.estat := by
  dsimp only [State.toneStep]

@[simp] theorem State.toneStep_ph (s : State) (c : Nat) (x : NumT) :
    (s.toneStep c x).ph = s.ph := by
  dsimp only [State.toneStep]

@[simp] theorem State.toneStep_fl_rate (s : State) (c : Nat) (x : NumT) :
    (s.toneStep c x).fl.rate = s.fl.rate := by
  dsimp only [State.toneStep]

@[simp] theorem State.toneStep_fl_depth (s : State) (c : Nat) (x : NumT) :
    (s.toneStep c x).fl.depth = s.fl.depth := by
  dsimp only [State.toneStep]

@[simp] theorem State.toneStep_fl_fb (s : State) (c : Nat) (x : NumT) :
    (s.toneStep c x).fl.fb = s.fl.fb := by
  dsimp only [State.toneStep]

@[simp] theorem State.toneStep_fl_inv (s : State) (c : Nat) (x : NumT) :
    (s.toneStep c x).fl.inv = s.fl.inv := by
  dsimp only [State.toneStep]

@[simp] theorem State.toneStep_fl_toneEn (s : State) (c : Nat) (x : NumT) :
    (s.toneStep c x).fl.toneEn = s.fl.toneEn := by
  dsimp only [State.toneStep]

@[simp] theorem State.toneStep_fl_fs (s : State) (c : Nat) (x : NumT) :
    (s.toneStep c x).fl.fs = s.fl.fs := by
  dsimp only [State.toneStep]

@[simp] theorem State.toneStep_fl_nch (s : State) (c : Nat) (x : NumT) :
    (s.toneStep c x).fl.nch = s.fl.nch := by
  dsimp only [State.toneStep]

@[simp] theorem State.toneStep_fl_init (s : State) (c : Nat) (x : NumT) :
    (s.toneStep c x).fl.init = s.fl.init := by
  dsimp only [State.toneStep]

@[simp] theorem State.toneStep_fl_len (s : State) (c : Nat) (x : NumT) :
    (s.toneStep c x).fl.len = s.fl.len := by
  dsimp only [State.toneStep]

@[simp] theorem State.toneStep_fl_phase (s : State) (c : Nat) (x : NumT) :
    (s.toneStep c x).fl.phase = s.fl.phase := by
  dsimp only [State.toneStep]

@[simp] theorem State.toneStep_fl_wpos (s : State) (c : Nat) (x : NumT) :
    (s.toneStep c x).fl.wpos = s.fl.wpos := by
  dsimp only [State.toneStep]

@[simp] theorem State.toneStep_fl_buf (s : State) (c : Nat) (x : NumT) :
    (s.toneStep c x).fl.buf = s.fl.buf := by
  dsimp only [State.toneStep]

@[simp] theorem State.toneStep_fl_tz (s : State) (c : Nat) (x : NumT) :
    (s.toneStep c x).fl.tz = s.fl.tz.put c (s.num.add (s.num.mul (toneA s.cfg.p s.fl.fs) x)
      (s.num.mul (toneG s.cfg.p s.fl.fs) (s.toneLp c x))) := by
  dsimp only [State.toneStep]

/-! ## One value per stage -/

@[simp] theorem Four.get_set {α : Type} (f : Four α) (i j : Stage) (v : α) :
    (f.set i v).get j = if j = i then v else f.get j := by
  cases i <;> cases j <;> rfl

end Sys2Proof.Machine
end

