-- ==== Sys2Proof/Laws/Ops.lean ====
section
/-! SUPPORT. For each shared operation, once, everything it can do. -/

namespace Sys2Proof.Machine

open Sys2Proof

/-! ## Guards -/

@[simp] theorem State.whenInit_true (s k : State) (v : NumT) : s.whenInit true v k = k := rfl

@[simp] theorem State.whenInit_false (s k : State) (v : NumT) :
    s.whenInit false v k = s.raise .uninit v := rfl

/-- The initialisation guard lets the command through or ends it with `E_UNINIT`. -/
theorem State.whenInit_cases (s k : State) (b : Bool) (v : NumT) :
    (b = true ∧ s.whenInit b v k = k) ∨ (b = false ∧ s.whenInit b v k = s.raise .uninit v) := by
  cases b
  · exact .inr ⟨rfl, rfl⟩
  · exact .inl ⟨rfl, rfl⟩

theorem State.whenChannel_of_lt {s k : State} {c n : Nat} {v : NumT} (h : c < n) :
    s.whenChannel c n v k = k := if_pos h

theorem State.whenChannel_of_le {s k : State} {c n : Nat} {v : NumT} (h : n ≤ c) :
    s.whenChannel c n v k = s.raise .badCh v := if_neg (Nat.not_lt.mpr h)

/-- The channel guard lets the command through or ends it with `E_BADCH`. -/
theorem State.whenChannel_cases (s k : State) (c n : Nat) (v : NumT) :
    (c < n ∧ s.whenChannel c n v k = k) ∨ (n ≤ c ∧ s.whenChannel c n v k = s.raise .badCh v) := by
  rcases Nat.lt_or_ge c n with h | h
  · exact .inl ⟨h, State.whenChannel_of_lt h⟩
  · exact .inr ⟨h, State.whenChannel_of_le h⟩

/-- The two guards of a flanger command, in the order of rule R245. -/
theorem State.whenFl_cases (s k : State) (ch : BitVec 8) (v : NumT) :
    (s.fl.init = true ∧ ch.toNat < s.fl.nch ∧ s.whenFl ch v k = k) ∨
      (s.fl.init = false ∧ s.whenFl ch v k = s.raise .uninit v) ∨
      (s.fl.init = true ∧ s.fl.nch ≤ ch.toNat ∧ s.whenFl ch v k = s.raise .badCh v) := by
  unfold State.whenFl
  rcases State.whenInit_cases s (s.whenChannel ch.toNat s.fl.nch v k) s.fl.init v with ⟨h, e⟩ | ⟨h, e⟩
  · rcases State.whenChannel_cases s k ch.toNat s.fl.nch v with ⟨h', e'⟩ | ⟨h', e'⟩
    · exact .inl ⟨h, h', e.trans e'⟩
    · exact .inr (.inr ⟨h, h', e.trans e'⟩)
  · exact .inr (.inl ⟨h, e⟩)

/-- The two guards of an oscillator command, in the order of rule R245. -/
theorem State.whenLfo_cases (s k : State) (eng : Engine) (ch : BitVec 8) :
    (s.engInit eng = true ∧ ch.toNat < s.engNch eng ∧ s.whenLfo eng ch k = k) ∨
      (s.engInit eng = false ∧ s.whenLfo eng ch k = s.raise .uninit .zero) ∨
      (s.engInit eng = true ∧ s.engNch eng ≤ ch.toNat ∧ s.whenLfo eng ch k = s.raise .badCh .zero) := by
  unfold State.whenLfo
  rcases State.whenInit_cases s (s.whenChannel ch.toNat (s.engNch eng) .zero k) (s.engInit eng) .zero with
    ⟨h, e⟩ | ⟨h, e⟩
  · rcases State.whenChannel_cases s k ch.toNat (s.engNch eng) .zero with ⟨h', e'⟩ | ⟨h', e'⟩
    · exact .inl ⟨h, h', e.trans e'⟩
    · exact .inr (.inr ⟨h, h', e.trans e'⟩)
  · exact .inr (.inl ⟨h, e⟩)

/-! ## Operands -/

/-- Everything a write of a real-valued register can do (rules R27, R161, R201). -/
theorem State.setReal_cases (s : State) (ival : BitVec 8) (lo hi : NumT) (store : NumT → State → State) :
    (ival ≠ 0#8 ∧ s.setReal ival lo hi store = s.raise .illegal .zero) ∨
      (ival = 0#8 ∧ s.setReal ival lo hi store =
        (store (s.num.clamp s.din lo hi)
          (s.flagIf (decide (s.num.clamp s.din lo hi ≠ s.din)) .clamp)).respond .ok .zero) := by
  unfold State.setReal
  by_cases h : ival = 0#8
  · exact .inr ⟨h, by simp [h]⟩
  · exact .inl ⟨h, by simp [h]⟩

/-- Everything a write of a one-bit register can do (rules R161, R201). -/
theorem State.setBit_cases (s : State) (ival : BitVec 8) (store : Bool → State → State) :
    (∃ b, bitOfIval ival = some b ∧ s.setBit ival store = (store b s).respond .ok .zero) ∨
      (bitOfIval ival = none ∧ s.setBit ival store = s.raise .badVal .zero) := by
  unfold State.setBit
  cases h : bitOfIval ival with
  | some b => exact .inl ⟨b, rfl, rfl⟩
  | none => exact .inr ⟨rfl, rfl⟩

/-- Everything a write of the waveform register can do (rules R28, R161). -/
theorem State.setWave_cases (s : State) (ival : BitVec 8) (store : Wave → State → State) :
    (∃ w, waveOfCode ival.toNat = some w ∧ s.setWave ival store = (store w s).respond .ok .zero) ∨
      (waveOfCode ival.toNat = none ∧ s.setWave ival store = s.raise .badVal .zero) := by
  unfold State.setWave
  cases h : waveOfCode ival.toNat with
  | some b => exact .inl ⟨b, rfl, rfl⟩
  | none => exact .inr ⟨rfl, rfl⟩

/-! ## Events -/

/-- What the next step has to do, by the head of the host's list (rules R22, R96, R271). -/
theorem State.fetch_cases (s : State) :
    (s.inputs = [] ∧ s.fetch = .idle) ∨
      (∃ rest, s.inputs = .rst :: rest ∧ s.fetch = .reset { s.powerOn with inputs := rest }) ∨
      (∃ w d rest i, s.inputs = .cmd w d :: rest ∧ s.num.finite d = true ∧ decode w = .ok i ∧
        s.fetch = .run i (s.present w d rest)) ∨
      (∃ w d rest e, s.inputs = .cmd w d :: rest ∧ s.num.finite d = true ∧ decode w = .error e ∧
        s.fetch = .illegal ((s.present w d rest).raise .illegal .zero)) ∨
      (∃ w d rest, s.inputs = .cmd w d :: rest ∧ s.num.finite d = false ∧ s.fetch = .notFinite) := by
  unfold State.fetch
  cases hin : s.inputs with
  | nil => exact .inl ⟨rfl, rfl⟩
  | cons e rest =>
    cases e with
    | rst => exact .inr (.inl ⟨rest, rfl, rfl⟩)
    | cmd w d =>
      cases hf : s.num.finite d with
      | false => exact .inr (.inr (.inr (.inr ⟨w, d, rest, rfl, hf, by simp only [hf, Bool.false_eq_true, if_false]⟩)))
      | true =>
        cases hd : decode w with
        | ok i => exact .inr (.inr (.inl ⟨w, d, rest, i, rfl, hf, hd, by simp only [hf, hd, if_true]⟩))
        | error e => exact .inr (.inr (.inr (.inl ⟨w, d, rest, e, rfl, hf, hd, by simp only [hf, hd, if_true]⟩)))

/-- Everything one step can do. -/
theorem step_cases (s : State) :
    (s.inputs = [] ∧ step s = .next s) ∨
      (∃ rest, s.inputs = .rst :: rest ∧ step s = .next { s.powerOn with inputs := rest }) ∨
      (∃ w d rest i, s.inputs = .cmd w d :: rest ∧ s.num.finite d = true ∧ decode w = .ok i ∧
        step s = exec i (s.present w d rest)) ∨
      (∃ w d rest e, s.inputs = .cmd w d :: rest ∧ s.num.finite d = true ∧ decode w = .error e ∧
        step s = .next ((s.present w d rest).raise .illegal .zero)) ∨
      (∃ w d rest, s.inputs = .cmd w d :: rest ∧ s.num.finite d = false ∧ step s = .refused .notFinite) := by
  rcases State.fetch_cases s with ⟨h, e⟩ | ⟨rest, h, e⟩ | ⟨w, d, rest, i, h, hf, hd, e⟩ |
    ⟨w, d, rest, x, h, hf, hd, e⟩ | ⟨w, d, rest, h, hf, e⟩
  · exact .inl ⟨h, by unfold step; rw [e]⟩
  · exact .inr (.inl ⟨rest, h, by unfold step; rw [e]⟩)
  · exact .inr (.inr (.inl ⟨w, d, rest, i, h, hf, hd, by unfold step; rw [e]⟩))
  · exact .inr (.inr (.inr (.inl ⟨w, d, rest, x, h, hf, hd, by unfold step; rw [e]⟩)))
  · exact .inr (.inr (.inr (.inr ⟨w, d, rest, h, hf, by unfold step; rw [e]⟩)))

end Sys2Proof.Machine
end

