-- ==== Sys2Proof/Laws/Store.lean ====
section
/-! SUPPORT. The sparse arrays and the delay memory: what a read gives after a write, and that every
operation keeps the canonical form. -/

namespace Sys2Proof.Machine

open Sys2Proof

section
variable {α : Type}

/-! ## Reads after writes -/

@[simp] theorem Store.get_nil (d : α) (k : Nat) : Store.get d [] k = d := rfl

theorem Store.get_cons (d : α) (j : Nat) (v : α) (st : Store α) (k : Nat) :
    Store.get d ((j, v) :: st) k = if j = k then v else Store.get d st k := rfl

theorem Store.get_filter (d : α) (p : Nat → Bool) (st : Store α) (k : Nat) :
    Store.get d (st.filter fun e => p e.1) k = if p k then Store.get d st k else d := by
  induction st with
  | nil => simp
  | cons e st ih =>
    obtain ⟨j, v⟩ := e
    by_cases hj : j = k
    · subst hj
      by_cases hp : p j <;> simp_all [Store.get_cons]
    · by_cases hp : p j <;> simp_all [Store.get_cons]

theorem Store.get_erase (d : α) (st : Store α) (k j : Nat) :
    Store.get d (Store.erase st k) j = if j = k then d else Store.get d st j := by
  rw [Store.erase, Store.get_filter d (fun i => i != k)]
  by_cases h : j = k <;> simp [h]

theorem Store.get_insert (d : α) (st : Store α) (k : Nat) (v : α) (j : Nat) :
    Store.get d (Store.insert st k v) j = if j = k then v else Store.get d st j := by
  induction st with
  | nil => simp [Store.insert, Store.get_cons, eq_comm]
  | cons e st ih =>
    obtain ⟨i, u⟩ := e
    simp only [Store.insert]
    split
    · simp [Store.get_cons, eq_comm]
    · split
      · rename_i h
        subst h
        simp only [Store.get_cons]
        by_cases hj : i = j
        · simp [hj]
        · simp [hj, Ne.symm hj]
      · rename_i h1 h2
        simp only [Store.get_cons, ih]
        by_cases hj : i = j
        · subst hj
          simp [h2]
        · simp [hj]

/-- A read after a write: the value written at the index written, and everywhere else the old value. -/
@[simp] theorem Store.get_set [DecidableEq α] (d : α) (st : Store α) (k : Nat) (v : α) (j : Nat) :
    Store.get d (Store.set d st k v) j = if j = k then v else Store.get d st j := by
  unfold Store.set
  split
  · rename_i h
    rw [Store.get_erase, h]
  · exact Store.get_insert d st k v j

@[simp] theorem Store.get_dropBelow (d : α) (st : Store α) (n k : Nat) :
    Store.get d (Store.dropBelow st n) k = if n ≤ k then Store.get d st k else d := by
  rw [Store.dropBelow, Store.get_filter d (fun i => decide (n ≤ i))]
  simp

@[simp] theorem Store.at_put (st : Store NumT) (c : Nat) (v : NumT) (j : Nat) :
    (st.put c v).at j = if j = c then v else st.at j :=
  Store.get_set _ st c v j

@[simp] theorem Store.at_dropBelow (st : Store NumT) (n k : Nat) :
    Store.at (Store.dropBelow st n) k = if n ≤ k then st.at k else NumT.zero :=
  Store.get_dropBelow _ st n k

/-! ## The canonical form -/

theorem Store.wf_iff [DecidableEq α] (d : α) (st : Store α) :
    Store.wf d st = true ↔ (st.Pairwise fun e f => e.1 < f.1) ∧ ∀ e ∈ st, e.2 ≠ d := by
  simp [Store.wf]

@[simp] theorem Store.wf_nil [DecidableEq α] (d : α) : Store.wf d ([] : Store α) = true := rfl

theorem Store.wf_filter [DecidableEq α] {d : α} {st : Store α} (h : Store.wf d st = true)
    (p : Nat × α → Bool) : Store.wf d (st.filter p) = true := by
  rw [Store.wf_iff] at h ⊢
  exact ⟨h.1.filter p, fun e he => h.2 e (List.mem_of_mem_filter he)⟩

theorem Store.mem_insert {st : Store α} {k : Nat} {v : α} {e : Nat × α}
    (h : e ∈ Store.insert st k v) : e = (k, v) ∨ e ∈ st := by
  induction st with
  | nil => simpa [Store.insert] using h
  | cons f st ih =>
    obtain ⟨i, u⟩ := f
    simp only [Store.insert] at h
    split at h
    · simpa using h
    · split at h
      · rcases List.mem_cons.mp h with h | h
        · exact .inl h
        · exact .inr (List.mem_cons_of_mem _ h)
      · rcases List.mem_cons.mp h with h | h
        · exact .inr (h ▸ List.mem_cons_self ..)
        · exact (ih h).imp_right (List.mem_cons_of_mem _)

theorem Store.pairwise_insert {st : Store α} (h : st.Pairwise fun e f => e.1 < f.1) (k : Nat) (v : α) :
    (Store.insert st k v).Pairwise fun e f => e.1 < f.1 := by
  induction st with
  | nil => simp [Store.insert]
  | cons f st ih =>
    obtain ⟨i, u⟩ := f
    rw [List.pairwise_cons] at h
    simp only [Store.insert]
    split
    · rename_i hk
      rw [List.pairwise_cons, List.pairwise_cons]
      refine ⟨fun e he => ?_, h⟩
      rcases List.mem_cons.mp he with rfl | he
      · exact hk
      · exact hk.trans (h.1 e he)
    · split
      · rename_i hk
        subst hk
        rw [List.pairwise_cons]
        exact h
      · rename_i h1 h2
        rw [List.pairwise_cons]
        refine ⟨fun e he => ?_, ih h.2⟩
        rcases Store.mem_insert he with rfl | he
        · show i < k
          omega
        · exact h.1 e he

/-- A write keeps the canonical form. -/
theorem Store.wf_set [DecidableEq α] {d : α} {st : Store α} (h : Store.wf d st = true) (k : Nat) (v : α) :
    Store.wf d (Store.set d st k v) = true := by
  unfold Store.set
  split
  · exact Store.wf_filter h _
  · rename_i hv
    rw [Store.wf_iff] at h ⊢
    refine ⟨Store.pairwise_insert h.1 k v, fun e he => ?_⟩
    rcases Store.mem_insert he with rfl | he
    · exact hv
    · exact h.2 e he

theorem Store.wf_dropBelow [DecidableEq α] {d : α} {st : Store α} (h : Store.wf d st = true) (n : Nat) :
    Store.wf d (Store.dropBelow st n) = true := Store.wf_filter h _

theorem Store.wf_put {st : Store NumT} (h : Store.wf NumT.zero st = true) (c : Nat) (v : NumT) :
    Store.wf NumT.zero (st.put c v) = true := Store.wf_set h c v

/-- The element read is the unlisted value or a listed one. -/
theorem Store.get_mem (d : α) (st : Store α) (k : Nat) :
    Store.get d st k = d ∨ (k, Store.get d st k) ∈ st := by
  induction st with
  | nil => exact .inl rfl
  | cons e st ih =>
    obtain ⟨j, v⟩ := e
    rw [Store.get_cons]
    split
    · rename_i h
      subst h
      exact .inr (List.mem_cons_self ..)
    · exact ih.imp_right (List.mem_cons_of_mem _)

end

/-! ## The delay memory -/

/-- A word read after a word is written (spec/20_memory.md rule R74). -/
@[simp] theorem Memory.read_write (m : Memory) (c a : Nat) (v : NumT) (c' a' : Nat) :
    (m.write c a v).read c' a' = if c' = c ∧ a' = a then v else m.read c' a' := by
  simp only [Memory.read, Memory.write, Store.get_set]
  by_cases hc : c' = c
  · subst hc
    by_cases ha : a' = a <;> simp [ha]
  · simp [hc]

theorem Memory.read_clearBank (m : Memory) (c len c' a : Nat) :
    (m.clearBank c len).read c' a = if c' = c ∧ a < len then NumT.zero else m.read c' a := by
  simp only [Memory.read, Memory.clearBank, Store.get_set]
  by_cases hc : c' = c
  · subst hc
    by_cases ha : a < len <;> simp [ha, Nat.not_lt.mp, Nat.not_le.mpr]
  · simp [hc]

/-- What the engine reset leaves in the delay memory (rule R73). -/
@[simp] theorem Memory.read_clear (m : Memory) (len n c a : Nat) :
    (m.clear len n).read c a = if c < n ∧ a < len then NumT.zero else m.read c a := by
  induction n with
  | zero => simp [Memory.clear]
  | succ n ih =>
    rw [Memory.clear, Memory.read_clearBank, ih]
    by_cases ha : a < len
    · by_cases hc : c = n
      · simp [hc, ha]
      · have : c < n + 1 ↔ c < n := by omega
        simp [hc, ha, this]
    · simp [ha]

theorem Memory.wf_iff (m : Memory) :
    Memory.wf m = true ↔ Store.wf [] m = true ∧ ∀ e ∈ m, Store.wf NumT.zero e.2 = true := by
  simp [Memory.wf]

theorem Memory.bank_wf {m : Memory} (h : Memory.wf m = true) (c : Nat) :
    Store.wf NumT.zero (Store.get [] m c) = true := by
  rcases Store.get_mem [] m c with h' | h'
  · rw [h']
    rfl
  · exact ((Memory.wf_iff m).mp h).2 _ h'

theorem Memory.wf_setBank {m : Memory} (h : Memory.wf m = true) (c : Nat) {b : Store NumT}
    (hb : Store.wf NumT.zero b = true) : Memory.wf (Store.set [] m c b) = true := by
  rw [Memory.wf_iff] at h ⊢
  refine ⟨Store.wf_set h.1 c b, fun e he => ?_⟩
  unfold Store.set at he
  split at he
  · exact h.2 e (List.mem_of_mem_filter he)
  · rcases Store.mem_insert he with rfl | he
    · exact hb
    · exact h.2 e he

/-- A write to the delay memory keeps the canonical form. -/
theorem Memory.wf_write {m : Memory} (h : Memory.wf m = true) (c a : Nat) (v : NumT) :
    Memory.wf (m.write c a v) = true :=
  Memory.wf_setBank h c (Store.wf_set (Memory.bank_wf h c) a v)

/-- The engine reset's clearing keeps the canonical form. -/
theorem Memory.wf_clear {m : Memory} (h : Memory.wf m = true) (len n : Nat) :
    Memory.wf (m.clear len n) = true := by
  induction n with
  | zero => exact h
  | succ n ih => exact Memory.wf_setBank ih n (Store.wf_dropBelow (Memory.bank_wf ih n) len)

/-- The memory after the power-on reset has the canonical form. -/
theorem Memory.wf_reset : Memory.wf State.reset.fl.buf = true := rfl

end Sys2Proof.Machine
end

