-- ==== Sys2Proof/Laws/Engines.lean ====
section
/-! SUPPORT. What the engines' composite operations leave unchanged and what they write. -/

namespace Sys2Proof.Machine

open Sys2Proof

/-! ## Retuning the four stages -/

/-- Four retunings in stage order leave everything but `APF_FC`, `APF_D0` and `ESTAT`. -/
theorem State.apfSet4_frame (s : State) (v0 v1 v2 v3 : NumT) :
    let t := (((s.apfSet .s0 v0).apfSet .s1 v1).apfSet .s2 v2).apfSet .s3 v3
    t.cfg = s.cfg ∧ t.inputs = s.inputs ∧ t.cmd = s.cmd ∧ t.din = s.din ∧ t.status = s.status ∧
      t.dout = s.dout ∧ t.fl = s.fl ∧ t.ph = { s.ph with fc := t.ph.fc, d0 := t.ph.d0 } := by
  refine ⟨by simp, by simp, by simp, by simp, by simp, by simp, by simp, ?_⟩
  simp only [State.apfSet, State.flagIf_ph]

/-- Four retunings: every stage holds its clamped frequency and the coefficient of it. -/
theorem State.apfSet4_tuned (s : State) (v : Stage → NumT) (i : Stage) :
    let t := (((s.apfSet .s0 (v .s0)).apfSet .s1 (v .s1)).apfSet .s2 (v .s2)).apfSet .s3 (v .s3)
    t.ph.fc.get i = apfClampFc s.cfg.p (v i) s.ph.fs ∧
      t.ph.d0.get i = apfCoef s.num (apfClampFc s.cfg.p (v i) s.ph.fs) s.ph.fs := by
  cases i <;> simp

theorem State.phRetune_eq (s : State) (m : NumT) :
    s.phRetune m = (((s.apfSet .s0 (stageTarget s.cfg.p m .s0)).apfSet .s1 (stageTarget s.cfg.p m .s1)).apfSet
      .s2 (stageTarget s.cfg.p m .s2)).apfSet .s3 (stageTarget s.cfg.p m .s3) := rfl

/-- `PH.PROC` steps 1 to 3 write the phase of the one channel, the tuning, and `ESTAT`. -/
theorem State.phModulate_frame (s : State) (c : Nat) :
    (s.phModulate c).cfg = s.cfg ∧ (s.phModulate c).inputs = s.inputs ∧ (s.phModulate c).cmd = s.cmd ∧
      (s.phModulate c).din = s.din ∧ (s.phModulate c).fl = s.fl ∧
      (s.phModulate c).ph = { s.ph with
        phase := s.ph.phase.put c (s.phNextPhase c)
        fc := (s.phModulate c).ph.fc
        d0 := (s.phModulate c).ph.d0 } := by
  unfold State.phModulate
  rw [State.phRetune_eq]
  have h := State.apfSet4_frame { s with ph := { s.ph with phase := s.ph.phase.put c (s.phNextPhase c) } }
    (stageTarget s.cfg.p (s.phModulation c) .s0) (stageTarget s.cfg.p (s.phModulation c) .s1)
    (stageTarget s.cfg.p (s.phModulation c) .s2) (stageTarget s.cfg.p (s.phModulation c) .s3)
  exact ⟨h.1, h.2.1, h.2.2.1, h.2.2.2.1, h.2.2.2.2.2.2.1, h.2.2.2.2.2.2.2⟩

/-- `PH.PROC` step 3: every stage holds its clamped target frequency and the coefficient of it. -/
theorem State.phModulate_tuned (s : State) (c : Nat) (i : Stage) :
    (s.phModulate c).ph.fc.get i
        = apfClampFc s.cfg.p (stageTarget s.cfg.p (s.phModulation c) i) s.ph.fs ∧
      (s.phModulate c).ph.d0.get i
        = apfCoef s.num (apfClampFc s.cfg.p (stageTarget s.cfg.p (s.phModulation c) i) s.ph.fs) s.ph.fs := by
  unfold State.phModulate
  rw [State.phRetune_eq]
  exact State.apfSet4_tuned { s with ph := { s.ph with phase := s.ph.phase.put c (s.phNextPhase c) } }
    (stageTarget s.cfg.p (s.phModulation c)) i

/-- The stage state after `PH.PROC` step 8: `x − g·y` of the stage's input and output. -/
theorem State.cascadeStep_ph (s : State) (c : Nat) (u : NumT) :
    (s.cascadeStep c u).ph = { s.ph with s :=
      ⟨s.ph.s.s0.put c (s.num.sub u (s.num.mul s.ph.d0.s0 (s.cascadeOut c u).s0)),
        s.ph.s.s1.put c (s.num.sub (s.cascadeOut c u).s0 (s.num.mul s.ph.d0.s1 (s.cascadeOut c u).s1)),
        s.ph.s.s2.put c (s.num.sub (s.cascadeOut c u).s1 (s.num.mul s.ph.d0.s2 (s.cascadeOut c u).s2)),
        s.ph.s.s3.put c (s.num.sub (s.cascadeOut c u).s2 (s.num.mul s.ph.d0.s3 (s.cascadeOut c u).s3))⟩ } := by
  dsimp only [State.cascadeStep, State.cascadeOut, State.apfStep, State.apfOut, State.num, Four.get, Four.set]

/-- `PH.PROC` step 8 writes the four stage states and nothing else. -/
theorem State.cascadeStep_frame (s : State) (c : Nat) (u : NumT) :
    (s.cascadeStep c u).cfg = s.cfg ∧ (s.cascadeStep c u).inputs = s.inputs ∧
      (s.cascadeStep c u).cmd = s.cmd ∧ (s.cascadeStep c u).din = s.din ∧
      (s.cascadeStep c u).estat = s.estat ∧ (s.cascadeStep c u).fl = s.fl := by
  simp [State.cascadeStep]

/-! ## The flanger -/

/-- `FL.PROC` writes no register of the machine but the flanger's state and the response. -/
theorem State.flProcess_frame (s : State) (c : Nat) (x : NumT) :
    (s.flProcess c x).cfg = s.cfg ∧ (s.flProcess c x).inputs = s.inputs ∧ (s.flProcess c x).cmd = s.cmd ∧
      (s.flProcess c x).din = s.din ∧ (s.flProcess c x).estat = s.estat ∧ (s.flProcess c x).ph = s.ph ∧
      (s.flProcess c x).status = .ok := by
  unfold State.flProcess
  cases s.fl.toneEn <;> simp

/-- `FL.PROC` on the flanger: the phase, one word, the write position, and the tone filter if enabled. -/
theorem State.flProcess_fl (s : State) (c : Nat) (x : NumT) :
    (s.flProcess c x).fl = { s.fl with
      phase := s.fl.phase.put c (s.flNextPhase c)
      buf := s.fl.buf.write c (s.flWpos c) (s.num.add x (s.num.mul (s.flTap c) s.fl.fb))
      wpos := Store.set 0 s.fl.wpos c (imod (s.flWpos c + 1) s.fl.len)
      tz := (s.flProcess c x).fl.tz } := by
  unfold State.flProcess
  cases s.fl.toneEn <;> dsimp only [State.flAdvance, State.toneStep, State.respond, if_true, if_false] <;> rfl

end Sys2Proof.Machine
end

