-- ==== Sys2Proof/Laws/Numbers.lean ====
section
/-! SUPPORT. Under `NUM = REAL`: the constraints of the parameters, the tone filter's coefficients and the
buffer length as real numbers. And the wrap of an address. -/

namespace Sys2Proof.Machine

open Sys2Proof

/-! ## The constraints of spec/00_scope.md rule R6 -/

/-- What the constraints say of the real numbers, under `NUM = REAL`. -/
theorem Params.legal_real {p : Params} (hN : p.num = .real) (h : p.legal = true) :
    1 ≤ p.nchMax ∧ p.nchMax ≤ 255 ∧ 0 < p.fsMin.val ∧ p.fsMin.val ≤ p.fsMax.val ∧
      p.fcLo.val / p.fcHiFrac.val ≤ p.fsMin.val ∧ p.toneFc.val < p.fsMin.val / 2 ∧
      0 < p.fcLo.val ∧ 0 < p.fcHiFrac.val ∧ p.fcHiFrac.val < 1 / 2 ∧
      (∀ i, 0 < (p.fmin.get i).val ∧ (p.fmin.get i).val ≤ (p.fmax.get i).val) ∧
      0 < p.rateHi.val ∧ p.rateHi.val < p.fsMin.val ∧ 0 < p.epsDen.val ∧ p.epsDen.val < 1 ∧
      2 < p.baseDelay.val * p.fsMin.val ∧ 0 ≤ p.sweepMax.val ∧ 3 ≤ p.margin ∧ p.margin < p.bufCap ∧
      p.bufCap ≤ 65536 ∧ 0 < p.toneFc.val := by
  simp only [Params.legal, Params.bandOk, Params.bandsRise, Params.mixIs, Params.same, Params.lt, Params.le, hN,
    Num.real_lt, Num.real_le, Num.real_div, Num.real_mul, Bool.and_eq_true, Bool.or_eq_true, decide_eq_true_eq,
    NumT.lt_iff, NumT.le_iff, NumT.val_rat, NumT.val_div, NumT.val_mul] at h
  obtain ⟨⟨⟨⟨⟨⟨⟨⟨⟨⟨⟨⟨⟨⟨⟨⟨⟨⟨⟨⟨⟨⟨⟨⟨⟨⟨h1, h2⟩, h3⟩, h4⟩, h5⟩, h6⟩, h7⟩, h8⟩, h9⟩, b0⟩, b1⟩, b2⟩, b3⟩, _⟩, _⟩, _⟩,
    r1⟩, r2⟩, e1⟩, e2⟩, _⟩, d1⟩, d2⟩, m1⟩, m2⟩, m3⟩, t1⟩ := h
  norm_num at h3 h6 h7 h8 h9 r1 e1 e2 d1 d2 t1 b0 b1 b2 b3
  refine ⟨h1, h2, h3, h4, h5, h6, h7, h8, h9, ?_, r1, r2, e1, e2, d1, d2, m1, m2, m3, t1⟩
  intro i
  cases i
  exacts [b0, b1, b2, b3]

/-! ## The coefficients of spec/45_flanger.md rule R210, under `NUM = REAL` -/

theorem toneMu_val {p : Params} (hN : p.num = .real) : (toneMu p).val = Spec.toneMu p := by
  simp [toneMu, Spec.toneMu, hN]

theorem toneDelta_val {p : Params} (hN : p.num = .real) (fs : NumT) :
    (toneDelta p fs).val = Spec.toneDelta p fs.val := by
  have h : 2 * Real.pi * p.toneFc.val / fs.val / 2 = Real.pi * (p.toneFc.val / fs.val) := by ring
  simp only [toneDelta, Spec.toneDelta, hN, Num.real_mul, Num.real_div, Num.real_add, Num.real_tanpi, NumT.val_mul,
    NumT.val_div, NumT.val_add, NumT.val_one, NumT.val_rat, NumT.val_tanpi, toneMu_val hN, h]
  norm_num

theorem toneG_val {p : Params} (hN : p.num = .real) (fs : NumT) : (toneG p fs).val = Spec.toneG p fs.val := by
  simp [toneG, Spec.toneG, hN, toneDelta_val hN]

theorem toneA_val {p : Params} (hN : p.num = .real) (fs : NumT) : (toneA p fs).val = Spec.toneA p fs.val := by
  simp [toneA, Spec.toneA, hN, toneG_val hN]

theorem toneC_val {p : Params} (hN : p.num = .real) : (toneC p).val = Spec.toneC p := by
  simp [toneC, Spec.toneC, hN, toneMu_val hN]

/-! ## The length of spec/45_flanger.md rule R204, under `NUM = REAL` -/

theorem bufferLen_eq {p : Params} (hN : p.num = .real) (fs : NumT) :
    bufferLen p fs = ⌈(p.baseDelay.val + p.sweepMax.val) * fs.val⌉ + p.margin := by
  simp [bufferLen, hN, Num.ceil_eq]

/-! ## Addresses -/

/-- A reduced address lies below the length (spec/20_memory.md rule R72). -/
theorem imod_lt (a : Int) {len : Nat} (h : 0 < len) : imod a len < len := by
  have h1 := Int.emod_nonneg a (show (len : Int) ≠ 0 by omega)
  have h2 := Int.emod_lt_of_pos a (show (0 : Int) < len by omega)
  simp only [imod]
  omega

@[simp] theorem imod_natCast (a len : Nat) : imod a len = a % len := by
  simp only [imod]
  omega

/-- The write position after the next (rule R203 step 8). -/
theorem imod_succ (w len : Nat) : imod ((w : Int) + 1) len = (w + 1) % len := imod_natCast (w + 1) len

end Sys2Proof.Machine
end

