-- ==== Sys2Proof/Laws/PerInstr.lean ====
section
/-! SUPPORT. Per command: its encoding lies in its row of spec/30_encoding.md rule R95. -/

namespace Sys2Proof

/-- Words are masked byte by byte. -/
theorem packWord_and (a b c d a' b' c' d' : BitVec 8) :
    packWord a b c d &&& packWord a' b' c' d' = packWord (a &&& a') (b &&& b') (c &&& c') (d &&& d') := by
  have h : (((a ++ b) ++ (c ++ d)) &&& ((a' ++ b') ++ (c' ++ d')) : BitVec (8 + 8 + (8 + 8)))
      = ((a &&& a') ++ (b &&& b')) ++ ((c &&& c') ++ (d &&& d')) := by
    rw [BitVec.and_append, BitVec.and_append, BitVec.and_append]
  exact h

/-- The low bits of a stage byte are masked out by the row. -/
theorem stageByte_and (st : Stage) : stageByte st &&& 0xFC#8 = 0#8 := by cases st <;> decide

theorem fselByte_and (fsel : BitVec 2) : fselByte fsel &&& 0xFC#8 = 0#8 := by revert fsel; decide

theorem lfoByte_and_adv (xinc : Bool) (eng : Engine) : lfoByte 0#3 xinc false eng &&& 0xFA#8 = 0#8 := by
  cases xinc <;> cases eng <;> decide

theorem lfoByte_and_render (wave : BitVec 3) (quad : Bool) (eng : Engine) :
    lfoByte wave false quad eng &&& 0x8C#8 = 0#8 := by
  cases quad <;> cases eng <;> revert wave <;> decide

theorem lfoByte_and_getph (eng : Engine) : lfoByte 0#3 false false eng &&& 0xFE#8 = 0#8 := by
  cases eng <;> decide

namespace Laws

/-- The word the encoder writes lies in the command's own row: w AND mask = match. -/
def EncodesRow.Statement (i : Instr) : Prop := i.rowHolds (encode i)

theorem EncodesRow.nop : EncodesRow.Statement .nop := by
  show packWord _ _ _ _ &&& packWord 0xFF 0xFF 0xFF 0xFF = _; rfl

theorem EncodesRow.sysGete : EncodesRow.Statement .sysGete := by
  show packWord _ _ _ _ &&& packWord 0xFF 0xFF 0xFF 0xFF = _; rfl

theorem EncodesRow.sysClre : EncodesRow.Statement .sysClre := by
  show packWord _ _ _ _ &&& packWord 0xFF 0xFF 0xFF 0xFF = _; rfl

theorem EncodesRow.phReset (n : BitVec 8) : EncodesRow.Statement (.phReset n) := by
  show packWord _ _ _ _ &&& packWord 0xFF 0xFF 0xFF 0x00#8 = _
  rw [packWord_and, BitVec.and_zero]; rfl

theorem EncodesRow.phSetp (ival pid : BitVec 8) : EncodesRow.Statement (.phSetp ival pid) := by
  show packWord _ _ _ _ &&& packWord 0xFF 0xFF 0x00#8 0x00#8 = _
  rw [packWord_and, BitVec.and_zero, BitVec.and_zero]; rfl

theorem EncodesRow.phGetp (pid : BitVec 8) : EncodesRow.Statement (.phGetp pid) := by
  show packWord _ _ _ _ &&& packWord 0xFF 0xFF 0xFF 0x00#8 = _
  rw [packWord_and, BitVec.and_zero]; rfl

theorem EncodesRow.phProc (ch : BitVec 8) : EncodesRow.Statement (.phProc ch) := by
  show packWord _ _ _ _ &&& packWord 0xFF 0x00#8 0xFF 0xFF = _
  rw [packWord_and, BitVec.and_zero]; rfl

theorem EncodesRow.apfSetp (fsel : BitVec 2) (stage : Stage) :
    EncodesRow.Statement (.apfSetp fsel stage) := by
  show packWord _ _ _ _ &&& packWord 0xFF 0xFF 0xFC#8 0xFC#8 = _
  rw [packWord_and, fselByte_and, stageByte_and]; rfl

theorem EncodesRow.apfGetp (fsel : BitVec 2) (stage : Stage) :
    EncodesRow.Statement (.apfGetp fsel stage) := by
  show packWord _ _ _ _ &&& packWord 0xFF 0xFF 0xFC#8 0xFC#8 = _
  rw [packWord_and, fselByte_and, stageByte_and]; rfl

theorem EncodesRow.apfProc (ch : BitVec 8) (stage : Stage) :
    EncodesRow.Statement (.apfProc ch stage) := by
  show packWord _ _ _ _ &&& packWord 0xFF 0x00#8 0xFF 0xFC#8 = _
  rw [packWord_and, BitVec.and_zero, stageByte_and]; rfl

theorem EncodesRow.apfGetg (stage : Stage) : EncodesRow.Statement (.apfGetg stage) := by
  show packWord _ _ _ _ &&& packWord 0xFF 0xFF 0xFF 0xFC#8 = _
  rw [packWord_and, stageByte_and]; rfl

theorem EncodesRow.apfGets (ch : BitVec 8) (stage : Stage) :
    EncodesRow.Statement (.apfGets ch stage) := by
  show packWord _ _ _ _ &&& packWord 0xFF 0x00#8 0xFF 0xFC#8 = _
  rw [packWord_and, BitVec.and_zero, stageByte_and]; rfl

theorem EncodesRow.lfoAdv (ch : BitVec 8) (xinc : Bool) (eng : Engine) :
    EncodesRow.Statement (.lfoAdv ch xinc eng) := by
  show packWord _ _ _ _ &&& packWord 0xFF 0x00#8 0xFA#8 0xFF = _
  rw [packWord_and, BitVec.and_zero, lfoByte_and_adv]; rfl

theorem EncodesRow.lfoRender (ch : BitVec 8) (wave : BitVec 3) (quad : Bool) (eng : Engine) :
    EncodesRow.Statement (.lfoRender ch wave quad eng) := by
  show packWord _ _ _ _ &&& packWord 0xFF 0x00#8 0x8C#8 0xFF = _
  rw [packWord_and, BitVec.and_zero, lfoByte_and_render]; rfl

theorem EncodesRow.lfoGetph (ch : BitVec 8) (eng : Engine) :
    EncodesRow.Statement (.lfoGetph ch eng) := by
  show packWord _ _ _ _ &&& packWord 0xFF 0x00#8 0xFE#8 0xFF = _
  rw [packWord_and, BitVec.and_zero, lfoByte_and_getph]; rfl

theorem EncodesRow.flReset (n : BitVec 8) : EncodesRow.Statement (.flReset n) := by
  show packWord _ _ _ _ &&& packWord 0xFF 0xFF 0xFF 0x00#8 = _
  rw [packWord_and, BitVec.and_zero]; rfl

theorem EncodesRow.flSetp (ival pid : BitVec 8) : EncodesRow.Statement (.flSetp ival pid) := by
  show packWord _ _ _ _ &&& packWord 0xFF 0xFF 0x00#8 0x00#8 = _
  rw [packWord_and, BitVec.and_zero, BitVec.and_zero]; rfl

theorem EncodesRow.flGetp (pid : BitVec 8) : EncodesRow.Statement (.flGetp pid) := by
  show packWord _ _ _ _ &&& packWord 0xFF 0xFF 0xFF 0x00#8 = _
  rw [packWord_and, BitVec.and_zero]; rfl

theorem EncodesRow.flProc (ch : BitVec 8) : EncodesRow.Statement (.flProc ch) := by
  show packWord _ _ _ _ &&& packWord 0xFF 0x00#8 0xFF 0xFF = _
  rw [packWord_and, BitVec.and_zero]; rfl

theorem EncodesRow.dlRead (ch : BitVec 8) : EncodesRow.Statement (.dlRead ch) := by
  show packWord _ _ _ _ &&& packWord 0xFF 0x00#8 0xFF 0xFF = _
  rw [packWord_and, BitVec.and_zero]; rfl

theorem EncodesRow.dlPeek (ch : BitVec 8) (addr : BitVec 16) :
    EncodesRow.Statement (.dlPeek ch addr) := by
  show packWord _ _ _ _ &&& packWord 0xFF 0x00#8 0x00#8 0x00#8 = _
  rw [packWord_and, BitVec.and_zero, BitVec.and_zero, BitVec.and_zero]; rfl

theorem EncodesRow.dlGetw (ch : BitVec 8) : EncodesRow.Statement (.dlGetw ch) := by
  show packWord _ _ _ _ &&& packWord 0xFF 0x00#8 0xFF 0xFF = _
  rw [packWord_and, BitVec.and_zero]; rfl

theorem EncodesRow.toneProc (ch : BitVec 8) : EncodesRow.Statement (.toneProc ch) := by
  show packWord _ _ _ _ &&& packWord 0xFF 0x00#8 0xFF 0xFF = _
  rw [packWord_and, BitVec.and_zero]; rfl

theorem EncodesRow.toneGets (ch : BitVec 8) : EncodesRow.Statement (.toneGets ch) := by
  show packWord _ _ _ _ &&& packWord 0xFF 0x00#8 0xFF 0xFF = _
  rw [packWord_and, BitVec.and_zero]; rfl

end Laws

end Sys2Proof
end

