-- ==== Sys2Proof/Tests/Slice0.lean ====
section
/-! SUPPORT. The model's own tests. Expected values come from spec/30_encoding.md rules R96 and R100 and
from spec/95_test_vectors.md (the section is named at each); the last part shows, for every statement with
hypotheses, a state and operands that meet them. -/

namespace Sys2Proof.Tests

set_option Elab.async false

open Sys2Proof Sys2Proof.Machine

/-! ## Ill-formed commands (rule R96) -/

theorem test_wf_fsel3 : (Instr.apfSetp 3#2 .s0).wellFormed = false := by decide
theorem test_wf_getp_fsel3 : (Instr.apfGetp 3#2 .s0).wellFormed = false := by decide
theorem test_wf_setp_reserved_pid : (Instr.phSetp 0#8 7#8).wellFormed = false := by decide
theorem test_wf_setp_read_only : (Instr.phSetp 0#8 0x10#8).wellFormed = false := by decide
theorem test_wf_setp_ival_real : (Instr.phSetp 1#8 0#8).wellFormed = false := by decide
theorem test_wf_getp_reserved_pid : (Instr.phGetp 0x13#8).wellFormed = false := by decide
theorem test_wf_fl_setp_no_wave : (Instr.flSetp 0#8 5#8).wellFormed = false := by decide
theorem test_wf_fl_setp_read_only : (Instr.flSetp 0#8 0x13#8).wellFormed = false := by decide
theorem test_wf_fl_setp_ival_real : (Instr.flSetp 1#8 1#8).wellFormed = false := by decide
theorem test_wf_fl_getp_reserved_pid : (Instr.flGetp 5#8).wellFormed = false := by decide

/-! ## Decoding (rule R100; spec/95_test_vectors.md section 2) -/

theorem test_dec_nop : decode 0x00000000#32 = .ok .nop := by decide
theorem test_dec_sysGete : decode 0x01000000#32 = .ok .sysGete := by decide
theorem test_dec_sysClre : decode 0x02000000#32 = .ok .sysClre := by decide
theorem test_dec_phReset : decode 0x100000FF#32 = .ok (.phReset 255#8) := by decide
theorem test_dec_phSetp : decode 0x11000305#32 = .ok (.phSetp 3#8 5#8) := by decide
theorem test_dec_phGetp : decode 0x12000011#32 = .ok (.phGetp 0x11#8) := by decide
theorem test_dec_phProc : decode 0x13010000#32 = .ok (.phProc 1#8) := by decide
theorem test_dec_apfSetp : decode 0x20000201#32 = .ok (.apfSetp 2#2 .s1) := by decide
theorem test_dec_apfGetp : decode 0x21000103#32 = .ok (.apfGetp 1#2 .s3) := by decide
theorem test_dec_apfProc : decode 0x22010002#32 = .ok (.apfProc 1#8 .s2) := by decide
theorem test_dec_apfGetg : decode 0x23000003#32 = .ok (.apfGetg .s3) := by decide
theorem test_dec_apfGets : decode 0x24FF0001#32 = .ok (.apfGets 255#8 .s1) := by decide
theorem test_dec_lfoAdv : decode 0x30010400#32 = .ok (.lfoAdv 1#8 true .phaser) := by decide
theorem test_dec_lfoRender : decode 0x31012200#32 = .ok (.lfoRender 1#8 2#3 true .phaser) := by decide
theorem test_dec_lfoGetph : decode 0x32010100#32 = .ok (.lfoGetph 1#8 .flanger) := by decide
theorem test_dec_flReset : decode 0x40000001#32 = .ok (.flReset 1#8) := by decide
theorem test_dec_flSetp : decode 0x41000104#32 = .ok (.flSetp 1#8 4#8) := by decide
theorem test_dec_flGetp : decode 0x42000013#32 = .ok (.flGetp 0x13#8) := by decide
theorem test_dec_flProc : decode 0x43000000#32 = .ok (.flProc 0#8) := by decide
theorem test_dec_dlRead : decode 0x50000000#32 = .ok (.dlRead 0#8) := by decide
theorem test_dec_dlPeek : decode 0x5101FFFE#32 = .ok (.dlPeek 1#8 0xFFFE#16) := by decide
theorem test_dec_dlGetw : decode 0x52010000#32 = .ok (.dlGetw 1#8) := by decide
theorem test_dec_toneProc : decode 0x60000000#32 = .ok (.toneProc 0#8) := by decide
theorem test_dec_toneGets : decode 0x61010000#32 = .ok (.toneGets 1#8) := by decide

/-- Opcodes that are not in the table. -/
theorem test_dec_unassigned :
    ([0x03000000#32, 0x0F000000#32, 0x14000000#32, 0x25000000#32, 0x33000000#32, 0x44000000#32,
      0x53000000#32, 0x62000000#32, 0xFF000000#32].all
      fun w => decode w == .error .unassignedOpcode) = true := by decide

/-- Non-zero bits in must-be-zero fields. -/
theorem test_dec_mbz :
    ([0x00000001#32, 0x01000001#32, 0x10000100#32, 0x10010001#32, 0x12000105#32, 0x13000100#32,
      0x20010000#32, 0x20000004#32, 0x22000100#32, 0x23010000#32, 0x30000200#32, 0x30001000#32,
      0x31000400#32, 0x31000800#32, 0x31008000#32, 0x31000001#32, 0x32000200#32, 0x43000001#32,
      0x50000100#32].all fun w => decode w == .error .mustBeZero) = true := by decide

/-- What the decoder reads from a table row's bits; a number past 32 bits is no word. -/
theorem test_decodeTableWord :
    decodeTableWord 32 0x5101FFFF = some (.dlPeek 1#8 0xFFFF#16) ∧ decodeTableWord 32 0x03000000 = none ∧
      decodeTableWord 40 0x0100000000 = none := by decide

/-! ## Helpers -/

/-- Status and result of one command with the operand `d`. -/
def out (i : Instr) (d : Rat) (s : State) : Option (Status × NumT) :=
  match exec i { s with din := .rat d } with
  | .next t => some (t.status, t.dout)
  | .fault _ => none
  | .refused _ => none

/-- The state one command with the operand `d` leaves. -/
def after (i : Instr) (d : Rat) (s : State) : State :=
  match exec i { s with din := .rat d } with
  | .next t => t
  | .fault _ => s
  | .refused _ => s

/-- The next state of an outcome, if it is one. -/
def reached (o : Host.Outcome State Fault Refusal) : Option State :=
  match o with
  | .next t => some t
  | .fault _ => none
  | .refused _ => none

/-- The value lies within 10⁻¹¹ of `q`, by its enclosure. -/
def near (a : NumT) (q : Rat) : Bool :=
  match a.encl with
  | some x => decide ((q - 1 / 10 ^ 11) * scale ≤ x.lo) && decide ((x.hi : Rat) ≤ (q + 1 / 10 ^ 11) * scale)
  | none => false

/-- Configuration TCFG of spec/95_test_vectors.md. -/
def tcfg : Config :=
  ⟨{ Params.default with
    baseDelay := .rat (3 / 1000), sweepMax := .rat (4 / 1000), rateHi := .rat 500 }, by decide +kernel⟩

/-- Both engines initialised: the phaser with two channels at `pfs`, the flanger with two at 1000 Hz. -/
def ready (c : Config) (pfs : Rat) (len : Nat) : State :=
  let s := State.resetWith c
  { s with
    ph := { s.ph with init := true, nch := 2, fs := .rat pfs }
    fl := { s.fl with init := true, nch := 2, fs := .rat 1000, len := len } }

/-- The delay line of section 6, vector E: the words 1 to 7 written, depth 100. -/
def vectorE : State :=
  let s := ready tcfg 44100 10
  { s with fl := { s.fl with
    depth := .rat 100
    wpos := [(0, 7)]
    buf := [(0, [(0, .rat 1), (1, .rat 2), (2, .rat 3), (3, .rat 4), (4, .rat 5), (5, .rat 6),
      (6, .rat 7)])] } }

/-! ## Commands -/

theorem test_nop : reached (exec .nop { State.reset with estat := 8#7, status := .resetFail, dout := .rat 3 }) =
    some { State.reset with estat := 8#7, status := .ok, dout := .rat 0 } := by decide +kernel

/-- Rule R231's example. -/
theorem test_sysGete : out .sysGete 0 { State.reset with estat := 48#7 } = some (.ok, .rat 48) := by
  decide +kernel

theorem test_sysClre : out .sysClre 0 { State.reset with estat := 48#7 } = some (.ok, .rat 48) ∧
    (after .sysClre 0 { State.reset with estat := 48#7 }).estat = 0#7 := by decide +kernel

/-- Section 4: `PH.RESET 1, 1000` clamps the last stage. -/
theorem test_phReset_clamps :
    (after (.phReset 1#8) 1000 State.reset).ph.fc = ⟨.rat 100, .rat 200, .rat 400, .rat 450⟩ ∧
      (after (.phReset 1#8) 1000 State.reset).estat = 0x20#7 := by decide +kernel

/-- Section 5, reset failures. -/
theorem test_phReset_fails : out (.phReset 1#8) 192001 State.reset = some (.resetFail, .rat 0) ∧
    out (.phReset 3#8) 44100 State.reset = some (.resetFail, .rat 0) := by decide +kernel

/-- Section 5, parameter writes. -/
theorem test_phSetp_clamps : (after (.phSetp 0#8 0#8) 25 State.reset).ph.rate = .rat 20 ∧
    (after (.phSetp 0#8 0#8) 25 State.reset).estat = 0x20#7 := by decide +kernel

/-- Section 9, P3 command 4: the parabola is refused. -/
theorem test_phSetp_parabola : reached (exec (.phSetp 4#8 5#8) State.reset) =
    some { State.reset with status := .badVal, estat := 0x10#7 } := by decide +kernel

theorem test_phGetp_wave :
    out (.phGetp 5#8) 0 (after (.phSetp 3#8 5#8) 0 State.reset) = some (.ok, .rat 3) := by decide +kernel

/-- Section 5, vector A, first call. -/
theorem test_phProc_impulse :
    near (after (.phProc 0#8) 1 (ready Config.default 44100 16)).dout (1277797247183 / 10 ^ 12) = true := by
  decide +kernel

/-- Section 5, vector F, first call: the modulated stages, the last one clamped. -/
theorem test_phProc_modulated :
    (after (.phProc 0#8) 1 { ready Config.default 1000 16 with ph :=
      { (ready Config.default 1000 16).ph with rate := .rat 20, depth := .rat 100, wave := .tri } }).ph.fc =
      ⟨.rat 104, .rat 208, .rat 416, .rat 450⟩ := by decide +kernel

/-- Rule R144's examples. -/
theorem test_apfSetp_retunes :
    near ((after (.apfSetp 0#2 .s2) 1000 (ready Config.default 48000 16)).ph.d0.get .s2)
      (-876976462993 / 10 ^ 12) = true := by decide +kernel

theorem test_apfSetp_clamps :
    (after (.apfSetp 0#2 .s2) 30000 (ready Config.default 48000 16)).ph.fc.get .s2 = .rat 21600 ∧
      (after (.apfSetp 0#2 .s2) 30000 (ready Config.default 48000 16)).estat = 0x20#7 := by decide +kernel

theorem test_apfGetp_q : out (.apfGetp 1#2 .s3) 0 (ready Config.default 44100 16) =
    some (.ok, .rat (707 / 1000)) := by decide +kernel

/-- Section 4, third sequence, second sample: with coefficient 0 the stage is a one-sample delay. -/
theorem test_apfProc_delay :
    out (.apfProc 0#8 .s1) (-1) (after (.apfProc 0#8 .s1) 3 (ready Config.default 1000 16)) =
      some (.ok, .rat 3) := by decide +kernel

/-- Section 4: a bad channel passes the sample through. -/
theorem test_apfProc_bad_channel : out (.apfProc 2#8 .s0) (3 / 10) (ready Config.default 44100 16) =
    some (.badCh, .rat (3 / 10)) := by decide +kernel

/-- Rule R147's example. -/
theorem test_apfGetg :
    near (after (.apfGetg .s0) 0 (after (.phReset 1#8) 44100 State.reset)).dout
      (-985852955569 / 10 ^ 12) = true := by decide +kernel

theorem test_apfGets : out (.apfGets 1#8 .s1) 0 (after (.apfProc 1#8 .s1) 3 (ready Config.default 1000 16)) =
    some (.ok, .rat 3) := by decide +kernel

/-- Rule R125's example. -/
theorem test_lfoAdv_wraps :
    out (.lfoAdv 1#8 true .phaser) (1 / 4) (after (.lfoAdv 1#8 true .phaser) (9 / 10)
      (ready Config.default 44100 16)) = some (.ok, .rat (3 / 20)) := by decide +kernel

/-- Section 3: a negative increment. -/
theorem test_lfoAdv_negative :
    out (.lfoAdv 0#8 true .flanger) (-1 / 4) (after (.lfoAdv 0#8 true .flanger) (1 / 10)
      (ready Config.default 44100 16)) = some (.ok, .rat (17 / 20)) := by decide +kernel

/-- Rule R126's example. -/
theorem test_lfoRender_quad :
    out (.lfoRender 0#8 1#3 true .flanger) 0 (after (.lfoAdv 0#8 true .flanger) (1 / 8)
      (ready Config.default 44100 16)) = some (.ok, .rat (3 / 4)) := by decide +kernel

/-- Rule R245's examples: the channel is checked before the waveform. -/
theorem test_lfoRender_order : out (.lfoRender 5#8 7#3 false .phaser) 0 State.reset = some (.uninit, .rat 0) ∧
    out (.lfoRender 5#8 7#3 false .phaser) 0 (ready Config.default 44100 16) = some (.badCh, .rat 0) ∧
    out (.lfoRender 1#8 7#3 false .phaser) 0 (ready Config.default 44100 16) = some (.badVal, .rat 0) := by
  decide +kernel

theorem test_lfoGetph :
    out (.lfoGetph 0#8 .flanger) 0 (after (.lfoAdv 0#8 true .flanger) (1 / 8)
      (ready Config.default 44100 16)) = some (.ok, .rat (1 / 8)) := by decide +kernel

/-- Section 7, buffer lengths. -/
theorem test_flReset_lengths : (after (.flReset 1#8) 44100 State.reset).fl.len = 555 ∧
    (after (.flReset 1#8) 1000 (State.resetWith tcfg)).fl.len = 10 := by decide +kernel

theorem test_flReset_fails : out (.flReset 0#8) 44100 State.reset = some (.resetFail, .rat 0) := by
  decide +kernel

theorem test_flSetp_clamps : (after (.flSetp 0#8 2#8) (3 / 2) State.reset).fl.fb = .rat 1 := by
  decide +kernel

theorem test_flSetp_bad_bit : out (.flSetp 2#8 4#8) 0 State.reset = some (.badVal, .rat 0) := by
  decide +kernel

theorem test_flGetp_len : out (.flGetp 0x13#8) 0 vectorE = some (.ok, .rat 10) := by decide +kernel

/-- Section 6, vector F: the eighth input of vector E. -/
theorem test_flProc : out (.flProc 0#8) 8 vectorE = some (.ok, .rat 11) ∧
    (after (.flProc 0#8) 8 vectorE).fl.buf.read 0 7 = .rat 8 ∧
    (after (.flProc 0#8) 8 vectorE).fl.wpos = [(0, 8)] := by decide +kernel

/-- Section 5's order of checks: an uninitialised flanger passes the sample through. -/
theorem test_flProc_uninit : out (.flProc 0#8) (3 / 4) State.reset = some (.uninit, .rat (3 / 4)) := by
  decide +kernel

theorem test_dlRead_half : out (.dlRead 0#8) (7 / 2) vectorE = some (.ok, .rat (9 / 2)) := by decide +kernel

theorem test_dlRead_wraps : out (.dlRead 0#8) 7 vectorE = some (.ok, .rat 1) ∧
    out (.dlRead 0#8) (-1) vectorE = some (.ok, .rat 0) := by decide +kernel

theorem test_dlPeek : out (.dlPeek 0#8 4#16) 0 vectorE = some (.ok, .rat 5) ∧
    out (.dlPeek 0#8 10#16) 0 vectorE = some (.badVal, .rat 0) := by decide +kernel

theorem test_dlGetw : out (.dlGetw 0#8) 0 vectorE = some (.ok, .rat 7) := by decide +kernel

/-- Rule R211's example. -/
theorem test_toneProc :
    near (after (.toneProc 0#8) 1 vectorE).dout (712758357139 / 10 ^ 12) = true ∧
      near ((after (.toneProc 0#8) 1 vectorE).fl.tz.at 0) (488493365625 / 10 ^ 12) = true := by
  decide +kernel

theorem test_toneGets : out (.toneGets 1#8) 0 vectorE = some (.ok, .rat 0) := by decide +kernel

/-! ## The step -/

/-- Section 9, P3 command 5: an unassigned opcode. -/
theorem test_step_bad_word : reached (step (State.reset.withFetchWord 32 0x03000000)) =
    some { State.reset with cmd := 0x03000000#32, status := .illegal, estat := 1#7 } := by decide +kernel

theorem test_step_idle : reached (step State.reset) = some State.reset := by decide +kernel

theorem test_step_rst : reached (step { vectorE with inputs := [.rst], estat := 3#7 }) =
    some { State.resetWith tcfg with fl := { Flanger.reset with wpos := vectorE.fl.wpos, buf := vectorE.fl.buf } } := by
  decide +kernel

/-! ## Witnesses: for each statement with hypotheses, values that meet them -/

/-- `vectorE` with a command presented. -/
def fed (w : BitVec 32) (d : Rat) : State := { vectorE with inputs := [.cmd w (.rat d)] }

theorem witness_EncodeDecodeRoundTrip : decode 0x310173FF#32 = .error .mustBeZero ∧
    decode 0x31FF7300#32 = .ok (.lfoRender 255#8 7#3 true .flanger) := by decide

theorem witness_DecodeFollowsTable : decode 0x11FFFFFF#32 = .error .mustBeZero ∧
    decode 0x1100FFFF#32 = .ok (.phSetp 255#8 255#8) ∧
    (0x1100FFFF#32 &&& (Instr.phSetp 0#8 0#8).matchMask.2 = (Instr.phSetp 0#8 0#8).matchMask.1) := by decide

/-- The first and the last word of the range. -/
theorem witness_NopRespondsOnly : (fed 1#32 0).num.finite (.rat 0) = true ∧ (fed 1#32 0).inputs = [.cmd 1#32 (.rat 0)] ∧ 1 ≤ (1#32).toNat ∧
    (fed 0x00FFFFFF#32 0).inputs = [.cmd 0x00FFFFFF#32 (.rat 0)] ∧ (0x00FFFFFF#32).toNat ≤ 0x00FFFFFF :=
  ⟨rfl, rfl, by decide, rfl, by decide⟩

theorem witness_StepRunsDecoded : (fed 0x43000000#32 8).inputs = [.cmd 0x43000000#32 (.rat 8)] ∧
    (fed 0x43000000#32 8).num = .real ∧ decode 0x43000000#32 = .ok (.flProc 0#8) := ⟨rfl, rfl, by decide⟩

theorem witness_StepTakesHead :
    (∃ e rest, (fed 0x43000000#32 8).inputs = e :: rest ∧ ∃ t, step (fed 0x43000000#32 8) = .next t) ∧
      ∃ t, exec (.flProc 0#8) vectorE = .next t := ⟨⟨_, _, rfl, _, rfl⟩, _, rfl⟩

/-- No row's match is met by an unassigned opcode. -/
theorem witness_BadWordsRaiseIllegal_word :
    (fed 0x03000000#32 0).inputs = [.cmd 0x03000000#32 (.rat 0)] ∧
      (fed 0x03000000#32 0).num.finite (.rat 0) = true ∧ ∀ i : Instr, ¬ i.rowHolds 0x03000000#32 := by
  refine ⟨rfl, rfl, fun i => ?_⟩
  unfold Instr.rowHolds
  cases i <;> simp only [Instr.matchMask] <;> decide

theorem witness_BadWordsRaiseIllegal_value : (Instr.apfSetp 3#2 .s3).wellFormed = false ∧
    (Instr.phSetp 255#8 3#8).wellFormed = true ∧ ∃ t, exec (.phSetp 255#8 3#8) vectorE = .next t :=
  ⟨rfl, by decide, _, rfl⟩

theorem witness_ResetMeetsInvariants : Config.default.p.num = .real := rfl

theorem witness_PowerOnResetValues : { vectorE with inputs := [.rst] }.inputs = .rst :: [] := rfl

/-- Each error code: illegal, uninitialised, bad channel at the channel count, failed reset, bad value at the
buffer length. -/
theorem witness_ErrorChangesNothingElse :
    out (.phSetp 0#8 0x10#8) 0 vectorE = some (.illegal, .rat 0) ∧
      out (.apfProc 0#8 .s0) 1 State.reset = some (.uninit, .rat 1) ∧
      out (.toneProc 2#8) 1 vectorE = some (.badCh, .rat 1) ∧
      out (.flReset 1#8) 999 vectorE = some (.resetFail, .rat 0) ∧
      out (.dlPeek 1#8 10#16) 1 vectorE = some (.badVal, .rat 0) := by decide +kernel

theorem witness_FlagsStickyAndUnread : Instr.nop ≠ .sysGete ∧ Instr.nop ≠ .sysClre := by decide

theorem witness_ProbesChangeNothing : (Instr.dlPeek 0#8 9#16).isProbe = true ∧
    ∃ t, exec (.dlPeek 0#8 9#16) vectorE = .next t ∧ t.status = .ok := ⟨rfl, _, rfl, by decide +kernel⟩

theorem witness_EnginesIndependent : (Instr.lfoAdv 0#8 true .phaser).engine = some .phaser ∧
    (Instr.lfoAdv 0#8 true .flanger).engine = some .flanger ∧
    (∃ t, exec (.lfoAdv 0#8 true .phaser) vectorE = .next t) ∧
    ∃ t, exec (.lfoAdv 0#8 true .flanger) vectorE = .next t := ⟨rfl, rfl, ⟨_, rfl⟩, _, rfl⟩

theorem witness_InitRecordsLastReset : ∃ t, exec (.phReset 1#8) vectorE = .next t := ⟨_, rfl⟩

theorem witness_OtherChannelsUnchanged : (Instr.flProc 0#8).channel = some 0#8 ∧
    (∃ t, exec (.flProc 0#8) vectorE = .next t) ∧ 1 ≠ (0#8).toNat := ⟨rfl, ⟨_, rfl⟩, by decide⟩

/-- Two states that differ in channel 1 alone. -/
theorem witness_OtherChannelsUnread : (Instr.flProc 0#8).channel = some 0#8 ∧
    vectorE.SameChannel (0#8).toNat { vectorE with fl := { vectorE.fl with tz := [(1, .rat 3)] } } ∧
    ∃ t, exec (.flProc 0#8) vectorE = .next t :=
  ⟨rfl, ⟨rfl, rfl, rfl, rfl, fun _ => rfl, rfl, rfl, rfl, fun _ => rfl⟩, _, rfl⟩

theorem witness_DelayMemoryWriters : (∃ t, exec (.flProc 0#8) vectorE = .next t) ∧
    vectorE.flWpos (0#8).toNat = 7 ∧ ∃ t, exec (.flReset 1#8) vectorE = .next t := ⟨⟨_, rfl⟩, rfl, _, rfl⟩

theorem witness_StepKeepsCanonical : (fed 0x43000000#32 8).Canonical ∧
    ∃ t, step (fed 0x43000000#32 8) = .next t := by
  refine ⟨⟨rfl, fun i => ?_, rfl, rfl, by decide, by decide +kernel⟩, _, rfl⟩
  cases i <;> rfl

theorem vectorE_legal : vectorE.LegalRegisters := by
  simp only [State.LegalRegisters, NumT.Within, vectorE, ready, State.resetWith, Phaser.reset, Flanger.reset, tcfg,
    Params.default, NumT.zero, NumT.one, NumT.val_rat]
  norm_num

theorem witness_StepKeepsLegalRegisters : (fed 0x43000000#32 8).num = .real ∧
    (fed 0x43000000#32 8).LegalRegisters ∧ ∃ t, step (fed 0x43000000#32 8) = .next t :=
  ⟨rfl, vectorE_legal, _, rfl⟩

/-- Phase 0 and write position 7 below the length 10 latched for 1000 Hz. -/
theorem vectorE_geometry : vectorE.Geometry := by
  have hp : ∀ c, (vectorE.ph.phase.at c).val = 0 := fun c => by
    show (NumT.rat 0).val = 0
    simp
  have hf : ∀ c, (vectorE.fl.phase.at c).val = 0 := fun c => by
    show (NumT.rat 0).val = 0
    simp
  refine ⟨fun _ c _ => ?_, fun _ => ⟨?_, fun c hc => ⟨?_, ?_⟩⟩⟩
  · simp [hp c]
  · simp only [vectorE, ready, State.resetWith, tcfg, Params.default, NumT.val_rat]
    norm_num
  · have hc' : c < 2 := hc
    interval_cases c <;> decide
  · simp [hf c]

theorem witness_StepKeepsGeometry : (fed 0x43000000#32 8).num = .real ∧ (fed 0x43000000#32 8).Geometry ∧
    ∃ t, step (fed 0x43000000#32 8) = .next t := ⟨rfl, vectorE_geometry, _, rfl⟩

/-- An initialised phaser whose stages are all tuned to their midpoints at 44100 Hz. -/
def tuned : State :=
  let s := ready Config.default 44100 16
  let v : Four NumT := ⟨.rat 100, .rat 200, .rat 400, .rat 800⟩
  { s with
    inputs := [.cmd 0x13000000#32 (.rat 1)]
    ph := { s.ph with fc := v, d0 := ⟨apfCoef .real v.s0 s.ph.fs, apfCoef .real v.s1 s.ph.fs,
      apfCoef .real v.s2 s.ph.fs, apfCoef .real v.s3 s.ph.fs⟩ } }

theorem tuned_legal : tuned.LegalRegisters := by
  simp only [State.LegalRegisters, NumT.Within, tuned, ready, State.resetWith, Phaser.reset, Flanger.reset,
    Config.default, Params.default, NumT.zero, NumT.one, NumT.val_rat]
  norm_num

theorem witness_StepKeepsTuning : tuned.num = .real ∧ tuned.LegalRegisters ∧ tuned.Tuned ∧
    tuned.ph.init = true ∧ ∃ t, step tuned = .next t := by
  refine ⟨rfl, tuned_legal, fun _ i => ?_, rfl, _, rfl⟩
  have h : ∀ fc fs : NumT, (apfCoef .real fc fs).val = Spec.apfCoef fc.val fs.val := fun fc fs => by
    simp [apfCoef, Spec.apfCoef, mul_div_assoc]
  cases i <;>
    simp only [tuned, ready, State.resetWith, Config.default, Params.default, Four.get, h, NumT.val_rat] <;>
    norm_num

/-- Two states that differ in a word at the buffer length and in a channel at the channel count. -/
theorem witness_StaleStateNeverObserved : (fed 0x43000000#32 8).Geometry ∧
    (fed 0x43000000#32 8).SameLive { fed 0x43000000#32 8 with
      ph := { vectorE.ph with phase := [(2, .rat 9)] }
      fl := { vectorE.fl with tz := [(2, .rat 9)] } } ∧
    ∃ t, step (fed 0x43000000#32 8) = .next t := by
  refine ⟨vectorE_geometry, ⟨rfl, ⟨rfl, fun _ => ⟨rfl, fun c hc => ?_⟩⟩, rfl, fun _ c hc => ?_⟩, _, rfl⟩
  · have hc' : c < 2 := hc
    interval_cases c <;> exact ⟨rfl, fun _ => rfl⟩
  · have hc' : c < 2 := hc
    interval_cases c <;> exact ⟨rfl, rfl, rfl, fun _ _ => rfl⟩

/-- Three steps of a third, from a phase that is not rational by its form. -/
theorem witness_AdvancePeriodic : 0 ≤ ((NumT.sinTurn (.rat (1 / 12))).val) ∧
    (NumT.sinTurn (.rat (1 / 12))).val < 1 ∧
    (NumT.quot (.rat 1) (.rat 3)).val * (3 : Nat) = ((1 : ℤ) : ℝ) := by
  have h : (NumT.sinTurn (.rat (1 / 12))).val = 1 / 2 := by
    show Real.sin (2 * Real.pi * (((1 / 12 : ℚ)) : ℝ)) = 1 / 2
    rw [show 2 * Real.pi * (((1 / 12 : ℚ)) : ℝ) = Real.pi / 6 by push_cast; ring, Real.sin_pi_div_six]
  refine ⟨by rw [h]; norm_num, by rw [h]; norm_num, ?_⟩
  show ((1 : ℚ) : ℝ) / ((3 : ℚ) : ℝ) * _ = _
  norm_num

theorem witness_RenderFollowsFormula : (0 : ℝ) ≤ 0 ∧ (0 : ℝ) < 1 := ⟨le_rfl, one_pos⟩

/-- The last channel of either engine. -/
theorem witness_LfoAdvCompletes : vectorE.engInit .phaser = true ∧ (1#8).toNat < vectorE.engNch .phaser ∧
    vectorE.engInit .flanger = true ∧ (1#8).toNat < vectorE.engNch .flanger := by decide +kernel

theorem witness_LfoRenderAndGetphComplete : vectorE.engInit .flanger = true ∧
    (1#8).toNat < vectorE.engNch .flanger ∧ (3#3).toNat = waveCode .isaw ∧ (0#3).toNat = waveCode .sine := by
  decide +kernel

theorem witness_CoefficientFormulaAndBounds : (0 : ℝ) < 100 ∧ (100 : ℝ) < 44100 / 2 ∧ (100 : ℝ) < 11025 ∧
    (11025 : ℝ) < 44100 / 2 := by norm_num

theorem witness_FrequencyClampRange : Params.default.num = .real ∧ Params.default.legal = true ∧
    Params.default.fsMin.val ≤ 1000 := ⟨rfl, Config.default.legal, by simp [Params.default]⟩

theorem witness_StageStepEquation : tuned.num = .real := rfl

theorem witness_ApfSetpCompletes : tuned.ph.init = true ∧ tuned.num = .real := ⟨rfl, rfl⟩

theorem witness_ApfReadsComplete : tuned.ph.init = true ∧ (1#8).toNat < tuned.ph.nch := ⟨rfl, by decide⟩

theorem witness_ApfProcCompletes : tuned.num = .real ∧ tuned.ph.init = true ∧ (1#8).toNat < tuned.ph.nch :=
  ⟨rfl, rfl, by decide⟩

/-- The least rate and the largest channel count; the old frequencies at the bounds of the clauses: 450 Hz is the
upper bound at 1000 Hz, and the midpoint 800 Hz lies above it. -/
theorem witness_PhResetCompletes :
    let s := { State.reset with din := .rat 1000 }
    s.num = .real ∧ s.din.Within s.cfg.p.fsMin s.cfg.p.fsMax ∧ 1 ≤ (2#8).toNat ∧
      (2#8).toNat ≤ s.cfg.p.nchMax ∧ s.cfg.p.fcHiFrac.val * s.din.val = 450 ∧
      (s.ph.fc.get .s3).val = 800 ∧ (s.ph.fc.get .s2).val = 400 := by
  refine ⟨rfl, ?_, by decide, by decide, ?_, ?_, ?_⟩
  · simp only [NumT.Within, State.reset, State.resetWith, Config.default, Params.default, NumT.val_rat]
    norm_num
  · simp only [State.reset, State.resetWith, Config.default, Params.default, NumT.val_rat]
    norm_num
  all_goals
    simp only [State.reset, State.resetWith, Phaser.reset, Config.default, Params.midpoint, Params.default, Four.get,
      Num.real_add, Num.real_div, NumT.val_add, NumT.val_div, NumT.val_rat]
    norm_num

theorem witness_PhSetpCompletes : State.reset.num = .real ∧ (1#8).toNat ≤ 1 ∧ (0#8).toNat ≤ 1 ∧
    (3#8).toNat = waveCode .isaw := ⟨rfl, by decide⟩

/-- The last entry of each table. -/
theorem witness_GetpCompletes :
    let s := vectorE
    (0x12#8, NumT.rat 1) ∈ [(0x00#8, s.ph.rate), (0x01#8, s.ph.depth), (0x02#8, s.ph.intensity),
        (0x03#8, .rat (if s.ph.quad then 1 else 0)), (0x04#8, .rat (if s.ph.fbsw then 1 else 0)),
        (0x05#8, .rat (waveCode s.ph.wave)), (0x10#8, s.ph.fs), (0x11#8, .rat s.ph.nch),
        (0x12#8, NumT.rat (if s.ph.init then 1 else 0))] ∧
      (0x13#8, NumT.rat 10) ∈ [(0x00#8, s.fl.rate), (0x01#8, s.fl.depth), (0x02#8, s.fl.fb),
        (0x03#8, .rat (if s.fl.inv then 1 else 0)), (0x04#8, .rat (if s.fl.toneEn then 1 else 0)),
        (0x10#8, s.fl.fs), (0x11#8, .rat s.fl.nch), (0x12#8, .rat (if s.fl.init then 1 else 0)),
        (0x13#8, NumT.rat s.fl.len)] := by decide +kernel

theorem witness_PhProcTunesStages : tuned.num = .real ∧ tuned.ph.init = true ∧ (0#8).toNat < tuned.ph.nch :=
  ⟨rfl, rfl, by decide⟩

theorem witness_PhProcMixesCascade : tuned.num = .real ∧ tuned.ph.init = true ∧ (1#8).toNat < tuned.ph.nch :=
  ⟨rfl, rfl, by decide⟩

theorem witness_DenominatorClamp : Params.default.num = .real ∧ Params.default.legal = true :=
  ⟨rfl, Config.default.legal⟩

theorem witness_PhProcIgnoresOldTuning : tuned.ph.init = true ∧ (0#8).toNat < tuned.ph.nch :=
  ⟨rfl, by decide⟩

theorem witness_PhProcZeroIntensity : tuned.num = .real ∧ tuned.ph.init = true ∧ (0#8).toNat < tuned.ph.nch ∧
    tuned.ph.intensity.val = 0 :=
  ⟨rfl, rfl, by decide, by simp [tuned, ready, State.resetWith, Phaser.reset]⟩

theorem witness_CascadeOutputSplits : tuned.num = .real := rfl

/-- The largest rate and the largest channel count. -/
theorem witness_FlResetCompletes :
    let s := { State.reset with din := .rat 192000 }
    s.num = .real ∧ s.din.Within s.cfg.p.fsMin s.cfg.p.fsMax ∧ 1 ≤ (2#8).toNat ∧
      (2#8).toNat ≤ s.cfg.p.nchMax ∧
      ⌈(s.cfg.p.baseDelay.val + s.cfg.p.sweepMax.val) * s.din.val⌉ + (s.cfg.p.margin : ℤ) ≤ s.cfg.p.bufCap := by
  refine ⟨rfl, ?_, by decide, by decide, ?_⟩ <;>
    simp only [NumT.Within, State.reset, State.resetWith, Config.default, Params.default, NumT.val_rat] <;>
    norm_num

theorem witness_ResetTwiceIsOnce :
    vectorE.num = .real ∧ (∃ t, exec (.phReset 1#8) { vectorE with din := .rat 1000 } = .next t ∧ t.status = .ok) ∧
      ∃ t, exec (.flReset 1#8) { vectorE with din := .rat 1000 } = .next t ∧ t.status = .ok :=
  ⟨rfl, ⟨_, rfl, by decide +kernel⟩, _, rfl, by decide +kernel⟩

theorem witness_FlSetpCompletes : State.reset.num = .real ∧ (1#8).toNat ≤ 1 ∧ (0#8).toNat ≤ 1 :=
  ⟨rfl, by decide⟩

theorem witness_FlProcCompletes : vectorE.num = .real ∧ vectorE.fl.init = true ∧ (1#8).toNat < vectorE.fl.nch ∧
    vectorE.fl.toneEn = false ∧ { vectorE.fl with toneEn := true }.toneEn = true :=
  ⟨rfl, rfl, by decide, rfl, rfl⟩

theorem witness_FlProcZeroDepthPassthrough :
    let s := ready tcfg 44100 10
    s.num = .real ∧ s.fl.init = true ∧ (1#8).toNat < s.fl.nch ∧ s.fl.depth.val = 0 ∧ s.fl.toneEn = false :=
  ⟨rfl, rfl, by decide, by simp [ready, State.resetWith, Flanger.reset], rfl⟩

theorem witness_FlProcSilence :
    let s := ready tcfg 44100 10
    s.num = .real ∧ s.fl.init = true ∧ (1#8).toNat < s.fl.nch ∧ 0 < s.fl.len ∧ s.fl.toneEn = false ∧
      s.din.val = 0 ∧ ∀ a < s.fl.len, (s.fl.buf.read (1#8).toNat a).val = 0 :=
  ⟨rfl, rfl, by decide, by decide, rfl, by simp [ready, State.resetWith],
    fun a _ => by show (NumT.rat 0).val = 0; simp⟩

/-- Depth 100, at phase 0. -/
theorem witness_FlProcDelayBounds : vectorE.num = .real ∧ vectorE.LegalRegisters ∧ vectorE.Geometry ∧
    vectorE.fl.init = true ∧ 0 ≤ (NumT.rat 0).val ∧ (NumT.rat 0).val < 1 :=
  ⟨rfl, vectorE_legal, vectorE_geometry, rfl, by simp, by simp⟩

/-- The longest delay of the bound. -/
theorem witness_TapsAvoidWritePosition : (0 : Nat) < 10 ∧ 2 < (NumT.rat 7).val ∧
    (NumT.rat 7).val ≤ ((10 : Nat) : ℝ) - 3 := by
  norm_num

theorem witness_DelayReadFollowsTaps : vectorE.num = .real ∧ 0 < vectorE.fl.len := ⟨rfl, by decide⟩

/-- A whole delay that is not rational by its form. -/
theorem witness_WholeDelayReadsStoredWord : vectorE.num = .real ∧ 0 < vectorE.fl.len ∧
    (NumT.plus (.rat 1) (.rat 2)).val = ((3 : ℤ) : ℝ) := by
  refine ⟨rfl, by decide, ?_⟩
  show ((1 : ℚ) : ℝ) + ((2 : ℚ) : ℝ) = _
  norm_num

/-- The last word of the buffer. -/
theorem witness_DelayProbesComplete : vectorE.fl.init = true ∧ (1#8).toNat < vectorE.fl.nch ∧
    (9#16).toNat < vectorE.fl.len := ⟨rfl, by decide, by decide⟩

theorem witness_ToneCommandsComplete : vectorE.num = .real ∧ vectorE.fl.init = true ∧
    (1#8).toNat < vectorE.fl.nch := ⟨rfl, rfl, by decide⟩

theorem witness_ToneFilterStable : Params.default.num = .real ∧ Params.default.legal = true ∧
    Params.default.fsMin.val ≤ (NumT.rat 1000).val := ⟨rfl, Config.default.legal, by simp [Params.default]⟩

end Sys2Proof.Tests
end

/-! SUPPORT. The statements of spec/00_scope.md: the two engines are independent (rule R5), the clamp is that of
the real numbers (rule R11), and what the parameter constraints of rule R6 give the flanger's delay and its
tone filter. -/

namespace Sys2Proof

open Machine

/-! ## The spec's formulas on the real numbers (rules R129, R210, R214) -/

/-- Every waveform stays in [0, 1] over one cycle (rule R129 (a)). -/
theorem Spec.render_mem_unit (w : Wave) {p : ℝ} (h0 : 0 ≤ p) (h1 : p < 1) :
    0 ≤ Spec.render w p ∧ Spec.render w p ≤ 1 := by
  cases w with
  | sine =>
    have hlow := Real.neg_one_le_sin (2 * Real.pi * p)
    have hhigh := Real.sin_le_one (2 * Real.pi * p)
    constructor <;> norm_num [Spec.render] <;> linarith
  | tri =>
    simp only [Spec.render]
    split_ifs <;> constructor <;> linarith
  | saw =>
    simp only [Spec.render]
    split_ifs <;> constructor <;> linarith
  | isaw =>
    simp only [Spec.render]
    split_ifs <;> constructor <;> linarith

theorem Spec.toneMu_pos (p : Params) : 0 < Spec.toneMu p := Real.rpow_pos_of_pos (by norm_num) _

/-- The constraint `TONE_FC` < `FS_MIN`/2 keeps half the angle theta inside (0, π/2), where the tangent is
positive. -/
theorem Spec.toneDelta_pos {p : Params} (hN : p.num = .real) (hp : p.legal = true) {fs : ℝ}
    (hfs : p.fsMin.val ≤ fs) : 0 < Spec.toneDelta p fs := by
  obtain ⟨-, -, hmin, -, -, hfc, -, -, -, -, -, -, -, -, -, -, -, -, -, hpos⟩ := Params.legal_real hN hp
  have hratio : p.toneFc.val / fs < 1 / 2 := by
    rw [div_lt_iff₀ (by linarith)]
    linarith
  have hangle : 2 * Real.pi * p.toneFc.val / fs / 2 = Real.pi * (p.toneFc.val / fs) := by ring
  have htan : 0 < Real.tan (2 * Real.pi * p.toneFc.val / fs / 2) := by
    rw [hangle]
    refine Real.tan_pos_of_pos_of_lt_pi_div_two ?_ ?_
    · exact mul_pos Real.pi_pos (div_pos hpos (by linarith))
    · linarith [mul_lt_mul_of_pos_left hratio Real.pi_pos]
  have hmu := Spec.toneMu_pos p
  exact mul_pos (by positivity) htan

/-- `TONE_G` = (1 − delta)/(1 + delta) lies strictly between −1 and 1 for a positive delta. -/
theorem Spec.toneG_bounds {p : Params} {fs : ℝ} (hd : 0 < Spec.toneDelta p fs) :
    -1 < Spec.toneG p fs ∧ Spec.toneG p fs < 1 := by
  have hden : 0 < 1 + Spec.toneDelta p fs := by linarith
  unfold Spec.toneG
  constructor
  · rw [lt_div_iff₀ hden]
    linarith
  · rw [div_lt_one hden]
    linarith

/-- The low-pass `tone_step` has gain 2·`TONE_A`/(1 − `TONE_G`) = 1 at 0 Hz (rule R214). -/
theorem Spec.toneLowPass_gain {p : Params} {fs : ℝ} (hg : Spec.toneG p fs < 1) :
    2 * Spec.toneA p fs / (1 - Spec.toneG p fs) = 1 := by
  have hne : 1 - Spec.toneG p fs ≠ 0 := by linarith
  rw [Spec.toneA, mul_div_cancel₀ _ two_ne_zero, div_self hne]

end Sys2Proof

namespace Sys2Proof.Machine

open Sys2Proof

/-! ## The clamp (rule R11) -/

/-- The clamp hands back another datum exactly when one of its two tests holds: the bound it hands back then
denotes another real number than `x`. -/
theorem clamp_real_ne_iff (x lo hi : NumT) :
    Num.real.clamp x lo hi ≠ x ↔ x.val < lo.val ∨ hi.val < x.val := by
  rcases Num.clamp_cases .real x lo hi with ⟨below, e⟩ | ⟨notBelow, above, e⟩ | ⟨notBelow, notAbove, e⟩
  · have hlt : x.val < lo.val := (NumT.lt_iff x lo).mp below
    rw [e]
    exact iff_of_true (fun h => hlt.ne' (congrArg NumT.val h)) (.inl hlt)
  · have hlt : hi.val < x.val := (NumT.lt_iff hi x).mp above
    rw [e]
    exact iff_of_true (fun h => hlt.ne (congrArg NumT.val h)) (.inr hlt)
  · have hlo : lo.val ≤ x.val := (NumT.lt_eq_false_iff x lo).mp notBelow
    have hhi : x.val ≤ hi.val := (NumT.lt_eq_false_iff hi x).mp notAbove
    rw [e]
    exact iff_of_false (fun h => h rfl) (not_or.mpr ⟨hlo.not_gt, hhi.not_gt⟩)

/-- The clamp denotes the spec's clamp of the real numbers denoted. -/
theorem clamp_real_val (x lo hi : NumT) :
    (Num.real.clamp x lo hi).val = Spec.clamp x.val lo.val hi.val := by
  simp only [Num.clamp, Spec.clamp, Num.real_lt, NumT.lt_iff, apply_ite NumT.val]

/-- Settles O39, from the three outcomes of a clamp and the exactness of `lt` on the real numbers. -/
theorem clampFollowsReals : Obligations.ClampFollowsReals :=
  fun x lo hi => ⟨clamp_real_val x lo hi, clamp_real_ne_iff x lo hi⟩

/-! ## The tone filter (rules R6, R210, R213) -/

/-- Settles O60. The bounds rest on delta > 0, which the constraint `TONE_FC` < `FS_MIN`/2 gives. -/
theorem toneFilterStable : Obligations.ToneFilterStable := by
  intro p fs hN hp hfs mu
  have hd := Spec.toneDelta_pos hN hp hfs
  obtain ⟨hlow, hhigh⟩ := Spec.toneG_bounds hd
  rw [toneDelta_val hN, toneG_val hN, toneA_val hN, toneC_val hN]
  exact ⟨rfl, rfl, rfl, rfl, hd, hlow, hhigh, Spec.toneLowPass_gain hhigh⟩

/-! ## The delay of the flanger (rules R6, R203 to R205) -/

/-- Under `NUM = REAL` the rendered value denotes the spec's formula of the phase (rules R121 to R123). -/
theorem lfoRender_val (w : Wave) (p : NumT) : (lfoRender .real w p).val = Spec.render w p.val := by
  cases w with
  | sine => norm_num [lfoRender, renderSine, Spec.render]
  | tri => norm_num [lfoRender, renderTri, Spec.render, NumT.lt_iff, apply_ite NumT.val]
  | saw => norm_num [lfoRender, renderSaw, Spec.render, NumT.lt_iff, apply_ite NumT.val]
  | isaw => norm_num [lfoRender, renderIsaw, Spec.render, NumT.lt_iff, apply_ite NumT.val]

/-- The delay of rule R203 step 2 on the real numbers. -/
theorem State.flDelay_val {s : State} (hN : s.num = .real) (p : NumT) :
    (s.flDelay p).val = (s.cfg.p.baseDelay.val + s.fl.depth.val / 100 * s.cfg.p.sweepMax.val *
      Spec.render s.cfg.p.flWave p.val) * s.fl.fs.val := by
  have hnum : s.cfg.p.num = .real := hN
  simp [State.flDelay, State.flDepthScale, hnum, lfoRender_val]

/-- The rate and the depth of an initialised flanger with legal registers (rule R50). -/
theorem State.LegalRegisters.fl_rate_depth {s : State} (h : s.LegalRegisters) (hi : s.fl.init = true) :
    s.cfg.p.fsMin.val ≤ s.fl.fs.val ∧ 0 ≤ s.fl.depth.val ∧ s.fl.depth.val ≤ 100 := by
  obtain ⟨-, -, -, -, -, -, -, hdepth, -, hfs, -, -, -⟩ := h
  have hd : (0 : ℝ) ≤ s.fl.depth.val ∧ s.fl.depth.val ≤ 100 := by
    simpa [NumT.Within] using hdepth
  rcases hfs with ⟨-, hno⟩ | hin
  · simp [hi] at hno
  · exact ⟨hin.1, hd⟩

/-- The sweep of rule R205, depth·`SWEEP_MAX`·v, lies between 0 and `SWEEP_MAX`. -/
theorem sweep_bounds {depth sweepMax v : ℝ} (hd0 : 0 ≤ depth) (hd1 : depth ≤ 100) (hs : 0 ≤ sweepMax)
    (hv0 : 0 ≤ v) (hv1 : v ≤ 1) :
    0 ≤ depth / 100 * sweepMax * v ∧ depth / 100 * sweepMax * v ≤ sweepMax := by
  have hscale : depth / 100 * v ≤ 1 := mul_le_one₀ (by linarith) hv0 hv1
  refine ⟨by positivity, ?_⟩
  calc depth / 100 * sweepMax * v = depth / 100 * v * sweepMax := by ring
    _ ≤ 1 * sweepMax := mul_le_mul_of_nonneg_right hscale hs
    _ = sweepMax := one_mul _

/-- The longest delay of rule R204, (`BASE_DELAY` + `SWEEP_MAX`)·fs, fits the length with `MARGIN` words to spare. -/
theorem State.Geometry.longest_delay_le {s : State} (h : s.Geometry) (hi : s.fl.init = true) :
    (s.cfg.p.baseDelay.val + s.cfg.p.sweepMax.val) * s.fl.fs.val ≤ (s.fl.len : ℝ) - s.cfg.p.margin := by
  obtain ⟨-, hfl⟩ := h
  obtain ⟨hlen, -⟩ := hfl hi
  have hcast : (s.fl.len : ℝ)
      = (⌈(s.cfg.p.baseDelay.val + s.cfg.p.sweepMax.val) * s.fl.fs.val⌉ : ℝ) + s.cfg.p.margin := by
    exact_mod_cast hlen
  linarith [Int.le_ceil ((s.cfg.p.baseDelay.val + s.cfg.p.sweepMax.val) * s.fl.fs.val)]

/-- Settles O53. The delay is at least `BASE_DELAY`·fs, which is more than 2 for every rate of at least `FS_MIN`,
and at most (`BASE_DELAY` + `SWEEP_MAX`)·fs, whose ceiling is `FL_LEN` − `MARGIN`. -/
theorem flProcDelayBounds : Obligations.FlProcDelayBounds := by
  intro s p hN hreg hgeo hinit hp0 hp1
  obtain ⟨hfs, hdepth0, hdepth1⟩ := hreg.fl_rate_depth hinit
  obtain ⟨-, -, hmin, -, -, -, -, -, -, -, -, -, -, -, hbase, hsweep, -⟩ := Params.legal_real hN s.cfg.legal
  have hbasePos : 0 < s.cfg.p.baseDelay.val := pos_of_mul_pos_left (by linarith) hmin.le
  obtain ⟨hv0, hv1⟩ := Spec.render_mem_unit s.cfg.p.flWave hp0 hp1
  obtain ⟨hlow, hhigh⟩ := sweep_bounds hdepth0 hdepth1 hsweep hv0 hv1
  rw [State.flDelay_val hN]
  constructor
  · exact hbase.trans_le (mul_le_mul (by linarith) hfs hmin.le (by linarith))
  · exact (mul_le_mul_of_nonneg_right (by linarith) (by linarith)).trans (hgeo.longest_delay_le hinit)

/-! ## The independence of the two engines (rule R5)

`s.withOther e r` is `s` with the state of the engine that is not `e` taken from `r`. An operation that neither
reads nor writes the other engine's state commutes with this replacement, and only such an operation does: with
`r = s` the equation says that the other engine's state is left as it was. -/

/-- The state with the state of the engine other than `e` taken from `r`. -/
def State.withOther (s : State) (e : Engine) (r : State) : State :=
  match e with
  | .phaser => { s with fl := r.fl }
  | .flanger => { s with ph := r.ph }

/-- The replacement applied to the next state of an outcome. -/
def outcomeWithOther (e : Engine) (r : State) :
    Host.Outcome State Fault Refusal → Host.Outcome State Fault Refusal
  | .next s => .next (s.withOther e r)
  | .fault q => .fault q
  | .refused q => .refused q

/-! ### What the replacement leaves -/

@[simp] theorem State.withOther_cfg (s : State) (e : Engine) (r : State) : (s.withOther e r).cfg = s.cfg := by
  cases e <;> rfl

@[simp] theorem State.withOther_din (s : State) (e : Engine) (r : State) : (s.withOther e r).din = s.din := by
  cases e <;> rfl

@[simp] theorem State.withOther_phaser_ph (s r : State) : (s.withOther .phaser r).ph = s.ph := rfl

@[simp] theorem State.withOther_flanger_fl (s r : State) : (s.withOther .flanger r).fl = s.fl := rfl

@[simp] theorem State.withOther_engInit (s : State) (e : Engine) (r : State) :
    (s.withOther e r).engInit e = s.engInit e := by
  cases e <;> rfl

@[simp] theorem State.withOther_engNch (s : State) (e : Engine) (r : State) :
    (s.withOther e r).engNch e = s.engNch e := by
  cases e <;> rfl

@[simp] theorem State.withOther_engStep (s : State) (e : Engine) (r : State) :
    (s.withOther e r).engStep e = s.engStep e := by
  cases e <;> rfl

@[simp] theorem State.withOther_engPhase (s : State) (e : Engine) (r : State) (c : Nat) :
    (s.withOther e r).engPhase e c = s.engPhase e c := by
  cases e <;> rfl

/-! ### The shared operations commute with the replacement -/

section shared
variable (s k : State) (e : Engine) (r : State)

@[simp] theorem State.respond_withOther (st : Status) (v : NumT) :
    (s.withOther e r).respond st v = (s.respond st v).withOther e r := by
  cases e <;> rfl

@[simp] theorem State.raise_withOther (st : Status) (v : NumT) :
    (s.withOther e r).raise st v = (s.raise st v).withOther e r := by
  cases e <;> rfl

@[simp] theorem State.flag_withOther (g : Flag) :
    (s.withOther e r).flag g = (s.flag g).withOther e r := by
  cases e <;> rfl

@[simp] theorem State.flagIf_withOther (b : Bool) (g : Flag) :
    (s.withOther e r).flagIf b g = (s.flagIf b g).withOther e r := by
  cases b with
  | false => rfl
  | true => exact State.flag_withOther s e r g

@[simp] theorem State.whenInit_withOther (b : Bool) (v : NumT) :
    (s.withOther e r).whenInit b v (k.withOther e r) = (s.whenInit b v k).withOther e r := by
  cases b with
  | false => exact State.raise_withOther s e r .uninit v
  | true => rfl

@[simp] theorem State.whenChannel_withOther (c n : Nat) (v : NumT) :
    (s.withOther e r).whenChannel c n v (k.withOther e r) = (s.whenChannel c n v k).withOther e r := by
  rcases Nat.lt_or_ge c n with h | h
  · rw [State.whenChannel_of_lt h, State.whenChannel_of_lt h]
  · rw [State.whenChannel_of_le h, State.whenChannel_of_le h, State.raise_withOther]

@[simp] theorem State.whenLfo_withOther (ch : BitVec 8) :
    (s.withOther e r).whenLfo e ch (k.withOther e r) = (s.whenLfo e ch k).withOther e r := by
  simp [State.whenLfo]

@[simp] theorem State.whenFl_withOther (ch : BitVec 8) (v : NumT) :
    (s.withOther .flanger r).whenFl ch v (k.withOther .flanger r)
      = (s.whenFl ch v k).withOther .flanger r := by
  simp [State.whenFl]

theorem State.setReal_withOther (ival : BitVec 8) (lo hi : NumT) {store : NumT → State → State}
    (h : ∀ v t, store v (t.withOther e r) = (store v t).withOther e r) :
    (s.withOther e r).setReal ival lo hi store = (s.setReal ival lo hi store).withOther e r := by
  by_cases hz : ival ≠ 0#8
  · simp only [State.setReal, if_pos hz, State.raise_withOther]
  · have hnum : (s.withOther e r).num = s.num := by simp
    simp only [State.setReal, if_neg hz]
    rw [hnum, State.withOther_din, State.flagIf_withOther, h, State.respond_withOther]

theorem State.setBit_withOther (ival : BitVec 8) {store : Bool → State → State}
    (h : ∀ b t, store b (t.withOther e r) = (store b t).withOther e r) :
    (s.withOther e r).setBit ival store = (s.setBit ival store).withOther e r := by
  unfold State.setBit
  cases bitOfIval ival <;> simp [h]

theorem State.setWave_withOther (ival : BitVec 8) {store : Wave → State → State}
    (h : ∀ w t, store w (t.withOther e r) = (store w t).withOther e r) :
    (s.withOther e r).setWave ival store = (s.setWave ival store).withOther e r := by
  unfold State.setWave
  cases waveOfCode ival.toNat <;> simp [h]

@[simp] theorem State.setEngPhase_withOther (c : Nat) (p : NumT) :
    (s.withOther e r).setEngPhase e c p = (s.setEngPhase e c p).withOther e r := by
  cases e <;> rfl

end shared

/-! ### The oscillator commands, of either engine -/

theorem execLfoAdv_withOther (ch : BitVec 8) (xinc : Bool) (e : Engine) (s r : State) :
    execLfoAdv ch xinc e (s.withOther e r) = outcomeWithOther e r (execLfoAdv ch xinc e s) := by
  simp [execLfoAdv, outcomeWithOther]

theorem execLfoRender_withOther (ch : BitVec 8) (wave : BitVec 3) (quad : Bool) (e : Engine) (s r : State) :
    execLfoRender ch wave quad e (s.withOther e r) = outcomeWithOther e r (execLfoRender ch wave quad e s) := by
  unfold execLfoRender
  cases waveOfCode wave.toNat <;> simp [outcomeWithOther]

theorem execLfoGetph_withOther (ch : BitVec 8) (e : Engine) (s r : State) :
    execLfoGetph ch e (s.withOther e r) = outcomeWithOther e r (execLfoGetph ch e s) := by
  simp [execLfoGetph, outcomeWithOther]

/-! ### The phaser's operations -/

@[simp] theorem State.apfSet_withOther (s r : State) (i : Stage) (fc : NumT) :
    (s.withOther .phaser r).apfSet i fc = (s.apfSet i fc).withOther .phaser r := by
  simp only [State.apfSet, State.flagIf_withOther, State.withOther_cfg, State.withOther_phaser_ph, State.num_eq]
  rfl

@[simp] theorem State.setApfReg_withOther (s r : State) (i : Stage) (reg : ApfReg) (v : NumT) :
    (s.withOther .phaser r).setApfReg i reg v = (s.setApfReg i reg v).withOther .phaser r := by
  cases reg with
  | fc => exact State.apfSet_withOther s r i v
  | q => rfl
  | boost => rfl

@[simp] theorem State.retuneAll_withOther (s r : State) :
    (s.withOther .phaser r).retuneAll = s.retuneAll.withOther .phaser r := by
  simp [State.retuneAll]

@[simp] theorem State.phRetune_withOther (s r : State) (m : NumT) :
    (s.withOther .phaser r).phRetune m = (s.phRetune m).withOther .phaser r := by
  simp [State.phRetune]

@[simp] theorem State.phModulate_withOther (s r : State) (c : Nat) :
    (s.withOther .phaser r).phModulate c = (s.phModulate c).withOther .phaser r :=
  State.phRetune_withOther { s with ph := { s.ph with phase := s.ph.phase.put c (s.phNextPhase c) } } r
    (s.phModulation c)

@[simp] theorem State.cascadeStep_withOther (s r : State) (c : Nat) (u : NumT) :
    (s.withOther .phaser r).cascadeStep c u = (s.cascadeStep c u).withOther .phaser r := rfl

@[simp] theorem State.phProcess_withOther (s r : State) (c : Nat) (x : NumT) :
    (s.withOther .phaser r).phProcess c x = (s.phProcess c x).withOther .phaser r := by
  have hin (t : State) : (t.withOther .phaser r).cascadeIn c x = t.cascadeIn c x := rfl
  have hout (t : State) (u : NumT) : (t.withOther .phaser r).cascadeOut c u = t.cascadeOut c u := rfl
  have hden (t : State) : (t.withOther .phaser r).alphaDen = t.alphaDen := rfl
  simp [State.phProcess, hin, hout, hden]

/-! ### The phaser's commands -/

theorem execPhReset_withOther (n : BitVec 8) (s r : State) :
    execPhReset n (s.withOther .phaser r) = outcomeWithOther .phaser r (execPhReset n s) := by
  have hlatch : (s.withOther .phaser r).phLatch n.toNat s.din = (s.phLatch n.toNat s.din).withOther .phaser r := rfl
  have hinit (t : State) (b : Bool) :
      (t.withOther .phaser r).setPhInit b = (t.setPhInit b).withOther .phaser r := rfl
  simp [execPhReset, outcomeWithOther, hlatch, hinit, apply_ite (State.withOther · .phaser r)]

theorem execPhSetp_withOther (ival pid : BitVec 8) (s r : State) :
    execPhSetp ival pid (s.withOther .phaser r) = outcomeWithOther .phaser r (execPhSetp ival pid s) := by
  unfold execPhSetp
  refine congrArg Host.Outcome.next ?_
  cases PhReg.ofPid pid with
  | none => exact State.raise_withOther ..
  | some reg =>
    cases reg with
    | rate => exact State.setReal_withOther _ _ _ _ _ _ fun _ _ => rfl
    | depth => exact State.setReal_withOther _ _ _ _ _ _ fun _ _ => rfl
    | intensity => exact State.setReal_withOther _ _ _ _ _ _ fun _ _ => rfl
    | quad => exact State.setBit_withOther _ _ _ _ fun _ _ => rfl
    | fbsw => exact State.setBit_withOther _ _ _ _ fun _ _ => rfl
    | wave => exact State.setWave_withOther _ _ _ _ fun _ _ => rfl
    | fs => exact State.raise_withOther ..
    | nch => exact State.raise_withOther ..
    | init => exact State.raise_withOther ..

theorem execPhGetp_withOther (pid : BitVec 8) (s r : State) :
    execPhGetp pid (s.withOther .phaser r) = outcomeWithOther .phaser r (execPhGetp pid s) := by
  unfold execPhGetp
  cases PhReg.ofPid pid with
  | none => rfl
  | some reg => rfl

theorem execPhProc_withOther (ch : BitVec 8) (s r : State) :
    execPhProc ch (s.withOther .phaser r) = outcomeWithOther .phaser r (execPhProc ch s) := by
  simp [execPhProc, outcomeWithOther]

theorem execApfSetp_withOther (fsel : BitVec 2) (i : Stage) (s r : State) :
    execApfSetp fsel i (s.withOther .phaser r) = outcomeWithOther .phaser r (execApfSetp fsel i s) := by
  unfold execApfSetp
  cases ApfReg.ofFsel fsel <;> simp [outcomeWithOther]

theorem execApfGetp_withOther (fsel : BitVec 2) (i : Stage) (s r : State) :
    execApfGetp fsel i (s.withOther .phaser r) = outcomeWithOther .phaser r (execApfGetp fsel i s) := by
  have hreg (reg : ApfReg) : (s.withOther .phaser r).apfReg i reg = s.apfReg i reg := rfl
  unfold execApfGetp
  cases ApfReg.ofFsel fsel <;> simp [outcomeWithOther, hreg]

theorem execApfProc_withOther (ch : BitVec 8) (i : Stage) (s r : State) :
    execApfProc ch i (s.withOther .phaser r) = outcomeWithOther .phaser r (execApfProc ch i s) := by
  have hstep (c : Nat) (x : NumT) :
      (s.withOther .phaser r).apfStep i c x = (s.apfStep i c x).withOther .phaser r := rfl
  have hout (c : Nat) (x : NumT) : (s.withOther .phaser r).apfOut i c x = s.apfOut i c x := rfl
  simp [execApfProc, outcomeWithOther, hstep, hout]

theorem execApfGetg_withOther (i : Stage) (s r : State) :
    execApfGetg i (s.withOther .phaser r) = outcomeWithOther .phaser r (execApfGetg i s) := by
  simp [execApfGetg, outcomeWithOther]

theorem execApfGets_withOther (ch : BitVec 8) (i : Stage) (s r : State) :
    execApfGets ch i (s.withOther .phaser r) = outcomeWithOther .phaser r (execApfGets ch i s) := by
  simp [execApfGets, outcomeWithOther]

/-! ### The flanger's operations and commands -/

@[simp] theorem State.flAdvance_withOther (s r : State) (c : Nat) (x : NumT) :
    (s.withOther .flanger r).flAdvance c x = (s.flAdvance c x).withOther .flanger r := rfl

@[simp] theorem State.toneStep_withOther (s r : State) (c : Nat) (x : NumT) :
    (s.withOther .flanger r).toneStep c x = (s.toneStep c x).withOther .flanger r := rfl

@[simp] theorem State.toneOut_withOther (s r : State) (c : Nat) (x : NumT) :
    (s.withOther .flanger r).toneOut c x = s.toneOut c x := rfl

@[simp] theorem State.dlRead_withOther (s r : State) (c : Nat) (d : NumT) :
    (s.withOther .flanger r).dlRead c d = s.dlRead c d := rfl

@[simp] theorem State.flWpos_withOther (s r : State) (c : Nat) :
    (s.withOther .flanger r).flWpos c = s.flWpos c := rfl

@[simp] theorem State.flProcess_withOther (s r : State) (c : Nat) (x : NumT) :
    (s.withOther .flanger r).flProcess c x = (s.flProcess c x).withOther .flanger r := by
  have hout : (s.withOther .flanger r).flOut c x = s.flOut c x := rfl
  simp [State.flProcess, hout, apply_ite (State.withOther · .flanger r)]

theorem execFlReset_withOther (n : BitVec 8) (s r : State) :
    execFlReset n (s.withOther .flanger r) = outcomeWithOther .flanger r (execFlReset n s) := by
  have hlatch : (s.withOther .flanger r).flLatch n.toNat s.din = (s.flLatch n.toNat s.din).withOther .flanger r :=
    rfl
  have hinit (t : State) (b : Bool) :
      (t.withOther .flanger r).setFlInit b = (t.setFlInit b).withOther .flanger r := rfl
  simp [execFlReset, outcomeWithOther, hlatch, hinit, apply_ite (State.withOther · .flanger r)]

theorem execFlSetp_withOther (ival pid : BitVec 8) (s r : State) :
    execFlSetp ival pid (s.withOther .flanger r) = outcomeWithOther .flanger r (execFlSetp ival pid s) := by
  unfold execFlSetp
  refine congrArg Host.Outcome.next ?_
  cases FlReg.ofPid pid with
  | none => exact State.raise_withOther ..
  | some reg =>
    cases reg with
    | rate => exact State.setReal_withOther _ _ _ _ _ _ fun _ _ => rfl
    | depth => exact State.setReal_withOther _ _ _ _ _ _ fun _ _ => rfl
    | fb => exact State.setReal_withOther _ _ _ _ _ _ fun _ _ => rfl
    | inv => exact State.setBit_withOther _ _ _ _ fun _ _ => rfl
    | toneEn => exact State.setBit_withOther _ _ _ _ fun _ _ => rfl
    | fs => exact State.raise_withOther ..
    | nch => exact State.raise_withOther ..
    | init => exact State.raise_withOther ..
    | len => exact State.raise_withOther ..

theorem execFlGetp_withOther (pid : BitVec 8) (s r : State) :
    execFlGetp pid (s.withOther .flanger r) = outcomeWithOther .flanger r (execFlGetp pid s) := by
  unfold execFlGetp
  cases FlReg.ofPid pid with
  | none => rfl
  | some reg => rfl

theorem execFlProc_withOther (ch : BitVec 8) (s r : State) :
    execFlProc ch (s.withOther .flanger r) = outcomeWithOther .flanger r (execFlProc ch s) := by
  simp [execFlProc, outcomeWithOther]

theorem execDlRead_withOther (ch : BitVec 8) (s r : State) :
    execDlRead ch (s.withOther .flanger r) = outcomeWithOther .flanger r (execDlRead ch s) := by
  simp [execDlRead, outcomeWithOther]

theorem execDlPeek_withOther (ch : BitVec 8) (addr : BitVec 16) (s r : State) :
    execDlPeek ch addr (s.withOther .flanger r) = outcomeWithOther .flanger r (execDlPeek ch addr s) := by
  simp only [execDlPeek, outcomeWithOther]
  rw [← State.whenFl_withOther, apply_ite (State.withOther · .flanger r)]
  simp

theorem execDlGetw_withOther (ch : BitVec 8) (s r : State) :
    execDlGetw ch (s.withOther .flanger r) = outcomeWithOther .flanger r (execDlGetw ch s) := by
  simp [execDlGetw, outcomeWithOther]

theorem execToneProc_withOther (ch : BitVec 8) (s r : State) :
    execToneProc ch (s.withOther .flanger r) = outcomeWithOther .flanger r (execToneProc ch s) := by
  simp [execToneProc, outcomeWithOther]

theorem execToneGets_withOther (ch : BitVec 8) (s r : State) :
    execToneGets ch (s.withOther .flanger r) = outcomeWithOther .flanger r (execToneGets ch s) := by
  simp [execToneGets, outcomeWithOther]

/-! ### Every command -/

/-- A command of engine `e` commutes with the replacement of the other engine's state. -/
theorem exec_withOther {i : Instr} {e : Engine} (he : i.engine = some e) (s r : State) :
    exec i (s.withOther e r) = outcomeWithOther e r (exec i s) := by
  cases i with
  | nop | sysGete | sysClre => cases he
  | phReset n => cases he; exact execPhReset_withOther n s r
  | phSetp ival pid => cases he; exact execPhSetp_withOther ival pid s r
  | phGetp pid => cases he; exact execPhGetp_withOther pid s r
  | phProc ch => cases he; exact execPhProc_withOther ch s r
  | apfSetp fsel st => cases he; exact execApfSetp_withOther fsel st s r
  | apfGetp fsel st => cases he; exact execApfGetp_withOther fsel st s r
  | apfProc ch st => cases he; exact execApfProc_withOther ch st s r
  | apfGetg st => cases he; exact execApfGetg_withOther st s r
  | apfGets ch st => cases he; exact execApfGets_withOther ch st s r
  | lfoAdv ch xinc eng => cases he; exact execLfoAdv_withOther ch xinc _ s r
  | lfoRender ch wave quad eng => cases he; exact execLfoRender_withOther ch wave quad _ s r
  | lfoGetph ch eng => cases he; exact execLfoGetph_withOther ch _ s r
  | flReset n => cases he; exact execFlReset_withOther n s r
  | flSetp ival pid => cases he; exact execFlSetp_withOther ival pid s r
  | flGetp pid => cases he; exact execFlGetp_withOther pid s r
  | flProc ch => cases he; exact execFlProc_withOther ch s r
  | dlRead ch => cases he; exact execDlRead_withOther ch s r
  | dlPeek ch addr => cases he; exact execDlPeek_withOther ch addr s r
  | dlGetw ch => cases he; exact execDlGetw_withOther ch s r
  | toneProc ch => cases he; exact execToneProc_withOther ch s r
  | toneGets ch => cases he; exact execToneGets_withOther ch s r

theorem exec_withOther_next {i : Instr} {e : Engine} {s t : State} (he : i.engine = some e)
    (h : exec i s = .next t) (r : State) : exec i (s.withOther e r) = .next (t.withOther e r) := by
  rw [exec_withOther he, h]
  rfl

theorem State.withOther_self (s : State) (e : Engine) : s.withOther e s = s := by
  cases e <;> rfl

/-- A command of engine `e` leaves the other engine's state: putting back the old one changes nothing. -/
theorem exec_keeps_other {i : Instr} {e : Engine} {s t : State} (he : i.engine = some e)
    (h : exec i s = .next t) : t = t.withOther e s := by
  have hself := exec_withOther_next he h s
  rw [State.withOther_self, h] at hself
  exact Host.Outcome.next.inj hself

/-- Settles O15. That nothing is read is the commutation itself; that nothing is written is its case `r = s`. -/
theorem enginesIndependent : Obligations.EnginesIndependent := by
  constructor
  · intro i s t f he h
    have hfl : t.fl = s.fl := calc
      t.fl = (t.withOther .phaser s).fl := congrArg State.fl (exec_keeps_other he h)
      _ = s.fl := rfl
    exact ⟨hfl, exec_withOther_next he h { s with fl := f }⟩
  · intro i s t p he h
    have hph : t.ph = s.ph := calc
      t.ph = (t.withOther .flanger s).ph := congrArg State.ph (exec_keeps_other he h)
      _ = s.ph := rfl
    exact ⟨hph, exec_withOther_next he h { s with ph := p }⟩

end Sys2Proof.Machine

/-! SUPPORT. The statements of spec/10_state.md: what a step takes from the host's list (rules R22, R58, R271), the
power-on values (rule R59), the sticky flags (rule R26), the invariants of the registers (rules R27, R41 to R43,
R50 to R53) and that stale elements are never observed (rules R29, R51). -/

namespace Sys2Proof.Machine

open Sys2Proof

/-! ## One step, by the head of the host's list (rules R9, R22, R96, R271) -/

theorem step_of_nil {s : State} (h : s.inputs = []) : step s = .next s := by
  simp only [step, State.fetch, h]

theorem step_of_rst {s : State} {rest : List Event} (h : s.inputs = .rst :: rest) :
    step s = .next { s.powerOn with inputs := rest } := by
  simp only [step, State.fetch, h]

theorem step_of_run {s : State} {w : BitVec 32} {d : NumT} {rest : List Event} {i : Instr}
    (h : s.inputs = .cmd w d :: rest) (hf : s.num.finite d = true) (hd : decode w = .ok i) :
    step s = exec i (s.present w d rest) := by
  simp only [step, State.fetch, h, hf, hd, if_true]

theorem step_of_illegal {s : State} {w : BitVec 32} {d : NumT} {rest : List Event} {x : DecodeError}
    (h : s.inputs = .cmd w d :: rest) (hf : s.num.finite d = true) (hd : decode w = .error x) :
    step s = .next ((s.present w d rest).raise .illegal .zero) := by
  simp only [step, State.fetch, h, hf, hd, if_true]

theorem step_of_notFinite {s : State} {w : BitVec 32} {d : NumT} {rest : List Event}
    (h : s.inputs = .cmd w d :: rest) (hf : s.num.finite d = false) : step s = .refused .notFinite := by
  simp only [step, State.fetch, h, hf, Bool.false_eq_true, if_false]

/-- Everything a step that answers a next state can have done. -/
theorem step_next_cases {s t : State} (h : step s = .next t) :
    (s.inputs = [] ∧ t = s) ∨
      (∃ rest, s.inputs = .rst :: rest ∧ t = { s.powerOn with inputs := rest }) ∨
      (∃ w d rest i, s.inputs = .cmd w d :: rest ∧ s.num.finite d = true ∧ decode w = .ok i ∧
        exec i (s.present w d rest) = .next t) ∨
      (∃ w d rest x, s.inputs = .cmd w d :: rest ∧ s.num.finite d = true ∧ decode w = .error x ∧
        t = (s.present w d rest).raise .illegal .zero) := by
  rcases step_cases s with ⟨hin, e⟩ | ⟨rest, hin, e⟩ | ⟨w, d, rest, i, hin, hf, hd, e⟩ |
    ⟨w, d, rest, x, hin, hf, hd, e⟩ | ⟨w, d, rest, hin, hf, e⟩ <;> rw [e] at h
  · exact .inl ⟨hin, (Host.Outcome.next.inj h).symm⟩
  · exact .inr (.inl ⟨rest, hin, (Host.Outcome.next.inj h).symm⟩)
  · exact .inr (.inr (.inl ⟨w, d, rest, i, hin, hf, hd, h⟩))
  · exact .inr (.inr (.inr ⟨w, d, rest, x, hin, hf, hd, (Host.Outcome.next.inj h).symm⟩))
  · cases h

/-- A property of the machine holds after a step if it holds before it, after the power-on reset, after a refused word
and after a command that is run. -/
theorem step_preserves {I : State → Prop} {s t : State} (h : step s = .next t) (hs : I s)
    (hrst : ∀ rest, I { s.powerOn with inputs := rest })
    (hbad : ∀ w d rest, I ((s.present w d rest).raise .illegal .zero))
    (hexec : ∀ w d rest i, exec i (s.present w d rest) = .next t → I t) : I t := by
  rcases step_next_cases h with ⟨-, rfl⟩ | ⟨rest, -, rfl⟩ | ⟨w, d, rest, i, -, -, -, he⟩ |
    ⟨w, d, rest, x, -, -, -, rfl⟩
  · exact hs
  · exact hrst rest
  · exact hexec w d rest i he
  · exact hbad w d rest

/-- Settles O7, from the equation of a step whose word decodes. -/
theorem stepRunsDecoded : Obligations.StepRunsDecoded := by
  constructor
  · intro s w d rest i hin hd
    split
    · next hf => exact step_of_run hin hf hd
    · next hf => exact step_of_notFinite hin (Bool.not_eq_true _ ▸ hf)
  · intro s d hN
    rw [hN]
    exact Num.real_finite d

/-! ## The power-on values (rules R59, R270) -/

theorem State.resetWith_powerOnValues (c : Config) : (State.resetWith c).PowerOnValues c.p := by
  refine ⟨rfl, rfl, rfl, rfl, rfl, rfl, rfl, rfl, rfl, rfl, rfl, rfl, fun i => ?_, rfl, rfl, rfl, rfl, rfl, rfl, rfl,
    rfl, rfl⟩
  cases i <;> exact ⟨rfl, rfl, rfl⟩

theorem State.powerOn_powerOnValues (s : State) (rest : List Event) :
    State.PowerOnValues s.cfg.p { s.powerOn with inputs := rest } :=
  State.resetWith_powerOnValues s.cfg

/-- Settles O10. The event `rst` gives every element the column names the value of the state after reset. -/
theorem powerOnResetValues : Obligations.PowerOnResetValues :=
  ⟨State.resetWith_powerOnValues, fun s rest hin =>
    ⟨_, step_of_rst hin, rfl, rfl, State.powerOn_powerOnValues s rest⟩⟩

/-! ## What a command can do to the two engines

`PhaserRun s p` and `FlangerRun s f` say everything that a command other than an engine reset can make of the
registers, the phases, the tuning and the write positions; `PhaserReset` and `FlangerReset` what a successful engine
reset makes of them. The invariants below are consequences of these four. -/

/-- `p` is the phaser of `s` after a command other than `PH.RESET`: the rate, the channel count and `PH_INIT` are
kept; a real-valued register is kept or written with the clamped operand; a phase is kept or advanced; a stage is kept
or retuned. -/
structure PhaserRun (s : State) (p : Phaser) : Prop where
  fs : p.fs = s.ph.fs
  nch : p.nch = s.ph.nch
  init : p.init = s.ph.init
  rate : p.rate = s.ph.rate ∨ p.rate = s.num.clamp s.din .zero s.cfg.p.rateHi
  depth : p.depth = s.ph.depth ∨ p.depth = s.num.clamp s.din .zero (.rat 100)
  intensity : p.intensity = s.ph.intensity ∨ p.intensity = s.num.clamp s.din .zero (.rat 100)
  phase : ∀ c, p.phase.at c = s.ph.phase.at c ∨ ∃ q inc, p.phase.at c = lfoAdvance s.num q inc
  tuning : ∀ i, (p.fc.get i = s.ph.fc.get i ∧ p.d0.get i = s.ph.d0.get i) ∨
    ∃ v, p.fc.get i = apfClampFc s.cfg.p v s.ph.fs ∧ p.d0.get i = apfCoef s.num (p.fc.get i) s.ph.fs

/-- `f` is the flanger of `s` after a command other than `FL.RESET`. -/
structure FlangerRun (s : State) (f : Flanger) : Prop where
  fs : f.fs = s.fl.fs
  nch : f.nch = s.fl.nch
  init : f.init = s.fl.init
  len : f.len = s.fl.len
  rate : f.rate = s.fl.rate ∨ f.rate = s.num.clamp s.din .zero s.cfg.p.rateHi
  depth : f.depth = s.fl.depth ∨ f.depth = s.num.clamp s.din .zero (.rat 100)
  fb : f.fb = s.fl.fb ∨ f.fb = s.num.clamp s.din .zero .one
  phase : ∀ c, f.phase.at c = s.fl.phase.at c ∨ ∃ q inc, f.phase.at c = lfoAdvance s.num q inc
  wpos : ∀ c, Store.get 0 f.wpos c = Store.get 0 s.fl.wpos c ∨
    Store.get 0 f.wpos c = imod (Store.get 0 s.fl.wpos c + 1) s.fl.len

/-- `p` is the phaser of `s` after a successful `PH.RESET n` (rule R160). -/
structure PhaserReset (n : Nat) (s : State) (p : Phaser) : Prop where
  accepted : resetRejects s.cfg.p n s.din = false
  fs : p.fs = s.din
  nch : p.nch = n
  init : p.init = true
  rate : p.rate = s.ph.rate
  depth : p.depth = s.ph.depth
  intensity : p.intensity = s.ph.intensity
  phase : ∀ c < n, p.phase.at c = .zero
  tuning : ∀ i, ∃ v, p.fc.get i = apfClampFc s.cfg.p v s.din ∧ p.d0.get i = apfCoef s.num (p.fc.get i) s.din

/-- `f` is the flanger of `s` after a successful `FL.RESET n` (rule R200). -/
structure FlangerReset (n : Nat) (s : State) (f : Flanger) : Prop where
  accepted : resetRejects s.cfg.p n s.din = false
  fits : bufferLen s.cfg.p s.din ≤ s.cfg.p.bufCap
  fs : f.fs = s.din
  nch : f.nch = n
  init : f.init = true
  len : f.len = latchedLen s.cfg.p s.din
  rate : f.rate = s.fl.rate
  depth : f.depth = s.fl.depth
  fb : f.fb = s.fl.fb
  phase : ∀ c < n, f.phase.at c = .zero
  wpos : ∀ c < n, Store.get 0 f.wpos c = 0

/-- A command changes neither the list, the parameters nor the two input ports. -/
structure SamePorts (s t : State) : Prop where
  cfg : t.cfg = s.cfg
  inputs : t.inputs = s.inputs
  cmd : t.cmd = s.cmd
  din : t.din = s.din

/-- What a command other than the two engine resets can do. -/
structure Runs (s t : State) : Prop where
  ports : SamePorts s t
  ph : PhaserRun s t.ph
  fl : FlangerRun s t.fl

theorem PhaserRun.refl (s : State) : PhaserRun s s.ph :=
  ⟨rfl, rfl, rfl, .inl rfl, .inl rfl, .inl rfl, fun _ => .inl rfl, fun _ => .inl ⟨rfl, rfl⟩⟩

theorem FlangerRun.refl (s : State) : FlangerRun s s.fl :=
  ⟨rfl, rfl, rfl, rfl, .inl rfl, .inl rfl, .inl rfl, fun _ => .inl rfl, fun _ => .inl rfl⟩

theorem SamePorts.refl (s : State) : SamePorts s s := ⟨rfl, rfl, rfl, rfl⟩

theorem Runs.refl (s : State) : Runs s s := ⟨.refl s, .refl s, .refl s⟩

/-! ### The shared operations -/

theorem SamePorts.respond {s t : State} (h : SamePorts s t) (st : Status) (v : NumT) :
    SamePorts s (t.respond st v) := ⟨h.cfg, h.inputs, h.cmd, h.din⟩

theorem SamePorts.flagIf {s t : State} (h : SamePorts s t) (b : Bool) (g : Flag) : SamePorts s (t.flagIf b g) :=
  ⟨by simpa using h.cfg, by simpa using h.inputs, by simpa using h.cmd, by simpa using h.din⟩

theorem Runs.respond {s t : State} (h : Runs s t) (st : Status) (v : NumT) : Runs s (t.respond st v) :=
  ⟨h.ports.respond st v, h.ph, h.fl⟩

theorem Runs.raise (s : State) (e : Status) (v : NumT) : Runs s (s.raise e v) :=
  ⟨⟨rfl, rfl, rfl, rfl⟩, .refl s, .refl s⟩

theorem Runs.whenInit {s k : State} (h : Runs s k) (b : Bool) (v : NumT) : Runs s (s.whenInit b v k) := by
  rcases State.whenInit_cases s k b v with ⟨-, e⟩ | ⟨-, e⟩ <;> rw [e]
  · exact h
  · exact .raise s _ v

theorem Runs.whenChannel {s k : State} (h : Runs s k) (c n : Nat) (v : NumT) : Runs s (s.whenChannel c n v k) := by
  rcases State.whenChannel_cases s k c n v with ⟨-, e⟩ | ⟨-, e⟩ <;> rw [e]
  · exact h
  · exact .raise s _ v

theorem Runs.whenFl {s k : State} (h : Runs s k) (ch : BitVec 8) (v : NumT) : Runs s (s.whenFl ch v k) :=
  (h.whenChannel ch.toNat s.fl.nch v).whenInit s.fl.init v

theorem Runs.whenLfo {s k : State} (h : Runs s k) (eng : Engine) (ch : BitVec 8) : Runs s (s.whenLfo eng ch k) :=
  (h.whenChannel ch.toNat (s.engNch eng) .zero).whenInit (s.engInit eng) .zero

/-- A write of a real-valued register, where `store` writes the clamped operand into a register that may take it. -/
theorem Runs.setReal {s : State} (ival : BitVec 8) (lo hi : NumT) {store : NumT → State → State}
    (h : ∀ t, SamePorts s t → t.ph = s.ph → t.fl = s.fl → Runs s (store (s.num.clamp s.din lo hi) t)) :
    Runs s (s.setReal ival lo hi store) := by
  rcases State.setReal_cases s ival lo hi store with ⟨-, e⟩ | ⟨-, e⟩ <;> rw [e]
  · exact .raise s _ _
  · exact (h _ ((SamePorts.refl s).flagIf _ _) (State.flagIf_ph ..) (State.flagIf_fl ..)).respond _ _

theorem Runs.setBit {s : State} (ival : BitVec 8) {store : Bool → State → State} (h : ∀ b, Runs s (store b s)) :
    Runs s (s.setBit ival store) := by
  rcases State.setBit_cases s ival store with ⟨b, -, e⟩ | ⟨-, e⟩ <;> rw [e]
  · exact (h b).respond _ _
  · exact .raise s _ _

theorem Runs.setWave {s : State} (ival : BitVec 8) {store : Wave → State → State} (h : ∀ w, Runs s (store w s)) :
    Runs s (s.setWave ival store) := by
  rcases State.setWave_cases s ival store with ⟨w, -, e⟩ | ⟨-, e⟩ <;> rw [e]
  · exact (h w).respond _ _
  · exact .raise s _ _

/-! ### Writing the engines -/

theorem SamePorts.setPh {s t : State} (h : SamePorts s t) (p : Phaser) : SamePorts s { t with ph := p } :=
  ⟨h.cfg, h.inputs, h.cmd, h.din⟩

theorem SamePorts.setFl {s t : State} (h : SamePorts s t) (f : Flanger) : SamePorts s { t with fl := f } :=
  ⟨h.cfg, h.inputs, h.cmd, h.din⟩

theorem Runs.setPh {s : State} {p : Phaser} (h : PhaserRun s p) : Runs s { s with ph := p } :=
  ⟨(SamePorts.refl s).setPh p, h, .refl s⟩

theorem Runs.setFl {s : State} {f : Flanger} (h : FlangerRun s f) : Runs s { s with fl := f } :=
  ⟨(SamePorts.refl s).setFl f, .refl s, h⟩

/-- A phase array with one element advanced. -/
theorem phase_put (N : Num) (st : Store NumT) (k : Nat) (q inc : NumT) (c : Nat) :
    (st.put k (lfoAdvance N q inc)).at c = st.at c ∨
      ∃ q' inc', (st.put k (lfoAdvance N q inc)).at c = lfoAdvance N q' inc' := by
  rw [Store.at_put]
  split
  · exact .inr ⟨_, _, rfl⟩
  · exact .inl rfl

theorem Runs.apfSet (s : State) (i : Stage) (v : NumT) : Runs s (s.apfSet i v) := by
  refine ⟨⟨by simp, by simp, by simp, by simp⟩, ?_, by simpa using FlangerRun.refl s⟩
  refine ⟨by simp, by simp, by simp, by simp, by simp, by simp, by simp, fun j => ?_⟩
  simp only [State.apfSet_ph_fc, State.apfSet_ph_d0, Four.get_set]
  split
  · exact .inr ⟨_, rfl, rfl⟩
  · exact .inl ⟨rfl, rfl⟩

theorem Runs.setApfReg (s : State) (i : Stage) (r : ApfReg) (v : NumT) : Runs s (s.setApfReg i r v) := by
  cases r with
  | fc => exact .apfSet s i v
  | q => exact .setPh { PhaserRun.refl s with }
  | boost => exact .setPh { PhaserRun.refl s with }

theorem Runs.apfStep (s : State) (i : Stage) (c : Nat) (x : NumT) : Runs s (s.apfStep i c x) :=
  .setPh { PhaserRun.refl s with }

/-- `PH.PROC`: the phase of one channel advanced, every stage retuned. -/
theorem Runs.phProcess (s : State) (c : Nat) (x : NumT) : Runs s (s.phProcess c x) := by
  refine Runs.respond ?_ _ _
  obtain ⟨hcfg, hin, hcmd, hdin, hfl, hph⟩ := State.phModulate_frame s c
  generalize htune : s.phModulate c = t at *
  generalize t.cascadeIn c x = u
  generalize hm : t.flagIf _ .denClamp = m
  have hmph : m.ph = t.ph := by rw [← hm, State.flagIf_ph]
  obtain ⟨kcfg, kin, kcmd, kdin, -, kfl⟩ := State.cascadeStep_frame m c u
  have hports : SamePorts s m := hm ▸ SamePorts.flagIf ⟨hcfg, hin, hcmd, hdin⟩ _ _
  have hmfl : m.fl = s.fl := by rw [← hm, State.flagIf_fl, hfl]
  refine ⟨⟨kcfg.trans hports.cfg, kin.trans hports.inputs, kcmd.trans hports.cmd, kdin.trans hports.din⟩, ?_, ?_⟩
  · rw [State.cascadeStep_ph, hmph]
    have ht : PhaserRun s t.ph := by
      rw [hph]
      refine { PhaserRun.refl s with phase := phase_put _ _ c _ _, tuning := fun i => .inr ?_ }
      obtain ⟨hfc, hd0⟩ := State.phModulate_tuned s c i
      rw [htune] at hfc hd0
      exact ⟨_, hfc, hfc ▸ hd0⟩
    exact { ht with }
  · rw [kfl, hmfl]
    exact .refl s

theorem Runs.setEngPhase (s : State) (eng : Engine) (c : Nat) (q inc : NumT) :
    Runs s (s.setEngPhase eng c (lfoAdvance s.num q inc)) := by
  cases eng with
  | phaser => exact .setPh { PhaserRun.refl s with phase := phase_put _ _ c q inc }
  | flanger => exact .setFl { FlangerRun.refl s with phase := phase_put _ _ c q inc }

theorem Runs.toneStep (s : State) (c : Nat) (x : NumT) : Runs s (s.toneStep c x) :=
  .setFl { FlangerRun.refl s with }

/-- `FL.PROC`: the phase and the write position of one channel advanced. -/
theorem Runs.flProcess (s : State) (c : Nat) (x : NumT) : Runs s (s.flProcess c x) := by
  obtain ⟨hcfg, hin, hcmd, hdin, -, hph, -⟩ := State.flProcess_frame s c x
  refine ⟨⟨hcfg, hin, hcmd, hdin⟩, by rw [hph]; exact .refl s, ?_⟩
  rw [State.flProcess_fl]
  refine { FlangerRun.refl s with phase := phase_put _ _ c _ _, wpos := fun k => ?_ }
  rw [Store.get_set]
  split
  · next h => subst h; exact .inr rfl
  · exact .inl rfl

/-! ### The commands -/

theorem execPhSetp_runs (ival pid : BitVec 8) (s : State) : ∃ t, execPhSetp ival pid s = .next t ∧ Runs s t := by
  refine ⟨_, rfl, ?_⟩
  cases PhReg.ofPid pid with
  | none => exact .raise s _ _
  | some r =>
    cases r with
    | rate => exact .setReal ival _ _ fun t hp hph hfl =>
        ⟨hp.setPh _, hph ▸ { PhaserRun.refl s with rate := .inr rfl }, hfl ▸ .refl s⟩
    | depth => exact .setReal ival _ _ fun t hp hph hfl =>
        ⟨hp.setPh _, hph ▸ { PhaserRun.refl s with depth := .inr rfl }, hfl ▸ .refl s⟩
    | intensity => exact .setReal ival _ _ fun t hp hph hfl =>
        ⟨hp.setPh _, hph ▸ { PhaserRun.refl s with intensity := .inr rfl }, hfl ▸ .refl s⟩
    | quad => exact .setBit ival fun _ => .setPh { PhaserRun.refl s with }
    | fbsw => exact .setBit ival fun _ => .setPh { PhaserRun.refl s with }
    | wave => exact .setWave ival fun _ => .setPh { PhaserRun.refl s with }
    | fs | nch | init => exact .raise s _ _

theorem execFlSetp_runs (ival pid : BitVec 8) (s : State) : ∃ t, execFlSetp ival pid s = .next t ∧ Runs s t := by
  refine ⟨_, rfl, ?_⟩
  cases FlReg.ofPid pid with
  | none => exact .raise s _ _
  | some r =>
    cases r with
    | rate => exact .setReal ival _ _ fun t hp hph hfl =>
        ⟨hp.setFl _, hph ▸ .refl s, hfl ▸ { FlangerRun.refl s with rate := .inr rfl }⟩
    | depth => exact .setReal ival _ _ fun t hp hph hfl =>
        ⟨hp.setFl _, hph ▸ .refl s, hfl ▸ { FlangerRun.refl s with depth := .inr rfl }⟩
    | fb => exact .setReal ival _ _ fun t hp hph hfl =>
        ⟨hp.setFl _, hph ▸ .refl s, hfl ▸ { FlangerRun.refl s with fb := .inr rfl }⟩
    | inv | toneEn => exact .setBit ival fun _ => .setFl { FlangerRun.refl s with }
    | fs | nch | init | len => exact .raise s _ _

theorem execApfSetp_runs (fsel : BitVec 2) (i : Stage) (s : State) :
    ∃ t, execApfSetp fsel i s = .next t ∧ Runs s t := by
  refine ⟨_, rfl, ?_⟩
  cases ApfReg.ofFsel fsel with
  | none => exact .raise s _ _
  | some r => exact ((Runs.setApfReg s i r s.din).respond _ _).whenInit _ _

/-- A command whose completion only answers: it reads and writes no element. -/
theorem Runs.respond_self (s : State) (st : Status) (v : NumT) : Runs s (s.respond st v) := (Runs.refl s).respond st v

theorem execApfGetp_runs (fsel : BitVec 2) (i : Stage) (s : State) :
    ∃ t, execApfGetp fsel i s = .next t ∧ Runs s t := by
  refine ⟨_, rfl, ?_⟩
  cases ApfReg.ofFsel fsel with
  | none => exact .raise s _ _
  | some r => exact (Runs.respond_self s _ _).whenInit _ _

theorem execPhGetp_runs (pid : BitVec 8) (s : State) : ∃ t, execPhGetp pid s = .next t ∧ Runs s t := by
  refine ⟨_, rfl, ?_⟩
  cases PhReg.ofPid pid with
  | none => exact .raise s _ _
  | some r => exact .respond_self s _ _

theorem execFlGetp_runs (pid : BitVec 8) (s : State) : ∃ t, execFlGetp pid s = .next t ∧ Runs s t := by
  refine ⟨_, rfl, ?_⟩
  cases FlReg.ofPid pid with
  | none => exact .raise s _ _
  | some r => exact .respond_self s _ _

theorem execLfoRender_runs (ch : BitVec 8) (wave : BitVec 3) (quad : Bool) (eng : Engine) (s : State) :
    ∃ t, execLfoRender ch wave quad eng s = .next t ∧ Runs s t := by
  refine ⟨_, rfl, Runs.whenLfo ?_ eng ch⟩
  cases waveOfCode wave.toNat with
  | none => exact .raise s _ _
  | some w => exact .respond_self s _ _

theorem execDlPeek_runs (ch : BitVec 8) (addr : BitVec 16) (s : State) :
    ∃ t, execDlPeek ch addr s = .next t ∧ Runs s t := by
  refine ⟨_, rfl, Runs.whenFl ?_ ch _⟩
  split
  · exact .respond_self s _ _
  · exact .raise s _ _

/-- A command other than the two engine resets completes and runs. -/
theorem exec_runs {i : Instr} (hph : ∀ n, i ≠ .phReset n) (hfl : ∀ n, i ≠ .flReset n) (s : State) :
    ∃ t, exec i s = .next t ∧ Runs s t := by
  cases i with
  | phReset n => exact absurd rfl (hph n)
  | flReset n => exact absurd rfl (hfl n)
  | nop | sysGete => exact ⟨_, rfl, .respond_self s _ _⟩
  | sysClre => exact ⟨_, rfl, ⟨rfl, rfl, rfl, rfl⟩, .refl s, .refl s⟩
  | phSetp ival pid => exact execPhSetp_runs ival pid s
  | phGetp pid => exact execPhGetp_runs pid s
  | phProc ch => exact ⟨_, rfl, ((Runs.phProcess s _ _).whenChannel _ _ _).whenInit _ _⟩
  | apfSetp fsel st => exact execApfSetp_runs fsel st s
  | apfGetp fsel st => exact execApfGetp_runs fsel st s
  | apfProc ch st => exact ⟨_, rfl, (((Runs.apfStep s st _ _).respond _ _).whenChannel _ _ _).whenInit _ _⟩
  | apfGetg st => exact ⟨_, rfl, (Runs.respond_self s _ _).whenInit _ _⟩
  | apfGets ch st => exact ⟨_, rfl, ((Runs.respond_self s _ _).whenChannel _ _ _).whenInit _ _⟩
  | lfoAdv ch xinc eng => exact ⟨_, rfl, ((Runs.setEngPhase s eng _ _ _).respond _ _).whenLfo eng ch⟩
  | lfoRender ch wave quad eng => exact execLfoRender_runs ch wave quad eng s
  | lfoGetph ch eng => exact ⟨_, rfl, (Runs.respond_self s _ _).whenLfo eng ch⟩
  | flSetp ival pid => exact execFlSetp_runs ival pid s
  | flGetp pid => exact execFlGetp_runs pid s
  | flProc ch => exact ⟨_, rfl, (Runs.flProcess s _ _).whenFl ch _⟩
  | dlRead ch | dlGetw ch | toneGets ch => exact ⟨_, rfl, (Runs.respond_self s _ _).whenFl ch _⟩
  | dlPeek ch addr => exact execDlPeek_runs ch addr s
  | toneProc ch => exact ⟨_, rfl, ((Runs.toneStep s _ _).respond _ _).whenFl ch _⟩

/-! ### The engine resets -/

/-- What a command can make of the phaser: it runs, or it is `PH.RESET`, which clears `PH_INIT` or succeeds. -/
inductive PhaserEffect (s t : State) : Instr → Prop
  | run {i : Instr} (hi : ∀ n, i ≠ .phReset n) (h : PhaserRun s t.ph) : PhaserEffect s t i
  | rejected (n : BitVec 8) (hst : t.status = .resetFail) (h : t.ph = { s.ph with init := false }) :
      PhaserEffect s t (.phReset n)
  | reset (n : BitVec 8) (hst : t.status = .ok) (h : PhaserReset n.toNat s t.ph) : PhaserEffect s t (.phReset n)

/-- What a command can make of the flanger. -/
inductive FlangerEffect (s t : State) : Instr → Prop
  | run {i : Instr} (hi : ∀ n, i ≠ .flReset n) (h : FlangerRun s t.fl) : FlangerEffect s t i
  | rejected (n : BitVec 8) (hst : t.status = .resetFail) (h : t.fl = { s.fl with init := false }) :
      FlangerEffect s t (.flReset n)
  | reset (n : BitVec 8) (hst : t.status = .ok) (h : FlangerReset n.toNat s t.fl) : FlangerEffect s t (.flReset n)

theorem SamePorts.setPhInit {s t : State} (h : SamePorts s t) (b : Bool) : SamePorts s (t.setPhInit b) :=
  ⟨h.cfg, h.inputs, h.cmd, h.din⟩

theorem retuneAll_frame (s : State) (n : Nat) (fs : NumT) :
    SamePorts s (s.phLatch n fs).retuneAll ∧ (s.phLatch n fs).retuneAll.fl = s.fl := by
  obtain ⟨hcfg, hin, hcmd, hdin, -, -, hfl, -⟩ := State.apfSet4_frame (s.phLatch n fs) (s.ph.fc.get .s0)
    (s.ph.fc.get .s1) (s.ph.fc.get .s2) (s.ph.fc.get .s3)
  exact ⟨⟨hcfg, hin, hcmd, hdin⟩, hfl⟩

/-- The phaser after the latch and the retuning of `PH.RESET` (rule R160). -/
theorem phaserReset_latch {n : Nat} {s : State} (h : resetRejects s.cfg.p n s.din = false) :
    PhaserReset n s (((s.phLatch n s.din).retuneAll).setPhInit true).ph := by
  obtain ⟨-, -, -, -, -, -, -, hph⟩ := State.apfSet4_frame (s.phLatch n s.din) (s.ph.fc.get .s0) (s.ph.fc.get .s1)
    (s.ph.fc.get .s2) (s.ph.fc.get .s3)
  have htune := State.apfSet4_tuned (s.phLatch n s.din) s.ph.fc.get
  change (s.phLatch n s.din).retuneAll.ph = _ at hph
  rw [State.setPhInit_ph, hph]
  refine ⟨h, rfl, rfl, rfl, rfl, rfl, rfl, fun c hc => ?_, fun i => ?_⟩
  · simp [Nat.not_le.mpr hc]
  · obtain ⟨hfc, hd0⟩ := htune i
    exact ⟨_, hfc, hd0.trans (congrArg (apfCoef s.num · s.din) hfc.symm)⟩

theorem flangerReset_latch {n : Nat} {s : State} (h : resetRejects s.cfg.p n s.din = false)
    (hlen : bufferLen s.cfg.p s.din ≤ s.cfg.p.bufCap) :
    FlangerReset n s ((s.flLatch n s.din).setFlInit true).fl := by
  refine ⟨h, hlen, rfl, rfl, rfl, rfl, rfl, rfl, rfl, fun c hc => ?_, fun c hc => ?_⟩ <;> simp [Nat.not_le.mpr hc]

theorem execPhReset_effect (n : BitVec 8) (s : State) : ∃ t, execPhReset n s = .next t ∧ SamePorts s t ∧
    PhaserEffect s t (.phReset n) ∧ t.fl = s.fl := by
  unfold execPhReset
  split
  · exact ⟨_, rfl, ⟨rfl, rfl, rfl, rfl⟩, .rejected n rfl rfl, rfl⟩
  · next h =>
    have hres := phaserReset_latch (Bool.eq_false_iff.mpr h)
    obtain ⟨hports, hfl⟩ := retuneAll_frame s n.toNat s.din
    exact ⟨_, rfl, (hports.setPhInit true).respond .ok .zero, .reset n rfl hres,
      by rw [State.respond_fl, State.setPhInit_fl, hfl]⟩

theorem execFlReset_effect (n : BitVec 8) (s : State) : ∃ t, execFlReset n s = .next t ∧ SamePorts s t ∧
    FlangerEffect s t (.flReset n) ∧ t.ph = s.ph := by
  unfold execFlReset
  split
  · exact ⟨_, rfl, ⟨rfl, rfl, rfl, rfl⟩, .rejected n rfl rfl, rfl⟩
  · next h =>
    rw [Bool.or_eq_true, not_or, Bool.not_eq_true, decide_eq_true_eq, not_lt] at h
    exact ⟨_, rfl, ⟨rfl, rfl, rfl, rfl⟩, .reset n rfl (flangerReset_latch h.1 h.2), rfl⟩

/-- Everything a command can do: the ports are kept, and each engine is as its effect says. -/
theorem exec_effect {i : Instr} {s t : State} (h : exec i s = .next t) :
    SamePorts s t ∧ PhaserEffect s t i ∧ FlangerEffect s t i := by
  by_cases hph : ∃ n, i = .phReset n
  · obtain ⟨n, rfl⟩ := hph
    obtain ⟨u, hu, hports, heff, hfl⟩ := execPhReset_effect n s
    obtain rfl := Host.Outcome.next.inj (hu.symm.trans h)
    exact ⟨hports, heff, .run (by simp) (hfl ▸ .refl s)⟩
  by_cases hfl : ∃ n, i = .flReset n
  · obtain ⟨n, rfl⟩ := hfl
    obtain ⟨u, hu, hports, heff, hph⟩ := execFlReset_effect n s
    obtain rfl := Host.Outcome.next.inj (hu.symm.trans h)
    exact ⟨hports, .run (by simp) (hph ▸ .refl s), heff⟩
  · rw [not_exists] at hph hfl
    obtain ⟨u, hu, hruns⟩ := exec_runs hph hfl s
    obtain rfl := Host.Outcome.next.inj (hu.symm.trans h)
    exact ⟨hruns.ports, .run hph hruns.ph, .run hfl hruns.fl⟩

/-- Settles O8, by the head of the list; that a command keeps the ports is part of its effect. -/
theorem stepTakesHead : Obligations.StepTakesHead := by
  constructor
  · intro s e rest t hin h
    rcases step_next_cases h with ⟨hin', -⟩ | ⟨r, hin', rfl⟩ | ⟨w, d, r, i, hin', -, -, he⟩ |
      ⟨w, d, r, x, hin', -, -, rfl⟩ <;> rw [hin] at hin'
    · cases hin'
    · exact ⟨(List.cons.inj hin').2.symm, rfl⟩
    · obtain ⟨hports, -, -⟩ := exec_effect he
      exact ⟨hports.inputs.trans (List.cons.inj hin').2.symm, hports.cfg⟩
    · exact ⟨(List.cons.inj hin').2.symm, rfl⟩
  · intro i s t h
    obtain ⟨hports, -, -⟩ := exec_effect h
    exact ⟨hports.inputs, hports.cfg, hports.cmd, hports.din⟩

/-- Settles O16, from what a command can do to each engine. -/
theorem initRecordsLastReset : Obligations.InitRecordsLastReset := by
  intro i s t h
  obtain ⟨-, hph, hfl⟩ := exec_effect h
  constructor
  · cases hph with
    | run hi hrun =>
      split
      · next n => exact absurd rfl (hi n)
      · exact hrun.init
    | rejected n hst hrej => simp [hst, hrej]
    | reset n hst hres => simp [hst, hres.init]
  · cases hfl with
    | run hi hrun =>
      split
      · next n => exact absurd rfl (hi n)
      · exact hrun.init
    | rejected n hst hrej => simp [hst, hrej]
    | reset n hst hres => simp [hst, hres.init]

/-! ## The legal registers (rules R27, R50) -/

/-- The phaser's part of the legal values (rule R27). -/
structure PhaserLegal (p : Params) (ph : Phaser) : Prop where
  rate : ph.rate.Within .zero p.rateHi
  depth : ph.depth.Within .zero (.rat 100)
  intensity : ph.intensity.Within .zero (.rat 100)
  fs : ph.fs.val = 0 ∧ ph.init = false ∨ ph.fs.Within p.fsMin p.fsMax
  nch_le : ph.nch ≤ p.nchMax
  nch_pos : ph.init = true → 1 ≤ ph.nch

/-- The flanger's part of the legal values (rule R50). -/
structure FlangerLegal (p : Params) (fl : Flanger) : Prop where
  rate : fl.rate.Within .zero p.rateHi
  depth : fl.depth.Within .zero (.rat 100)
  fb : fl.fb.Within .zero .one
  fs : fl.fs.val = 0 ∧ fl.init = false ∨ fl.fs.Within p.fsMin p.fsMax
  nch_le : fl.nch ≤ p.nchMax
  nch_pos : fl.init = true → 1 ≤ fl.nch
  len : fl.len = 0 ∧ fl.init = false ∨ p.margin ≤ fl.len ∧ fl.len ≤ p.bufCap

theorem State.legalRegisters_iff (s : State) :
    s.LegalRegisters ↔ PhaserLegal s.cfg.p s.ph ∧ FlangerLegal s.cfg.p s.fl := by
  constructor
  · rintro ⟨h1, h2, h3, h4, h5, h6, h7, h8, h9, h10, h11, h12, h13⟩
    exact ⟨⟨h1, h2, h3, h4, h5, h6⟩, h7, h8, h9, h10, h11, h12, h13⟩
  · rintro ⟨⟨h1, h2, h3, h4, h5, h6⟩, h7, h8, h9, h10, h11, h12, h13⟩
    exact ⟨h1, h2, h3, h4, h5, h6, h7, h8, h9, h10, h11, h12, h13⟩

/-- A clamped operand lies within the bounds (rule R27). -/
theorem clamp_within {N : Num} (hN : N = .real) (x : NumT) {lo hi : NumT} (h : lo.val ≤ hi.val) :
    (N.clamp x lo hi).Within lo hi := by
  subst hN
  rcases Num.clamp_cases .real x lo hi with ⟨-, e⟩ | ⟨-, -, e⟩ | ⟨hlo, hhi, e⟩ <;> rw [e]
  · exact ⟨le_rfl, h⟩
  · exact ⟨h, le_rfl⟩
  · exact ⟨(NumT.lt_eq_false_iff x lo).mp hlo, (NumT.lt_eq_false_iff hi x).mp hhi⟩

/-- A register that is kept or written with the clamped operand stays within its bounds. -/
theorem within_of_kept_or_clamped {N : Num} (hN : N = .real) {old new x lo hi : NumT} (hb : lo.val ≤ hi.val)
    (hold : old.Within lo hi) (h : new = old ∨ new = N.clamp x lo hi) : new.Within lo hi := by
  rcases h with rfl | rfl
  · exact hold
  · exact clamp_within hN x hb

/-- The arguments an engine reset accepts (rules R160, R200). -/
theorem accepted_iff {p : Params} (hN : p.num = .real) (n : Nat) (fs : NumT) :
    resetRejects p n fs = false ↔ fs.Within p.fsMin p.fsMax ∧ 1 ≤ n ∧ n ≤ p.nchMax := by
  simp only [resetRejects, hN, Num.real_lt, Bool.or_eq_false_iff, NumT.lt_eq_false_iff, beq_eq_false_iff_ne,
    decide_eq_false_iff_not, not_lt, NumT.Within, Nat.one_le_iff_ne_zero, and_assoc]

theorem rateHi_nonneg {p : Params} (hN : p.num = .real) (h : p.legal = true) : NumT.zero.val ≤ p.rateHi.val := by
  obtain ⟨-, -, -, -, -, -, -, -, -, -, hrate, -⟩ := Params.legal_real hN h
  simpa using hrate.le

theorem numZero_le_hundred : NumT.zero.val ≤ (NumT.rat 100).val := by norm_num

theorem numZero_le_one : NumT.zero.val ≤ NumT.one.val := by norm_num

theorem sweepLength_nonneg {p : Params} (hN : p.num = .real) (h : p.legal = true) {fs : NumT}
    (hfs : p.fsMin.val ≤ fs.val) : 0 ≤ ⌈(p.baseDelay.val + p.sweepMax.val) * fs.val⌉ := by
  obtain ⟨-, -, hmin, -, -, -, -, -, -, -, -, -, -, -, hbase, hsweep, -⟩ := Params.legal_real hN h
  have hpos : 0 < p.baseDelay.val := pos_of_mul_pos_left (by linarith) hmin.le
  exact Int.ceil_nonneg (mul_nonneg (by linarith) (by linarith))

/-- The length latched by a reset at a rate of at least `FS_MIN` (rule R204). -/
theorem latchedLen_eq {p : Params} (hN : p.num = .real) (h : p.legal = true) {fs : NumT}
    (hfs : p.fsMin.val ≤ fs.val) :
    (latchedLen p fs : ℤ) = ⌈(p.baseDelay.val + p.sweepMax.val) * fs.val⌉ + p.margin := by
  have := sweepLength_nonneg hN h hfs
  rw [latchedLen, bufferLen_eq hN, Int.toNat_of_nonneg (by omega)]

theorem margin_le_latchedLen {p : Params} (hN : p.num = .real) (h : p.legal = true) {fs : NumT}
    (hfs : p.fsMin.val ≤ fs.val) : p.margin ≤ latchedLen p fs := by
  have := sweepLength_nonneg hN h hfs
  have := latchedLen_eq hN h hfs
  omega

theorem PhaserEffect.legal {s t : State} {i : Instr} (hN : s.num = .real) (h : PhaserLegal s.cfg.p s.ph)
    (heff : PhaserEffect s t i) : PhaserLegal s.cfg.p t.ph := by
  cases heff with
  | run hi hrun =>
    exact {
      rate := within_of_kept_or_clamped hN (rateHi_nonneg hN s.cfg.legal) h.rate hrun.rate
      depth := within_of_kept_or_clamped hN numZero_le_hundred h.depth hrun.depth
      intensity := within_of_kept_or_clamped hN numZero_le_hundred h.intensity hrun.intensity
      fs := by rw [hrun.fs, hrun.init]; exact h.fs
      nch_le := by rw [hrun.nch]; exact h.nch_le
      nch_pos := by rw [hrun.nch, hrun.init]; exact h.nch_pos }
  | rejected n hst hrej =>
    rw [hrej]
    exact { h with fs := h.fs.imp_left fun ⟨hz, _⟩ => ⟨hz, rfl⟩, nch_pos := by simp }
  | reset n hst hres =>
    obtain ⟨hfs, hpos, hle⟩ := (accepted_iff hN _ _).mp hres.accepted
    exact {
      rate := hres.rate ▸ h.rate
      depth := hres.depth ▸ h.depth
      intensity := hres.intensity ▸ h.intensity
      fs := .inr (hres.fs ▸ hfs)
      nch_le := hres.nch ▸ hle
      nch_pos := fun _ => hres.nch ▸ hpos }

theorem FlangerEffect.legal {s t : State} {i : Instr} (hN : s.num = .real) (h : FlangerLegal s.cfg.p s.fl)
    (heff : FlangerEffect s t i) : FlangerLegal s.cfg.p t.fl := by
  cases heff with
  | run hi hrun =>
    exact {
      rate := within_of_kept_or_clamped hN (rateHi_nonneg hN s.cfg.legal) h.rate hrun.rate
      depth := within_of_kept_or_clamped hN numZero_le_hundred h.depth hrun.depth
      fb := within_of_kept_or_clamped hN numZero_le_one h.fb hrun.fb
      fs := by rw [hrun.fs, hrun.init]; exact h.fs
      nch_le := by rw [hrun.nch]; exact h.nch_le
      nch_pos := by rw [hrun.nch, hrun.init]; exact h.nch_pos
      len := by rw [hrun.len, hrun.init]; exact h.len }
  | rejected n hst hrej =>
    rw [hrej]
    exact { h with
      fs := h.fs.imp_left fun ⟨hz, _⟩ => ⟨hz, rfl⟩
      nch_pos := by simp
      len := h.len.imp_left fun ⟨hz, _⟩ => ⟨hz, rfl⟩ }
  | reset n hst hres =>
    obtain ⟨hfs, hpos, hle⟩ := (accepted_iff hN _ _).mp hres.accepted
    have hcap : latchedLen s.cfg.p s.din ≤ s.cfg.p.bufCap := Int.toNat_le.mpr hres.fits
    exact {
      rate := hres.rate ▸ h.rate
      depth := hres.depth ▸ h.depth
      fb := hres.fb ▸ h.fb
      fs := .inr (hres.fs ▸ hfs)
      nch_le := hres.nch ▸ hle
      nch_pos := fun _ => hres.nch ▸ hpos
      len := .inr (hres.len ▸ ⟨margin_le_latchedLen hN s.cfg.legal hfs.1, hcap⟩) }

/-- The power-on values are legal (rules R27, R50, R59). -/
theorem State.PowerOnValues.legalRegisters {t : State} (hN : t.num = .real) (h : t.PowerOnValues t.cfg.p) :
    t.LegalRegisters := by
  obtain ⟨-, -, -, prate, pdepth, pint, -, -, -, pfs, pnch, pinit, -, frate, fdepth, ffb, -, -, ffs, fnch, finit,
    flen⟩ := h
  have hrate := rateHi_nonneg hN t.cfg.legal
  have hhundred := numZero_le_hundred
  have hone := numZero_le_one
  rw [State.legalRegisters_iff]
  constructor
  · exact {
      rate := prate ▸ ⟨le_rfl, hrate⟩
      depth := pdepth ▸ ⟨le_rfl, hhundred⟩
      intensity := pint ▸ ⟨le_rfl, hhundred⟩
      fs := .inl ⟨by simp [pfs], pinit⟩
      nch_le := by omega
      nch_pos := by simp [pinit] }
  · exact {
      rate := frate ▸ ⟨le_rfl, hrate⟩
      depth := fdepth ▸ ⟨le_rfl, hhundred⟩
      fb := ffb ▸ ⟨le_rfl, hone⟩
      fs := .inl ⟨by simp [ffs], finit⟩
      nch_le := by omega
      nch_pos := by simp [finit]
      len := .inl ⟨flen, finit⟩ }

/-- Settles O21, from what a command can do to each engine. -/
theorem stepKeepsLegalRegisters : Obligations.StepKeepsLegalRegisters := by
  intro s t hN hs h
  have hrst (rest : List Event) : State.LegalRegisters { s.powerOn with inputs := rest } :=
    State.PowerOnValues.legalRegisters hN (State.powerOn_powerOnValues s rest)
  refine step_preserves h hs hrst (fun _ _ _ => hs) fun w d rest i he => ?_
  obtain ⟨hports, hph, hfl⟩ := exec_effect he
  obtain ⟨lph, lfl⟩ := (State.legalRegisters_iff s).mp hs
  rw [State.legalRegisters_iff, hports.cfg]
  exact ⟨hph.legal hN lph, hfl.legal hN lfl⟩

/-! ## Phases, write positions and the buffer length (rules R41, R52, R53, R204) -/

/-- A phase in [0, 1) (rules R41, R52). -/
def IsPhase (v : NumT) : Prop := 0 ≤ v.val ∧ v.val < 1

theorem isPhase_zero : IsPhase .zero := by simp [IsPhase]

theorem isPhase_lfoAdvance {N : Num} (hN : N = .real) (q inc : NumT) : IsPhase (lfoAdvance N q inc) := by
  subst hN
  rw [IsPhase, lfoAdvance, Num.frac_val]
  exact ⟨Int.fract_nonneg _, Int.fract_lt_one _⟩

/-- A phase that is kept or advanced stays in [0, 1). -/
theorem isPhase_of_kept_or_advanced {N : Num} (hN : N = .real) {old new : NumT} (hold : IsPhase old)
    (h : new = old ∨ ∃ q inc, new = lfoAdvance N q inc) : IsPhase new := by
  rcases h with rfl | ⟨q, inc, rfl⟩
  · exact hold
  · exact isPhase_lfoAdvance hN q inc

/-- The phaser's part of the invariant. -/
def PhaserGeometry (ph : Phaser) : Prop := ph.init = true → ∀ c < ph.nch, IsPhase (ph.phase.at c)

/-- The flanger's part of the invariant. -/
def FlangerGeometry (p : Params) (fl : Flanger) : Prop :=
  fl.init = true → (fl.len : ℤ) = ⌈(p.baseDelay.val + p.sweepMax.val) * fl.fs.val⌉ + p.margin ∧
    ∀ c < fl.nch, Store.get 0 fl.wpos c < fl.len ∧ IsPhase (fl.phase.at c)

theorem State.geometry_iff (s : State) : s.Geometry ↔ PhaserGeometry s.ph ∧ FlangerGeometry s.cfg.p s.fl := Iff.rfl

theorem PhaserEffect.geometry {s t : State} {i : Instr} (hN : s.num = .real) (h : PhaserGeometry s.ph)
    (heff : PhaserEffect s t i) : PhaserGeometry t.ph := by
  intro hinit c hc
  cases heff with
  | run hi hrun =>
    rw [hrun.init] at hinit
    rw [hrun.nch] at hc
    exact isPhase_of_kept_or_advanced hN (h hinit c hc) (hrun.phase c)
  | rejected n hst hrej => simp [hrej] at hinit
  | reset n hst hres =>
    rw [hres.phase c (hres.nch ▸ hc)]
    exact isPhase_zero

theorem FlangerEffect.geometry {s t : State} {i : Instr} (hN : s.num = .real) (h : FlangerGeometry s.cfg.p s.fl)
    (heff : FlangerEffect s t i) : FlangerGeometry s.cfg.p t.fl := by
  intro hinit
  cases heff with
  | run hi hrun =>
    rw [hrun.init] at hinit
    obtain ⟨hlen, hchan⟩ := h hinit
    rw [hrun.len, hrun.fs, hrun.nch]
    refine ⟨hlen, fun c hc => ?_⟩
    obtain ⟨hw, hp⟩ := hchan c hc
    refine ⟨?_, isPhase_of_kept_or_advanced hN hp (hrun.phase c)⟩
    rcases hrun.wpos c with e | e <;> rw [e]
    · exact hw
    · exact imod_lt _ (Nat.zero_lt_of_lt hw)
  | rejected n hst hrej => simp [hrej] at hinit
  | reset n hst hres =>
    obtain ⟨⟨hfs, -⟩, -, -⟩ := (accepted_iff hN _ _).mp hres.accepted
    obtain ⟨-, -, -, -, -, -, -, -, -, -, -, -, -, -, -, -, hmargin, -⟩ := Params.legal_real hN s.cfg.legal
    have hpos : 0 < latchedLen s.cfg.p s.din := by
      have := margin_le_latchedLen hN s.cfg.legal hfs
      omega
    rw [hres.len, hres.fs, hres.nch]
    refine ⟨latchedLen_eq hN s.cfg.legal hfs, fun c hc => ?_⟩
    rw [hres.wpos c hc, hres.phase c hc]
    exact ⟨hpos, isPhase_zero⟩

/-- With neither engine initialised there is no reachable channel. -/
theorem State.PowerOnValues.geometry {p : Params} {t : State} (h : t.PowerOnValues p) : t.Geometry := by
  obtain ⟨-, -, -, -, -, -, -, -, -, -, -, hph, -, -, -, -, -, -, -, -, hfl, -⟩ := h
  exact ⟨by simp [hph], by simp [hfl]⟩

/-- Settles O22, from what a command can do to each engine. -/
theorem stepKeepsGeometry : Obligations.StepKeepsGeometry := by
  intro s t hN hs h
  refine step_preserves h hs (fun rest => (State.powerOn_powerOnValues s rest).geometry) (fun _ _ _ => hs)
    fun w d rest i he => ?_
  obtain ⟨hports, hph, hfl⟩ := exec_effect he
  obtain ⟨gph, gfl⟩ := (State.geometry_iff s).mp hs
  rw [State.geometry_iff, hports.cfg]
  exact ⟨hph.geometry (s := s.present w d rest) hN gph, hfl.geometry hN gfl⟩

/-! ## The tuning of the stages (rules R42, R43) -/

/-- A stage frequency and coefficient that fit the rate `fs` (rules R42, R43, R140, R141). -/
def StageTuned (p : Params) (fs fc d0 : NumT) : Prop :=
  p.fcLo.val ≤ fc.val ∧ fc.val ≤ p.fcHiFrac.val * fs.val ∧ d0.val = Spec.apfCoef fc.val fs.val

theorem apfCoef_val (fc fs : NumT) : (apfCoef .real fc fs).val = Spec.apfCoef fc.val fs.val := by
  simp [apfCoef, Spec.apfCoef, mul_div_assoc]

/-- The range of rule R140 is not empty for a rate of at least `FS_MIN`. -/
theorem frequencyRange_nonempty {p : Params} (hN : p.num = .real) (h : p.legal = true) {fs : ℝ}
    (hfs : p.fsMin.val ≤ fs) : p.fcLo.val ≤ p.fcHiFrac.val * fs := by
  obtain ⟨-, -, -, -, hlo, -, -, hfrac, -⟩ := Params.legal_real hN h
  rw [div_le_iff₀ hfrac] at hlo
  calc p.fcLo.val ≤ p.fsMin.val * p.fcHiFrac.val := hlo
    _ ≤ fs * p.fcHiFrac.val := mul_le_mul_of_nonneg_right hfs hfrac.le
    _ = p.fcHiFrac.val * fs := mul_comm _ _

/-- A stage retuned at a legal rate is tuned. -/
theorem stageTuned_of_retuned {p : Params} (hN : p.num = .real) (h : p.legal = true) {fs v fc d0 : NumT}
    (hfs : p.fsMin.val ≤ fs.val) (hfc : fc = apfClampFc p v fs) (hd0 : d0 = apfCoef p.num fc fs) :
    StageTuned p fs fc d0 := by
  have hhi : (p.num.mul p.fcHiFrac fs).val = p.fcHiFrac.val * fs.val := by simp [hN]
  obtain ⟨hl, hu⟩ : fc.Within p.fcLo (p.num.mul p.fcHiFrac fs) :=
    hfc ▸ clamp_within hN v (hhi ▸ frequencyRange_nonempty hN h hfs)
  exact ⟨hl, hhi ▸ hu, by rw [hd0, hN, apfCoef_val]⟩

/-- The invariant, of the phaser alone. -/
def PhaserTuned (p : Params) (ph : Phaser) : Prop :=
  ph.init = true → ∀ i, StageTuned p ph.fs (ph.fc.get i) (ph.d0.get i)

theorem State.tuned_iff (s : State) : s.Tuned ↔ PhaserTuned s.cfg.p s.ph := Iff.rfl

theorem PhaserLegal.fsMin_le {p : Params} {ph : Phaser} (h : PhaserLegal p ph) (hi : ph.init = true) :
    p.fsMin.val ≤ ph.fs.val := by
  rcases h.fs with ⟨-, hno⟩ | ⟨hmin, -⟩
  · simp [hi] at hno
  · exact hmin

theorem PhaserEffect.tuned {s t : State} {i : Instr} (hN : s.num = .real) (hl : PhaserLegal s.cfg.p s.ph)
    (h : PhaserTuned s.cfg.p s.ph) (heff : PhaserEffect s t i) : PhaserTuned s.cfg.p t.ph := by
  intro hinit i
  cases heff with
  | run hi hrun =>
    rw [hrun.init] at hinit
    rw [hrun.fs]
    rcases hrun.tuning i with ⟨hfc, hd0⟩ | ⟨v, hfc, hd0⟩
    · rw [hfc, hd0]
      exact h hinit i
    · exact stageTuned_of_retuned hN s.cfg.legal (hl.fsMin_le hinit) hfc hd0
  | rejected n hst hrej => simp [hrej] at hinit
  | reset n hst hres =>
    obtain ⟨⟨hfs, -⟩, -, -⟩ := (accepted_iff hN _ _).mp hres.accepted
    obtain ⟨v, hfc, hd0⟩ := hres.tuning i
    rw [hres.fs]
    exact stageTuned_of_retuned hN s.cfg.legal hfs hfc hd0

theorem State.PowerOnValues.tuned {p : Params} {t : State} (h : t.PowerOnValues p) : t.Tuned := by
  obtain ⟨-, -, -, -, -, -, -, -, -, -, -, hph, -⟩ := h
  exact fun hinit => by simp [hph] at hinit

/-- Settles O23. The legal rate keeps the range of the clamp from being empty. -/
theorem stepKeepsTuning : Obligations.StepKeepsTuning := by
  intro s t hN hleg hs h
  refine step_preserves h hs (fun rest => (State.powerOn_powerOnValues s rest).tuned) (fun _ _ _ => hs)
    fun w d rest i he => ?_
  obtain ⟨hports, hph, -⟩ := exec_effect he
  obtain ⟨lph, -⟩ := (State.legalRegisters_iff s).mp hleg
  rw [State.tuned_iff, hports.cfg]
  exact hph.tuned hN lph hs

/-! ## The state after reset -/

theorem State.resetWith_canonical (c : Config) : (State.resetWith c).Canonical := by
  refine ⟨rfl, fun i => ?_, rfl, rfl, rfl, rfl⟩
  cases i <;> rfl

/-- Settles O24, from the power-on values and the empty arrays. -/
theorem resetMeetsInvariants : Obligations.ResetMeetsInvariants := by
  intro c
  have h := State.resetWith_powerOnValues c
  exact ⟨State.resetWith_canonical c, fun hN => ⟨h.legalRegisters hN, h.geometry, h.tuned⟩⟩

/-! ## Two runs of one command

Two claims compare a command's run with its run from another state: the flags a command finds affect nothing
(rule R26), and stale elements are never observed (rules R29, R51). Both follow from one lemma, `exec_alike`.
`Alike e l P Q` relates states that differ in the flags `e`, in their phasers as `P` allows and in their flangers as
`Q` allows. Every command takes related states to related states, for all relations `P` and `Q` that the engines'
reads and writes respect (`PhaserRespects`, `FlangerRespects`). -/

/-- An update of the phaser's registers: it neither reads nor writes the elements that can be stale. -/
structure PhaserRegisters (g : Phaser → Phaser) : Prop where
  comm : ∀ p x y z, g { p with phase := x, d0 := y, s := z } = { g p with phase := x, d0 := y, s := z } := by
    intros; rfl
  init : ∀ p, (g p).init = p.init := by intros; rfl
  nch : ∀ p, (g p).nch = p.nch := by intros; rfl

/-- An update of the flanger's registers. -/
structure FlangerRegisters (g : Flanger → Flanger) : Prop where
  comm : ∀ f x y z w, g { f with phase := x, wpos := y, buf := z, tz := w }
    = { g f with phase := x, wpos := y, buf := z, tz := w } := by intros; rfl
  init : ∀ f, (g f).init = f.init := by intros; rfl
  nch : ∀ f, (g f).nch = f.nch := by intros; rfl
  len : ∀ f, (g f).len = f.len := by intros; rfl

/-- The phaser as a successful `PH.RESET` leaves it (rule R160), with the tuning it has computed. -/
def Phaser.latched (p : Phaser) (n : Nat) (fs : NumT) (fc d0 : Four NumT) : Phaser :=
  { p with
    fs := fs
    nch := n
    init := true
    phase := Store.dropBelow p.phase n
    fc := fc
    d0 := d0
    s := ⟨Store.dropBelow p.s.s0 n, Store.dropBelow p.s.s1 n, Store.dropBelow p.s.s2 n, Store.dropBelow p.s.s3 n⟩ }

/-- The flanger as a successful `FL.RESET` leaves it (rule R200). -/
def Flanger.latched (f : Flanger) (n len : Nat) (fs : NumT) : Flanger :=
  { f with
    fs := fs
    nch := n
    init := true
    len := len
    buf := f.buf.clear len n
    wpos := Store.dropBelow f.wpos n
    phase := Store.dropBelow f.phase n
    tz := Store.dropBelow f.tz n }

/-- The phaser's reads under the guards agree, and its writes keep the relation. -/
structure PhaserRespects (P : Phaser → Phaser → Prop) : Prop where
  regs : ∀ {p q}, P p q → { p with phase := q.phase, d0 := q.d0, s := q.s } = q
  d0 : ∀ {p q}, P p q → p.init = true → q.d0 = p.d0
  phase : ∀ {p q c}, P p q → p.init = true → c < p.nch → q.phase.at c = p.phase.at c
  stage : ∀ {p q c}, P p q → p.init = true → c < p.nch → ∀ i, (q.s.get i).at c = (p.s.get i).at c
  setRegs : ∀ {p q g}, PhaserRegisters g → P p q → P (g p) (g q)
  tune : ∀ {p q}, P p q → ∀ i v w,
    P { p with fc := p.fc.set i v, d0 := p.d0.set i w } { q with fc := q.fc.set i v, d0 := q.d0.set i w }
  putPhase : ∀ {p q}, P p q → ∀ c v,
    P { p with phase := p.phase.put c v } { q with phase := q.phase.put c v }
  putStage : ∀ {p q}, P p q → ∀ i c v,
    P { p with s := p.s.set i ((p.s.get i).put c v) } { q with s := q.s.set i ((q.s.get i).put c v) }
  reject : ∀ {p q}, P p q → P { p with init := false } { q with init := false }
  latch : ∀ {p q}, P p q → ∀ n fs fc d0, P (p.latched n fs fc d0) (q.latched n fs fc d0)

/-- The flanger's reads under the guards agree, and its writes keep the relation; an engine reset may lead to the
weaker `Q'`. -/
structure FlangerRespects (Q Q' : Flanger → Flanger → Prop) : Prop where
  weaken : ∀ {f g}, Q f g → Q' f g
  regs : ∀ {f g}, Q f g → { f with phase := g.phase, wpos := g.wpos, buf := g.buf, tz := g.tz } = g
  phase : ∀ {f g c}, Q f g → f.init = true → c < f.nch → g.phase.at c = f.phase.at c
  wpos : ∀ {f g c}, Q f g → f.init = true → c < f.nch → Store.get 0 g.wpos c = Store.get 0 f.wpos c
  tz : ∀ {f g c}, Q f g → f.init = true → c < f.nch → g.tz.at c = f.tz.at c
  word : ∀ {f g c k}, Q f g → f.init = true → c < f.nch → k < f.len → g.buf.read c k = f.buf.read c k
  tap : ∀ {f g c}, Q f g → f.init = true → c < f.nch → ∀ z : Int,
    g.buf.read c (imod z f.len) = f.buf.read c (imod z f.len)
  setRegs : ∀ {f g r}, FlangerRegisters r → Q f g → Q (r f) (r g)
  putPhase : ∀ {f g}, Q f g → ∀ c v, Q { f with phase := f.phase.put c v } { g with phase := g.phase.put c v }
  putWord : ∀ {f g}, Q f g → ∀ c k v, Q { f with buf := f.buf.write c k v } { g with buf := g.buf.write c k v }
  putWpos : ∀ {f g}, Q f g → ∀ c k,
    Q { f with wpos := Store.set 0 f.wpos c k } { g with wpos := Store.set 0 g.wpos c k }
  putTz : ∀ {f g}, Q f g → ∀ c v, Q { f with tz := f.tz.put c v } { g with tz := g.tz.put c v }
  reject : ∀ {f g}, Q f g → Q { f with init := false } { g with init := false }
  latch : ∀ {f g}, Q f g → ∀ n len fs, Q' (f.latched n len fs) (g.latched n len fs)

/-- Two states that differ in the flags `e` and in their engines as `P` and `Q` allow; `l` are the error flags of the
first. -/
structure Alike (e l : BitVec 7) (P : Phaser → Phaser → Prop) (Q : Flanger → Flanger → Prop) (a b : State) :
    Prop where
  rest : { a with estat := e ||| a.estat, ph := b.ph, fl := b.fl } = b
  low : a.estat &&& 0x1F#7 = l
  ph : P a.ph b.ph
  fl : Q a.fl b.fl

/-- Two states after a command: the first has the flag of its status besides the flags `l`. -/
def AlikeAfter (e l : BitVec 7) (P : Phaser → Phaser → Prop) (Q : Flanger → Flanger → Prop) (a b : State) : Prop :=
  Alike e (l ||| a.status.mask) P Q a b

/-- Two commands complete, in states that are alike after it. -/
def NextAlike (e l : BitVec 7) (P : Phaser → Phaser → Prop) (Q : Flanger → Flanger → Prop)
    (o o' : Host.Outcome State Fault Refusal) : Prop :=
  ∃ t u, o = .next t ∧ o' = .next u ∧ AlikeAfter e l P Q t u

/-- The state with other flags and with the elements that can be stale taken from `r`. -/
def State.withStale (a : State) (estat : BitVec 7) (r : State) : State :=
  { a with
    estat := estat
    ph := { a.ph with phase := r.ph.phase, d0 := r.ph.d0, s := r.ph.s }
    fl := { a.fl with phase := r.fl.phase, wpos := r.fl.wpos, buf := r.fl.buf, tz := r.fl.tz } }

section alike
variable {e l : BitVec 7} {P : Phaser → Phaser → Prop} {Q Q' : Flanger → Flanger → Prop} {a b : State}

/-! ### The shared operations -/

theorem AlikeAfter.next (h : AlikeAfter e l P Q a b) : NextAlike e l P Q (.next a) (.next b) := ⟨a, b, rfl, rfl, h⟩

theorem Alike.cfg (h : Alike e l P Q a b) : b.cfg = a.cfg := by rw [← h.rest]

theorem Alike.din (h : Alike e l P Q a b) : b.din = a.din := by rw [← h.rest]

/-- Outside the flags and the elements that can be stale, the second state is the first. -/
theorem Alike.exists_withStale (hP : PhaserRespects P) (hQ : FlangerRespects Q Q') (h : Alike e l P Q a b) :
    ∃ estat r, b = a.withStale estat r := by
  refine ⟨e ||| a.estat, b, ?_⟩
  rw [State.withStale, hP.regs h.ph, hQ.regs h.fl]
  exact h.rest.symm

theorem Alike.setPh (h : Alike e l P Q a b) {p q : Phaser} (hpq : P p q) :
    Alike e l P Q { a with ph := p } { b with ph := q } :=
  ⟨congrArg (fun s : State => { s with ph := q }) h.rest, h.low, hpq, h.fl⟩

theorem Alike.setFl (h : Alike e l P Q a b) {f g : Flanger} (hfg : Q' f g) :
    Alike e l P Q' { a with fl := f } { b with fl := g } :=
  ⟨congrArg (fun s : State => { s with fl := g }) h.rest, h.low, h.ph, hfg⟩

theorem Alike.flag (h : Alike e l P Q a b) {g : Flag} (hg : g.mask &&& 0x1F#7 = 0#7) :
    Alike e l P Q (a.flag g) (b.flag g) := by
  refine ⟨?_, ?_, h.ph, h.fl⟩
  · rw [← h.rest, State.flag, State.flag, ← BitVec.or_assoc]
  · rw [State.flag_estat, BitVec.and_or_distrib_right, h.low, hg, BitVec.or_zero]

/-- An information flag set in both states. -/
theorem Alike.flagIf (h : Alike e l P Q a b) (c : Bool) {g : Flag} (hg : g.mask &&& 0x1F#7 = 0#7) :
    Alike e l P Q (a.flagIf c g) (b.flagIf c g) := by
  cases c with
  | false => exact h
  | true => exact h.flag hg

theorem Alike.respond (h : Alike e l P Q a b) (v : NumT) :
    AlikeAfter e l P Q (a.respond .ok v) (b.respond .ok v) :=
  ⟨congrArg (State.respond · .ok v) h.rest, h.low.trans (BitVec.or_zero).symm, h.ph, h.fl⟩

theorem Status.mask_and_errors (st : Status) : st.mask &&& 0x1F#7 = st.mask := by
  cases st <;> rfl

theorem Alike.raise (h : Alike e l P Q a b) (st : Status) (v : NumT) :
    AlikeAfter e l P Q (a.raise st v) (b.raise st v) := by
  refine ⟨?_, ?_, h.ph, h.fl⟩
  · rw [← h.rest, State.raise, State.raise, ← BitVec.or_assoc]
  · rw [State.raise_estat, BitVec.and_or_distrib_right, h.low, Status.mask_and_errors, State.raise_status]

theorem Alike.weaken (hQ : FlangerRespects Q Q') (h : Alike e l P Q a b) : Alike e l P Q' a b :=
  ⟨h.rest, h.low, h.ph, hQ.weaken h.fl⟩

theorem Alike.whenInit (h : Alike e l P Q a b) {j k : State} (c : Bool) (v : NumT)
    (hjk : c = true → AlikeAfter e l P Q j k) : AlikeAfter e l P Q (a.whenInit c v j) (b.whenInit c v k) := by
  cases c with
  | false => exact h.raise .uninit v
  | true => exact hjk rfl

theorem Alike.whenChannel (h : Alike e l P Q a b) {j k : State} (c n : Nat) (v : NumT)
    (hjk : c < n → AlikeAfter e l P Q j k) : AlikeAfter e l P Q (a.whenChannel c n v j) (b.whenChannel c n v k) := by
  by_cases hc : c < n
  · rw [State.whenChannel_of_lt hc, State.whenChannel_of_lt hc]
    exact hjk hc
  · rw [State.whenChannel_of_le (not_lt.mp hc), State.whenChannel_of_le (not_lt.mp hc)]
    exact h.raise .badCh v

end alike

section alike
variable {e l : BitVec 7} {P : Phaser → Phaser → Prop} {Q Q' : Flanger → Flanger → Prop} {a b : State}

theorem Alike.setBit (h : Alike e l P Q a b) (ival : BitVec 8) {store : Bool → State → State}
    (hs : ∀ v, Alike e l P Q (store v a) (store v b)) :
    AlikeAfter e l P Q (a.setBit ival store) (b.setBit ival store) := by
  unfold State.setBit
  cases bitOfIval ival with
  | none => exact h.raise _ _
  | some v => exact (hs v).respond _

theorem Alike.setWave (h : Alike e l P Q a b) (ival : BitVec 8) {store : Wave → State → State}
    (hs : ∀ v, Alike e l P Q (store v a) (store v b)) :
    AlikeAfter e l P Q (a.setWave ival store) (b.setWave ival store) := by
  unfold State.setWave
  cases waveOfCode ival.toNat with
  | none => exact h.raise _ _
  | some v => exact (hs v).respond _

theorem Alike.setPhRegs (hP : PhaserRespects P) (h : Alike e l P Q a b) (g : Phaser → Phaser)
    (hg : PhaserRegisters g) : Alike e l P Q { a with ph := g a.ph } { b with ph := g b.ph } :=
  h.setPh (hP.setRegs hg h.ph)

theorem Alike.setFlRegs (hQ : FlangerRespects Q Q') (h : Alike e l P Q a b) (g : Flanger → Flanger)
    (hg : FlangerRegisters g) : Alike e l P Q { a with fl := g a.fl } { b with fl := g b.fl } :=
  h.setFl (hQ.setRegs hg h.fl)

/-! ### The operations on the engines -/

theorem Alike.flWpos (hQ : FlangerRespects Q Q') (h : Alike e l P Q a b) (hi : a.fl.init = true)
    {c : Nat} (hc : c < a.fl.nch) : b.flWpos c = a.flWpos c := hQ.wpos h.fl hi hc

section
variable (hP : PhaserRespects P) (hQ : FlangerRespects Q Q') (h : Alike e l P Q a b)
include hP hQ h

theorem Alike.setReal (ival : BitVec 8) (lo hi : NumT) {store : NumT → State → State}
    (hs : ∀ v {c d}, Alike e l P Q c d → Alike e l P Q (store v c) (store v d)) :
    AlikeAfter e l P Q (a.setReal ival lo hi store) (b.setReal ival lo hi store) := by
  obtain ⟨x, r, rfl⟩ := h.exists_withStale hP hQ
  by_cases hz : ival = 0#8
  · simp only [State.setReal, hz, ne_eq, not_true_eq_false, if_false]
    exact (hs _ (h.flagIf _ rfl)).respond _
  · simp only [State.setReal, hz, ne_eq, not_false_eq_true, if_true]
    exact h.raise _ _

/-! ### The phaser's operations -/

theorem Alike.apfSet (i : Stage) (v : NumT) : Alike e l P Q (a.apfSet i v) (b.apfSet i v) := by
  obtain ⟨x, r, rfl⟩ := h.exists_withStale hP hQ
  have hf := h.flagIf (decide (apfClampFc a.cfg.p v a.ph.fs ≠ v)) (g := .clamp) rfl
  exact hf.setPh (hP.tune hf.ph i _ _)

theorem Alike.setApfReg (i : Stage) (reg : ApfReg) (v : NumT) :
    Alike e l P Q (a.setApfReg i reg v) (b.setApfReg i reg v) := by
  cases reg with
  | fc => exact h.apfSet hP hQ i v
  | q => exact h.setPhRegs hP (fun p => { p with q := p.q.set i v }) {}
  | boost => exact h.setPhRegs hP (fun p => { p with boost := p.boost.set i v }) {}

theorem Alike.apfSet4 (v0 v1 v2 v3 : NumT) :
    Alike e l P Q ((((a.apfSet .s0 v0).apfSet .s1 v1).apfSet .s2 v2).apfSet .s3 v3)
      ((((b.apfSet .s0 v0).apfSet .s1 v1).apfSet .s2 v2).apfSet .s3 v3) := by
  have h0 := h.apfSet hP hQ .s0 v0
  have h1 := h0.apfSet hP hQ .s1 v1
  have h2 := h1.apfSet hP hQ .s2 v2
  exact h2.apfSet hP hQ .s3 v3

theorem Alike.phRetune (m : NumT) : Alike e l P Q (a.phRetune m) (b.phRetune m) := by
  rw [State.phRetune_eq, State.phRetune_eq, h.cfg]
  exact h.apfSet4 hP hQ _ _ _ _

variable {c : Nat}

/-! What the engines' commands read under their guards agrees. -/

theorem Alike.apfOut (hi : a.ph.init = true) (hc : c < a.ph.nch) (i : Stage) (x : NumT) :
    b.apfOut i c x = a.apfOut i c x := by
  have hd0 := hP.d0 h.ph hi
  have hs := hP.stage h.ph hi hc
  obtain ⟨y, r, rfl⟩ := h.exists_withStale hP hQ
  simp only [State.apfOut, hd0, hs]
  rfl

theorem Alike.alphaDen (hi : a.ph.init = true) : b.alphaDen = a.alphaDen := by
  have hd0 := hP.d0 h.ph hi
  obtain ⟨y, r, rfl⟩ := h.exists_withStale hP hQ
  simp only [State.alphaDen, State.gamma4, State.gamma3, State.gamma2, State.gamma1, hd0]
  rfl

theorem Alike.feedbackSum (hi : a.ph.init = true) (hc : c < a.ph.nch) : b.feedbackSum c = a.feedbackSum c := by
  have hd0 := hP.d0 h.ph hi
  have hs := hP.stage h.ph hi hc
  obtain ⟨y, r, rfl⟩ := h.exists_withStale hP hQ
  simp only [State.feedbackSum, State.gamma3, State.gamma2, State.gamma1, hd0, hs]
  rfl

theorem Alike.cascadeIn (hi : a.ph.init = true) (hc : c < a.ph.nch) (x : NumT) :
    b.cascadeIn c x = a.cascadeIn c x := by
  have hden := h.alphaDen hP hQ hi
  have hsum := h.feedbackSum hP hQ hi hc
  obtain ⟨y, r, rfl⟩ := h.exists_withStale hP hQ
  simp only [State.cascadeIn, State.alpha0, hden, hsum]
  rfl

theorem Alike.cascadeOut (hi : a.ph.init = true) (hc : c < a.ph.nch) (u : NumT) :
    b.cascadeOut c u = a.cascadeOut c u := by
  simp only [State.cascadeOut, h.apfOut hP hQ hi hc]

theorem Alike.apfStep (hi : a.ph.init = true) (hc : c < a.ph.nch) (i : Stage) (x : NumT) :
    Alike e l P Q (a.apfStep i c x) (b.apfStep i c x) := by
  have hd0 : b.ph.d0.get i = a.ph.d0.get i := congrArg (Four.get · i) (hP.d0 h.ph hi)
  have hout := h.apfOut hP hQ hi hc i x
  obtain ⟨y, r, rfl⟩ := h.exists_withStale hP hQ
  simp only [State.apfStep, hout, hd0]
  exact h.setPh (hP.putStage h.ph i c _)

theorem Alike.cascadeStep (hi : a.ph.init = true) (hc : c < a.ph.nch) (u : NumT) :
    Alike e l P Q (a.cascadeStep c u) (b.cascadeStep c u) := by
  simp only [State.cascadeStep, h.cascadeOut hP hQ hi hc]
  have h0 := h.apfStep hP hQ hi hc .s0 u
  have h1 := h0.apfStep hP hQ hi hc .s1 (a.cascadeOut c u).s0
  have h2 := h1.apfStep hP hQ hi hc .s2 (a.cascadeOut c u).s1
  exact h2.apfStep hP hQ hi hc .s3 (a.cascadeOut c u).s2

theorem Alike.phNextPhase (hi : a.ph.init = true) (hc : c < a.ph.nch) : b.phNextPhase c = a.phNextPhase c := by
  have hp := hP.phase h.ph hi hc
  obtain ⟨y, r, rfl⟩ := h.exists_withStale hP hQ
  simp only [State.phNextPhase, hp]
  rfl

theorem Alike.phModulate
    (hi : a.ph.init = true) (hc : c < a.ph.nch) : Alike e l P Q (a.phModulate c) (b.phModulate c) := by
  have hnext := h.phNextPhase hP hQ hi hc
  have hmod : b.phModulation c = a.phModulation c := by
    obtain ⟨y, r, rfl⟩ := h.exists_withStale hP hQ
    simp only [State.phModulation, hnext]
    rfl
  simp only [State.phModulate, hnext, hmod]
  exact (h.setPh (hP.putPhase h.ph c (a.phNextPhase c))).phRetune hP hQ (a.phModulation c)

theorem Alike.phProcess (hi : a.ph.init = true) (hc : c < a.ph.nch) (x : NumT) :
    AlikeAfter e l P Q (a.phProcess c x) (b.phProcess c x) := by
  have ht := h.phModulate hP hQ hi hc
  obtain ⟨-, -, -, -, -, hph⟩ := State.phModulate_frame a c
  have hti : (a.phModulate c).ph.init = true := by rw [hph]; exact hi
  have htc : c < (a.phModulate c).ph.nch := by rw [hph]; exact hc
  have hin := ht.cascadeIn hP hQ hti htc x
  have hout := ht.cascadeOut hP hQ hti htc ((a.phModulate c).cascadeIn c x)
  have hden := ht.alphaDen hP hQ hti
  simp only [State.phProcess, hin, hout, hden, h.cfg, ht.cfg]
  have hflag := ht.flagIf (clampDen (a.phModulate c).cfg.p (a.phModulate c).alphaDen).isSome (g := .denClamp) rfl
  exact (hflag.cascadeStep hP hQ (by simpa using hti) (by simpa using htc) _).respond _

/-! ### The flanger's operations -/

theorem Alike.dlRead (hi : a.fl.init = true) (hc : c < a.fl.nch) (d : NumT) : b.dlRead c d = a.dlRead c d := by
  have hw := h.flWpos hQ hi hc
  have htap := hQ.tap h.fl hi hc
  obtain ⟨y, r, rfl⟩ := h.exists_withStale hP hQ
  have hlen : (a.withStale y r).fl.len = a.fl.len := rfl
  have hnum : (a.withStale y r).num = a.num := rfl
  simp only [State.dlRead, dlTaps, hw, hlen, hnum, htap]

theorem Alike.flNextPhase (hi : a.fl.init = true) (hc : c < a.fl.nch) : b.flNextPhase c = a.flNextPhase c := by
  have hp := hQ.phase h.fl hi hc
  obtain ⟨y, r, rfl⟩ := h.exists_withStale hP hQ
  simp only [State.flNextPhase, hp]
  rfl

theorem Alike.flTap (hi : a.fl.init = true) (hc : c < a.fl.nch) : b.flTap c = a.flTap c := by
  have hp := h.flNextPhase hP hQ hi hc
  have hd : b.flDelay = a.flDelay := by
    obtain ⟨y, r, rfl⟩ := h.exists_withStale hP hQ
    rfl
  simp only [State.flTap, hp, hd, h.dlRead hP hQ hi hc]

theorem Alike.flOut (hi : a.fl.init = true) (hc : c < a.fl.nch) (x : NumT) : b.flOut c x = a.flOut c x := by
  have ht := h.flTap hP hQ hi hc
  obtain ⟨y, r, rfl⟩ := h.exists_withStale hP hQ
  simp only [State.flOut, ht]
  rfl

theorem Alike.flAdvance (hi : a.fl.init = true) (hc : c < a.fl.nch) (x : NumT) :
    Alike e l P Q (a.flAdvance c x) (b.flAdvance c x) := by
  have ht := h.flTap hP hQ hi hc
  have hp := h.flNextPhase hP hQ hi hc
  have hw := h.flWpos hQ hi hc
  obtain ⟨y, r, rfl⟩ := h.exists_withStale hP hQ
  simp only [State.flAdvance, ht, hp, hw]
  exact h.setFl (hQ.putWpos (hQ.putWord (hQ.putPhase h.fl c _) c _ _) c _)

theorem Alike.toneLp (hi : a.fl.init = true) (hc : c < a.fl.nch) (x : NumT) : b.toneLp c x = a.toneLp c x := by
  have hz := hQ.tz h.fl hi hc
  obtain ⟨y, r, rfl⟩ := h.exists_withStale hP hQ
  simp only [State.toneLp, hz]
  rfl

theorem Alike.toneOut (hi : a.fl.init = true) (hc : c < a.fl.nch) (x : NumT) : b.toneOut c x = a.toneOut c x := by
  have hlp := h.toneLp hP hQ hi hc x
  obtain ⟨y, r, rfl⟩ := h.exists_withStale hP hQ
  simp only [State.toneOut, hlp]
  rfl

theorem Alike.toneStep
    (hi : a.fl.init = true) (hc : c < a.fl.nch) (x : NumT) : Alike e l P Q (a.toneStep c x) (b.toneStep c x) := by
  have hlp := h.toneLp hP hQ hi hc x
  obtain ⟨y, r, rfl⟩ := h.exists_withStale hP hQ
  simp only [State.toneStep, hlp]
  exact h.setFl (hQ.putTz h.fl c _)

theorem Alike.flProcess (hi : a.fl.init = true) (hc : c < a.fl.nch) (x : NumT) :
    AlikeAfter e l P Q (a.flProcess c x) (b.flProcess c x) := by
  have ht := h.flAdvance hP hQ hi hc x
  have hout := h.flOut hP hQ hi hc x
  have hen : b.fl.toneEn = a.fl.toneEn := by
    obtain ⟨y, r, rfl⟩ := h.exists_withStale hP hQ
    rfl
  simp only [State.flProcess, hout, hen, ht.toneOut hP hQ hi hc]
  cases a.fl.toneEn with
  | false => exact ht.respond _
  | true => exact (ht.toneStep hP hQ hi hc _).respond _

theorem Alike.engPhase {eng : Engine}
    (hi : a.engInit eng = true) (hc : c < a.engNch eng) : b.engPhase eng c = a.engPhase eng c := by
  cases eng with
  | phaser => exact hP.phase h.ph hi hc
  | flanger => exact hQ.phase h.fl hi hc

theorem Alike.setEngPhase (eng : Engine)
    (c : Nat) (p : NumT) : Alike e l P Q (a.setEngPhase eng c p) (b.setEngPhase eng c p) := by
  cases eng with
  | phaser => exact h.setPh (hP.putPhase h.ph c p)
  | flanger => exact h.setFl (hQ.putPhase h.fl c p)

end

end alike

section alike
variable {e l : BitVec 7} {P : Phaser → Phaser → Prop} {Q Q' : Flanger → Flanger → Prop} {a b : State}

/-! ### The engine resets -/

theorem State.flagIf_eq (s : State) (c : Bool) (g : Flag) :
    s.flagIf c g = { s with estat := if c then s.estat ||| g.mask else s.estat } := by
  cases c <;> rfl

/-- Retuning overwrites every coefficient: `PH.RESET` is four retunings of the latched phaser, whatever coefficients
it holds before. -/
theorem phReset_eq_apfSet4 (s : State) (n : Nat) (fs : NumT) (d0 : Four NumT) :
    ((s.phLatch n fs).retuneAll).setPhInit true
      = (((({ s with ph := s.ph.latched n fs s.ph.fc d0 } : State).apfSet .s0 (s.ph.fc.get .s0)).apfSet .s1
        (s.ph.fc.get .s1)).apfSet .s2 (s.ph.fc.get .s2)).apfSet .s3 (s.ph.fc.get .s3) := by
  simp only [State.retuneAll, State.apfSet, State.flagIf_eq, State.phLatch, State.setPhInit, Phaser.latched]
  rfl

theorem flReset_eq_latched (s : State) (n : Nat) (fs : NumT) :
    (s.flLatch n fs).setFlInit true = { s with fl := s.fl.latched n (latchedLen s.cfg.p fs) fs } := rfl

theorem NextAlike.weaken (hQ : FlangerRespects Q Q') {o o' : Host.Outcome State Fault Refusal}
    (h : NextAlike e l P Q o o') : NextAlike e l P Q' o o' := by
  obtain ⟨t, u, ht, hu, halike⟩ := h
  exact ⟨t, u, ht, hu, Alike.weaken hQ halike⟩

theorem Alike.execFlReset (hQ : FlangerRespects Q Q') (h : Alike e l P Q a b) (n : BitVec 8) :
    NextAlike e l P Q' (execFlReset n a) (execFlReset n b) := by
  refine AlikeAfter.next ?_
  rw [h.cfg, h.din]
  split
  · exact (h.setFl (hQ.weaken (hQ.reject h.fl))).raise _ _
  · have hlen : latchedLen b.cfg.p a.din = latchedLen a.cfg.p a.din := by rw [h.cfg]
    rw [flReset_eq_latched, flReset_eq_latched, hlen]
    exact (h.setFl (hQ.latch h.fl _ _ _)).respond _

section
variable (hP : PhaserRespects P) (hQ : FlangerRespects Q Q') (h : Alike e l P Q a b)
include hP hQ h

theorem Alike.phReset (n : Nat) (fs : NumT) :
    Alike e l P Q (((a.phLatch n fs).retuneAll).setPhInit true) (((b.phLatch n fs).retuneAll).setPhInit true) := by
  rw [phReset_eq_apfSet4 a n fs a.ph.d0, phReset_eq_apfSet4 b n fs a.ph.d0]
  have hfc : b.ph.fc = a.ph.fc := by rw [← hP.regs h.ph]
  rw [hfc]
  exact (h.setPh (hP.latch h.ph n fs a.ph.fc a.ph.d0)).apfSet4 hP hQ _ _ _ _

theorem Alike.execPhReset (n : BitVec 8) :
    NextAlike e l P Q (execPhReset n a) (execPhReset n b) := by
  refine AlikeAfter.next ?_
  rw [h.cfg, h.din]
  split
  · exact (h.setPh (hP.reject h.ph)).raise _ _
  · exact (h.phReset hP hQ _ _).respond _

/-! ### The parameter registers -/

theorem Alike.execPhSetp (ival pid : BitVec 8) :
    NextAlike e l P Q (execPhSetp ival pid a) (execPhSetp ival pid b) := by
  refine AlikeAfter.next ?_
  rw [h.cfg]
  cases PhReg.ofPid pid with
  | none => exact h.raise _ _
  | some r =>
    cases r with
    | rate => exact h.setReal hP hQ ival _ _ fun v {_ _} k => k.setPhRegs hP (fun p => { p with rate := v }) {}
    | depth => exact h.setReal hP hQ ival _ _ fun v {_ _} k => k.setPhRegs hP (fun p => { p with depth := v }) {}
    | intensity =>
      exact h.setReal hP hQ ival _ _ fun v {_ _} k => k.setPhRegs hP (fun p => { p with intensity := v }) {}
    | quad => exact h.setBit ival fun v => h.setPhRegs hP (fun p => { p with quad := v }) {}
    | fbsw => exact h.setBit ival fun v => h.setPhRegs hP (fun p => { p with fbsw := v }) {}
    | wave => exact h.setWave ival fun v => h.setPhRegs hP (fun p => { p with wave := v }) {}
    | fs | nch | init => exact h.raise _ _

theorem Alike.execFlSetp (ival pid : BitVec 8) :
    NextAlike e l P Q (execFlSetp ival pid a) (execFlSetp ival pid b) := by
  refine AlikeAfter.next ?_
  rw [h.cfg]
  cases FlReg.ofPid pid with
  | none => exact h.raise _ _
  | some r =>
    cases r with
    | rate => exact h.setReal hP hQ ival _ _ fun v {_ _} k => k.setFlRegs hQ (fun f => { f with rate := v }) {}
    | depth => exact h.setReal hP hQ ival _ _ fun v {_ _} k => k.setFlRegs hQ (fun f => { f with depth := v }) {}
    | fb => exact h.setReal hP hQ ival _ _ fun v {_ _} k => k.setFlRegs hQ (fun f => { f with fb := v }) {}
    | inv => exact h.setBit ival fun v => h.setFlRegs hQ (fun f => { f with inv := v }) {}
    | toneEn => exact h.setBit ival fun v => h.setFlRegs hQ (fun f => { f with toneEn := v }) {}
    | fs | nch | init | len => exact h.raise _ _

theorem Alike.execPhGetp (pid : BitVec 8) :
    NextAlike e l P Q (execPhGetp pid a) (execPhGetp pid b) := by
  refine AlikeAfter.next ?_
  cases PhReg.ofPid pid with
  | none => exact h.raise _ _
  | some r =>
    have hreg : b.phReg r = a.phReg r := by
      obtain ⟨y, s, rfl⟩ := h.exists_withStale hP hQ
      cases r <;> rfl
    simp only [hreg]
    exact h.respond _

theorem Alike.execFlGetp (pid : BitVec 8) :
    NextAlike e l P Q (execFlGetp pid a) (execFlGetp pid b) := by
  refine AlikeAfter.next ?_
  cases FlReg.ofPid pid with
  | none => exact h.raise _ _
  | some r =>
    have hreg : b.flReg r = a.flReg r := by
      obtain ⟨y, s, rfl⟩ := h.exists_withStale hP hQ
      cases r <;> rfl
    simp only [hreg]
    exact h.respond _

/-! ### The guarded commands -/

/-- The guards of a phaser's per-channel command. -/
theorem Alike.whenPh (ch : BitVec 8) (v : NumT) {j k : State}
    (hjk : a.ph.init = true → ch.toNat < a.ph.nch → AlikeAfter e l P Q j k) :
    AlikeAfter e l P Q (a.whenInit a.ph.init v (a.whenChannel ch.toNat a.ph.nch v j))
      (b.whenInit b.ph.init v (b.whenChannel ch.toNat b.ph.nch v k)) := by
  obtain ⟨y, s, rfl⟩ := h.exists_withStale hP hQ
  exact h.whenInit a.ph.init v fun hi => h.whenChannel _ _ v fun hc => hjk hi hc

/-- The guard of a phaser's command without a channel. -/
theorem Alike.whenPhInit (v : NumT) {j k : State} (hjk : a.ph.init = true → AlikeAfter e l P Q j k) :
    AlikeAfter e l P Q (a.whenInit a.ph.init v j) (b.whenInit b.ph.init v k) := by
  obtain ⟨y, s, rfl⟩ := h.exists_withStale hP hQ
  exact h.whenInit a.ph.init v hjk

theorem Alike.whenFl (ch : BitVec 8) (v : NumT) {j k : State}
    (hjk : a.fl.init = true → ch.toNat < a.fl.nch → AlikeAfter e l P Q j k) :
    AlikeAfter e l P Q (a.whenFl ch v j) (b.whenFl ch v k) := by
  obtain ⟨y, s, rfl⟩ := h.exists_withStale hP hQ
  exact h.whenInit a.fl.init v fun hi => h.whenChannel _ _ v fun hc => hjk hi hc

theorem Alike.whenLfo (eng : Engine) (ch : BitVec 8) {j k : State}
    (hjk : a.engInit eng = true → ch.toNat < a.engNch eng → AlikeAfter e l P Q j k) :
    AlikeAfter e l P Q (a.whenLfo eng ch j) (b.whenLfo eng ch k) := by
  obtain ⟨y, s, rfl⟩ := h.exists_withStale hP hQ
  cases eng with
  | phaser => exact h.whenPh hP hQ ch .zero hjk
  | flanger => exact Alike.whenFl hP hQ h ch .zero hjk

theorem Alike.execPhProc (ch : BitVec 8) :
    NextAlike e l P Q (execPhProc ch a) (execPhProc ch b) := by
  refine AlikeAfter.next ?_
  rw [h.din]
  exact h.whenPh hP hQ ch _ fun hi hc => h.phProcess hP hQ hi hc _

theorem Alike.execApfSetp (fsel : BitVec 2) (i : Stage) :
    NextAlike e l P Q (execApfSetp fsel i a) (execApfSetp fsel i b) := by
  refine AlikeAfter.next ?_
  rw [h.din]
  cases ApfReg.ofFsel fsel with
  | none => exact h.raise _ _
  | some r => exact h.whenPhInit hP hQ _ fun _ => (h.setApfReg hP hQ i r _).respond _

theorem Alike.execApfGetp (fsel : BitVec 2) (i : Stage) :
    NextAlike e l P Q (execApfGetp fsel i a) (execApfGetp fsel i b) := by
  refine AlikeAfter.next ?_
  cases ApfReg.ofFsel fsel with
  | none => exact h.raise _ _
  | some r =>
    have hreg : b.apfReg i r = a.apfReg i r := by
      obtain ⟨y, s, rfl⟩ := h.exists_withStale hP hQ
      cases r <;> rfl
    simp only [hreg]
    exact h.whenPhInit hP hQ _ fun _ => h.respond _

theorem Alike.execApfProc (ch : BitVec 8) (i : Stage) :
    NextAlike e l P Q (execApfProc ch i a) (execApfProc ch i b) := by
  refine AlikeAfter.next ?_
  rw [h.din]
  refine h.whenPh hP hQ ch _ fun hi hc => ?_
  rw [h.apfOut hP hQ hi hc]
  exact (h.apfStep hP hQ hi hc i _).respond _

theorem Alike.execApfGetg (i : Stage) :
    NextAlike e l P Q (execApfGetg i a) (execApfGetg i b) := by
  refine AlikeAfter.next (h.whenPhInit hP hQ _ fun hi => ?_)
  rw [hP.d0 h.ph hi]
  exact h.respond _

theorem Alike.execApfGets (ch : BitVec 8) (i : Stage) :
    NextAlike e l P Q (execApfGets ch i a) (execApfGets ch i b) := by
  refine AlikeAfter.next (h.whenPh hP hQ ch _ fun hi hc => ?_)
  rw [hP.stage h.ph hi hc]
  exact h.respond _

theorem Alike.execLfoAdv (ch : BitVec 8) (xinc : Bool) (eng : Engine) :
    NextAlike e l P Q (execLfoAdv ch xinc eng a) (execLfoAdv ch xinc eng b) := by
  refine AlikeAfter.next (h.whenLfo hP hQ eng ch fun hi hc => ?_)
  have hinc : (if xinc then b.din else b.engStep eng) = if xinc then a.din else a.engStep eng := by
    obtain ⟨y, s, rfl⟩ := h.exists_withStale hP hQ
    cases eng <;> rfl
  have hnum : b.num = a.num := congrArg (·.p.num) h.cfg
  rw [hinc, hnum, h.engPhase hP hQ hi hc]
  exact (h.setEngPhase hP hQ eng _ _).respond _

theorem Alike.execLfoRender (ch : BitVec 8) (wave : BitVec 3) (quad : Bool) (eng : Engine) :
    NextAlike e l P Q (execLfoRender ch wave quad eng a) (execLfoRender ch wave quad eng b) := by
  refine AlikeAfter.next (h.whenLfo hP hQ eng ch fun hi hc => ?_)
  have hnum : b.num = a.num := congrArg (·.p.num) h.cfg
  cases waveOfCode wave.toNat with
  | none => exact h.raise _ _
  | some w =>
    simp only [hnum, h.engPhase hP hQ hi hc]
    exact h.respond _

theorem Alike.execLfoGetph (ch : BitVec 8) (eng : Engine) :
    NextAlike e l P Q (execLfoGetph ch eng a) (execLfoGetph ch eng b) := by
  refine AlikeAfter.next (h.whenLfo hP hQ eng ch fun hi hc => ?_)
  rw [h.engPhase hP hQ hi hc]
  exact h.respond _

theorem Alike.execFlProc (ch : BitVec 8) :
    NextAlike e l P Q (execFlProc ch a) (execFlProc ch b) := by
  refine AlikeAfter.next ?_
  rw [h.din]
  exact h.whenFl hP hQ ch _ fun hi hc => h.flProcess hP hQ hi hc _

theorem Alike.execDlRead (ch : BitVec 8) :
    NextAlike e l P Q (execDlRead ch a) (execDlRead ch b) := by
  refine AlikeAfter.next (h.whenFl hP hQ ch _ fun hi hc => ?_)
  rw [h.din, h.dlRead hP hQ hi hc]
  exact h.respond _

theorem Alike.execDlPeek (ch : BitVec 8) (addr : BitVec 16) :
    NextAlike e l P Q (execDlPeek ch addr a) (execDlPeek ch addr b) := by
  refine AlikeAfter.next (h.whenFl hP hQ ch _ fun hi hc => ?_)
  have hlen : b.fl.len = a.fl.len := by rw [← hQ.regs h.fl]
  rw [hlen]
  split
  · next hk =>
    rw [hQ.word h.fl hi hc hk]
    exact h.respond _
  · exact h.raise _ _

theorem Alike.execDlGetw (ch : BitVec 8) :
    NextAlike e l P Q (execDlGetw ch a) (execDlGetw ch b) := by
  refine AlikeAfter.next (h.whenFl hP hQ ch _ fun hi hc => ?_)
  rw [h.flWpos hQ hi hc]
  exact h.respond _

theorem Alike.execToneProc (ch : BitVec 8) :
    NextAlike e l P Q (execToneProc ch a) (execToneProc ch b) := by
  refine AlikeAfter.next ?_
  rw [h.din]
  refine h.whenFl hP hQ ch _ fun hi hc => ?_
  rw [h.toneOut hP hQ hi hc]
  exact (h.toneStep hP hQ hi hc _).respond _

theorem Alike.execToneGets (ch : BitVec 8) :
    NextAlike e l P Q (execToneGets ch a) (execToneGets ch b) := by
  refine AlikeAfter.next (h.whenFl hP hQ ch _ fun hi hc => ?_)
  rw [hQ.tz h.fl hi hc]
  exact h.respond _

/-! ### Every command -/

/-- Every command other than `FL.RESET` and the two flag commands keeps the relation. -/
theorem Alike.exec_of_ne_flReset {i : Instr} (hget : i ≠ .sysGete) (hclr : i ≠ .sysClre) (hfl : ∀ n, i ≠ .flReset n) :
    NextAlike e l P Q (exec i a) (exec i b) := by
  cases i with
  | sysGete => exact absurd rfl hget
  | sysClre => exact absurd rfl hclr
  | flReset n => exact absurd rfl (hfl n)
  | nop => exact (h.respond _).next
  | phReset n => exact h.execPhReset hP hQ n
  | phSetp ival pid => exact h.execPhSetp hP hQ ival pid
  | phGetp pid => exact h.execPhGetp hP hQ pid
  | phProc ch => exact h.execPhProc hP hQ ch
  | apfSetp fsel st => exact h.execApfSetp hP hQ fsel st
  | apfGetp fsel st => exact h.execApfGetp hP hQ fsel st
  | apfProc ch st => exact h.execApfProc hP hQ ch st
  | apfGetg st => exact h.execApfGetg hP hQ st
  | apfGets ch st => exact h.execApfGets hP hQ ch st
  | lfoAdv ch xinc eng => exact h.execLfoAdv hP hQ ch xinc eng
  | lfoRender ch wave quad eng => exact h.execLfoRender hP hQ ch wave quad eng
  | lfoGetph ch eng => exact h.execLfoGetph hP hQ ch eng
  | flSetp ival pid => exact h.execFlSetp hP hQ ival pid
  | flGetp pid => exact h.execFlGetp hP hQ pid
  | flProc ch => exact h.execFlProc hP hQ ch
  | dlRead ch => exact h.execDlRead hP hQ ch
  | dlPeek ch addr => exact h.execDlPeek hP hQ ch addr
  | dlGetw ch => exact h.execDlGetw hP hQ ch
  | toneProc ch => exact h.execToneProc hP hQ ch
  | toneGets ch => exact h.execToneGets hP hQ ch

/-- Every command other than the two flag commands completes alike from states that are alike. -/
theorem exec_alike {i : Instr} (hget : i ≠ .sysGete) (hclr : i ≠ .sysClre) :
    NextAlike e l P Q' (exec i a) (exec i b) := by
  by_cases hfl : ∃ n, i = .flReset n
  · obtain ⟨n, rfl⟩ := hfl
    exact h.execFlReset hQ n
  · exact (h.exec_of_ne_flReset hP hQ hget hclr (not_exists.mp hfl)).weaken hQ

end

end alike

/-! ## The sticky flags (rules R26, R240) -/

theorem phaserRespects_eq : PhaserRespects Eq where
  regs := by rintro p _ rfl; rfl
  d0 := by rintro p _ rfl _; rfl
  phase := by rintro p _ c rfl _ _; rfl
  stage := by rintro p _ c rfl _ _ i; rfl
  setRegs := by rintro p _ g _ rfl; rfl
  tune := by rintro p _ rfl i v w; rfl
  putPhase := by rintro p _ rfl c v; rfl
  putStage := by rintro p _ rfl i c v; rfl
  reject := by rintro p _ rfl; rfl
  latch := by rintro p _ rfl n fs fc d0; rfl

theorem flangerRespects_eq : FlangerRespects Eq Eq where
  weaken := id
  regs := by rintro f _ rfl; rfl
  phase := by rintro f _ c rfl _ _; rfl
  wpos := by rintro f _ c rfl _ _; rfl
  tz := by rintro f _ c rfl _ _; rfl
  word := by rintro f _ c k rfl _ _ _; rfl
  tap := by rintro f _ c rfl _ _ z; rfl
  setRegs := by rintro f _ r _ rfl; rfl
  putPhase := by rintro f _ rfl c v; rfl
  putWord := by rintro f _ rfl c k v; rfl
  putWpos := by rintro f _ rfl c k; rfl
  putTz := by rintro f _ rfl c v; rfl
  reject := by rintro f _ rfl; rfl
  latch := by rintro f _ rfl n len fs; rfl

/-- A run from any flags `e` is the run from no flags, with `e` added. -/
theorem exec_flags {i : Instr} (hget : i ≠ .sysGete) (hclr : i ≠ .sysClre) (s : State) (e : BitVec 7) :
    ∃ t, exec i { s with estat := 0#7 } = .next t ∧ t.estat &&& 0x1F#7 = t.status.mask ∧
      exec i { s with estat := e } = .next { t with estat := e ||| t.estat } := by
  have h : Alike e 0#7 Eq Eq { s with estat := 0#7 } { s with estat := e } :=
    ⟨by simp only [BitVec.or_zero], BitVec.zero_and, rfl, rfl⟩
  obtain ⟨t, u, ht, hu, hrest, hlow, hph, hfl⟩ := exec_alike phaserRespects_eq flangerRespects_eq h hget hclr
  refine ⟨t, ht, hlow.trans BitVec.zero_or, ?_⟩
  rw [hu, ← hrest, ← hph, ← hfl]

/-- Settles O13: the flags added are those of the run from no flags. -/
theorem flagsStickyAndUnread : Obligations.FlagsStickyAndUnread := by
  intro i s hget hclr
  obtain ⟨t, ht, hlow, -⟩ := exec_flags hget hclr s 0#7
  refine ⟨t, t.estat, hlow, fun e => ?_⟩
  obtain ⟨t', ht', -, he⟩ := exec_flags hget hclr s e
  obtain rfl := Host.Outcome.next.inj (ht.symm.trans ht')
  exact he

/-! ## Stale elements (rules R29, R51, R59) -/

theorem PhaserRegisters.keeps {g : Phaser → Phaser} (hg : PhaserRegisters g) (p : Phaser) :
    (g p).phase = p.phase ∧ (g p).d0 = p.d0 ∧ (g p).s = p.s := by
  have h := hg.comm p p.phase p.d0 p.s
  exact ⟨(congrArg Phaser.phase h :), (congrArg Phaser.d0 h :), (congrArg Phaser.s h :)⟩

theorem FlangerRegisters.keeps {r : Flanger → Flanger} (hr : FlangerRegisters r) (f : Flanger) :
    (r f).phase = f.phase ∧ (r f).wpos = f.wpos ∧ (r f).buf = f.buf ∧ (r f).tz = f.tz := by
  have h := hr.comm f f.phase f.wpos f.buf f.tz
  exact ⟨(congrArg Flanger.phase h :), (congrArg Flanger.wpos h :),
    (congrArg Flanger.buf h :), (congrArg Flanger.tz h :)⟩

theorem Phaser.SameLive.setRegs {p q : Phaser} {g : Phaser → Phaser} (hg : PhaserRegisters g) (h : p.SameLive q) :
    (g p).SameLive (g q) := by
  obtain ⟨hregs, hlive⟩ := h
  obtain ⟨pphase, pd0, ps⟩ := hg.keeps p
  obtain ⟨qphase, qd0, qs⟩ := hg.keeps q
  constructor
  · rw [qphase, qd0, qs, ← hg.comm, hregs]
  · rw [hg.init, hg.nch, pphase, pd0, ps, qphase, qd0, qs]
    exact hlive

theorem Flanger.SameLive.setRegs {f g : Flanger} {r : Flanger → Flanger} (hr : FlangerRegisters r)
    (h : f.SameLive g) : (r f).SameLive (r g) := by
  obtain ⟨hregs, hlive⟩ := h
  obtain ⟨fphase, fwpos, fbuf, ftz⟩ := hr.keeps f
  obtain ⟨gphase, gwpos, gbuf, gtz⟩ := hr.keeps g
  constructor
  · rw [gphase, gwpos, gbuf, gtz, ← hr.comm, hregs]
  · rw [hr.init, hr.nch, hr.len, fphase, fwpos, fbuf, ftz, gphase, gwpos, gbuf, gtz]
    exact hlive

/-- After a successful `PH.RESET` the coefficients are those computed and the channels below `n` are zeroed. -/
theorem Phaser.SameLive.latch {p q : Phaser} (h : p.SameLive q) (n : Nat) (fs : NumT) (fc d0 : Four NumT) :
    (p.latched n fs fc d0).SameLive (q.latched n fs fc d0) := by
  refine ⟨congrArg (Phaser.latched · n fs fc d0) h.1, fun _ => ⟨rfl, fun c hc => ?_⟩⟩
  have hc' : ¬ n ≤ c := Nat.not_le.mpr hc
  refine ⟨by simp [Phaser.latched, hc'], fun i => ?_⟩
  cases i <;> simp [Phaser.latched, Four.get, hc']

theorem Flanger.SameLive.latch {f g : Flanger} (h : f.SameLive g) (n len : Nat) (fs : NumT) :
    (f.latched n len fs).SameLive (g.latched n len fs) := by
  refine ⟨congrArg (Flanger.latched · n len fs) h.1, fun _ c hc => ?_⟩
  have hn : c < n := hc
  have hc' : ¬ n ≤ c := Nat.not_le.mpr hc
  refine ⟨by simp [Flanger.latched, hc'], by simp [Flanger.latched, hc'], by simp [Flanger.latched, hc'],
    fun k hk => ?_⟩
  have hk' : k < len := hk
  simp [Flanger.latched, hn, hk']

theorem Phaser.SameLive.channel {p q : Phaser} {c : Nat} (h : p.SameLive q) (hi : p.init = true) (hc : c < p.nch) :
    p.phase.at c = q.phase.at c ∧ ∀ i, (p.s.get i).at c = (q.s.get i).at c := (h.2 hi).2 c hc

theorem Flanger.SameLive.channel {f g : Flanger} {c : Nat} (h : f.SameLive g) (hi : f.init = true)
    (hc : c < f.nch) : f.phase.at c = g.phase.at c ∧ Store.get 0 f.wpos c = Store.get 0 g.wpos c ∧
      f.tz.at c = g.tz.at c ∧ ∀ k < f.len, f.buf.read c k = g.buf.read c k := h.2 hi c hc

theorem phaserRespects_sameLive : PhaserRespects Phaser.SameLive where
  regs h := h.1
  d0 h hi := by
    obtain ⟨hd0, -⟩ := h.2 hi
    exact hd0.symm
  phase h hi hc := by
    obtain ⟨hphase, -⟩ := h.channel hi hc
    exact hphase.symm
  stage h hi hc i := by
    obtain ⟨-, hstage⟩ := h.channel hi hc
    exact (hstage i).symm
  setRegs hg h := h.setRegs hg
  tune {p q} h i v w := by
    refine ⟨congrArg (fun r : Phaser => { r with fc := r.fc.set i v, d0 := r.d0.set i w }) h.1, fun hi => ?_⟩
    obtain ⟨hd0, hchan⟩ := h.2 hi
    exact ⟨congrArg (Four.set · i w) hd0, hchan⟩
  putPhase {p q} h c v := by
    refine ⟨congrArg (fun r : Phaser => { r with phase := q.phase.put c v }) h.1, fun hi => ?_⟩
    obtain ⟨hd0, hchan⟩ := h.2 hi
    refine ⟨hd0, fun k hk => ?_⟩
    obtain ⟨hphase, hstage⟩ := hchan k hk
    exact ⟨by rw [Store.at_put, Store.at_put, hphase], hstage⟩
  putStage {p q} h i c v := by
    refine ⟨congrArg (fun r : Phaser => { r with s := q.s.set i ((q.s.get i).put c v) }) h.1, fun hi => ?_⟩
    obtain ⟨hd0, hchan⟩ := h.2 hi
    refine ⟨hd0, fun k hk => ?_⟩
    obtain ⟨hphase, hstage⟩ := hchan k hk
    refine ⟨hphase, fun j => ?_⟩
    by_cases hj : j = i <;> simp [hj, hstage]
  reject h := ⟨congrArg (fun r : Phaser => { r with init := false }) h.1, fun hi => nomatch hi⟩
  latch h n fs fc d0 := h.latch n fs fc d0

/-- Flangers that agree on live state, where an initialised one with a channel has a buffer: its taps then lie
below `FL_LEN`. -/
def FlangerLive (f g : Flanger) : Prop := f.SameLive g ∧ (f.init = true → 0 < f.nch → 0 < f.len)

theorem flangerRespects_live : FlangerRespects FlangerLive Flanger.SameLive where
  weaken h := h.1
  regs h := h.1.1
  phase h hi hc := by
    obtain ⟨hphase, -⟩ := h.1.channel hi hc
    exact hphase.symm
  wpos h hi hc := by
    obtain ⟨-, hwpos, -⟩ := h.1.channel hi hc
    exact hwpos.symm
  tz h hi hc := by
    obtain ⟨-, -, htz, -⟩ := h.1.channel hi hc
    exact htz.symm
  word h hi hc hk := by
    obtain ⟨-, -, -, hword⟩ := h.1.channel hi hc
    exact (hword _ hk).symm
  tap h hi hc z := by
    obtain ⟨-, -, -, hword⟩ := h.1.channel hi hc
    exact (hword _ (imod_lt z (h.2 hi (Nat.zero_lt_of_lt hc)))).symm
  setRegs hr h := ⟨h.1.setRegs hr, by rw [hr.init, hr.nch, hr.len]; exact h.2⟩
  putPhase {f g} h c v := by
    refine ⟨⟨congrArg (fun r : Flanger => { r with phase := g.phase.put c v }) h.1.1, fun hi k hk => ?_⟩, h.2⟩
    obtain ⟨hphase, hrest⟩ := h.1.channel hi hk
    exact ⟨by rw [Store.at_put, Store.at_put, hphase], hrest⟩
  putWord {f g} h c k v := by
    refine ⟨⟨congrArg (fun r : Flanger => { r with buf := g.buf.write c k v }) h.1.1, fun hi j hj => ?_⟩, h.2⟩
    obtain ⟨hphase, hwpos, htz, hbuf⟩ := h.1.channel hi hj
    exact ⟨hphase, hwpos, htz, fun x hx => by rw [Memory.read_write, Memory.read_write, hbuf x hx]⟩
  putWpos {f g} h c k := by
    refine ⟨⟨congrArg (fun r : Flanger => { r with wpos := Store.set 0 g.wpos c k }) h.1.1, fun hi j hj => ?_⟩, h.2⟩
    obtain ⟨hphase, hwpos, hrest⟩ := h.1.channel hi hj
    exact ⟨hphase, by rw [Store.get_set, Store.get_set, hwpos], hrest⟩
  putTz {f g} h c v := by
    refine ⟨⟨congrArg (fun r : Flanger => { r with tz := g.tz.put c v }) h.1.1, fun hi j hj => ?_⟩, h.2⟩
    obtain ⟨hphase, hwpos, htz, hbuf⟩ := h.1.channel hi hj
    exact ⟨hphase, hwpos, by rw [Store.at_put, Store.at_put, htz], hbuf⟩
  reject h :=
    ⟨⟨congrArg (fun r : Flanger => { r with init := false }) h.1.1, fun hi => nomatch hi⟩, fun hi => nomatch hi⟩
  latch h n len fs := h.1.latch n len fs

/-- A command run from states that agree on live state, with every buffer non-empty. -/
theorem exec_sameLive {a b t : State} {i : Instr} (h : a.SameLive b)
    (hlen : a.fl.init = true → 0 < a.fl.nch → 0 < a.fl.len) (ht : exec i a = .next t) :
    ∃ u, exec i b = .next u ∧ t.SameLive u := by
  obtain ⟨hrest, hph, hfl⟩ := h
  by_cases hget : i = .sysGete
  · subst hget
    have hnum : b.estatNum = a.estatNum := by rw [← hrest]; rfl
    obtain rfl := Host.Outcome.next.inj ht
    refine ⟨_, rfl, ?_, hph, hfl⟩
    rw [hnum]
    exact congrArg (State.respond · .ok a.estatNum) hrest
  by_cases hclr : i = .sysClre
  · subst hclr
    have hnum : b.estatNum = a.estatNum := by rw [← hrest]; rfl
    obtain rfl := Host.Outcome.next.inj ht
    refine ⟨_, rfl, ?_, hph, hfl⟩
    rw [hnum]
    exact congrArg (fun s : State => { s with estat := 0#7 }.respond .ok a.estatNum) hrest
  · have halike : Alike 0#7 (a.estat &&& 0x1F#7) Phaser.SameLive FlangerLive a b :=
      ⟨by rw [BitVec.zero_or]; exact hrest, rfl, hph, hfl, hlen⟩
    obtain ⟨t', u, ht', hu, hafter⟩ := exec_alike phaserRespects_sameLive flangerRespects_live halike hget hclr
    obtain rfl := Host.Outcome.next.inj (ht.symm.trans ht')
    refine ⟨u, hu, ?_, hafter.ph, hafter.fl⟩
    have hrest' := hafter.rest
    rwa [BitVec.zero_or] at hrest'

theorem State.SameLive.present {a b : State} (h : a.SameLive b) (w : BitVec 32) (d : NumT) (rest : List Event) :
    (a.present w d rest).SameLive (b.present w d rest) :=
  ⟨congrArg (State.present · w d rest) h.1, h.2⟩

theorem State.SameLive.raise {a b : State} (h : a.SameLive b) (e : Status) (v : NumT) :
    (a.raise e v).SameLive (b.raise e v) := ⟨congrArg (State.raise · e v) h.1, h.2⟩

/-- After the event `rst` neither engine is initialised: no stale element is reachable. -/
theorem State.SameLive.powerOn {a b : State} (h : a.SameLive b) (rest : List Event) :
    State.SameLive { a.powerOn with inputs := rest } { b.powerOn with inputs := rest } := by
  obtain ⟨p, f, rfl⟩ : ∃ p f, b = { a with ph := p, fl := f } := ⟨b.ph, b.fl, h.1.symm⟩
  exact ⟨rfl, ⟨rfl, fun hi => nomatch hi⟩, rfl, fun hi => nomatch hi⟩

/-- Settles O25: the events of the list are the same in both states, and a command reads only live elements; the
invariant of O22 puts the words it reads below `FL_LEN`. -/
theorem staleStateNeverObserved : Obligations.StaleStateNeverObserved := by
  intro a b t hgeo h ht
  have hin : b.inputs = a.inputs := by rw [← h.1]
  have hnum : b.num = a.num := by rw [← h.1]; rfl
  suffices hlive : ∃ u, step b = .next u ∧ t.SameLive u by
    obtain ⟨u, hu, hsame⟩ := hlive
    exact ⟨u, hu, hsame, by rw [← hsame.1], by rw [← hsame.1]⟩
  rcases step_next_cases ht with ⟨ha, rfl⟩ | ⟨rest, ha, rfl⟩ | ⟨w, d, rest, i, ha, hf, hd, he⟩ |
    ⟨w, d, rest, x, ha, hf, hd, rfl⟩ <;> rw [← hin] at ha
  · exact ⟨b, step_of_nil ha, h⟩
  · exact ⟨_, step_of_rst ha, h.powerOn rest⟩
  · have hlen : a.fl.init = true → 0 < a.fl.nch → 0 < a.fl.len := fun hi hn => by
      obtain ⟨-, hchan⟩ := hgeo.2 hi
      exact Nat.zero_lt_of_lt (hchan 0 hn).1
    rw [step_of_run ha (hnum ▸ hf) hd]
    exact exec_sameLive (h.present w d rest) hlen he
  · exact ⟨_, step_of_illegal ha (hnum ▸ hf) hd, (h.present w d rest).raise .illegal .zero⟩

end Sys2Proof.Machine

/-! SUPPORT. The statements of spec/20_memory.md: the canonical form of the arrays and of the delay memory (rules
R70, R71), what writes the delay memory (rules R73, R74), and the separation of the channels (rules R76, R286). -/

namespace Sys2Proof.Machine

open Sys2Proof

/-! ## The canonical form (assumption log entry 8)

The lemma `exec_alike` holds for every relation that the engines' reads and writes respect. Equality of canonical
engines is such a relation; related to itself, a state therefore stays canonical under every command. -/

/-- The phaser's part of the canonical form. -/
structure Phaser.Canonical (p : Phaser) : Prop where
  phase : Store.wf NumT.zero p.phase = true
  stage : ∀ i, Store.wf NumT.zero (p.s.get i) = true

/-- The flanger's part of the canonical form. -/
structure Flanger.Canonical (f : Flanger) : Prop where
  phase : Store.wf NumT.zero f.phase = true
  tz : Store.wf NumT.zero f.tz = true
  wpos : Store.wf 0 f.wpos = true
  buf : Memory.wf f.buf = true

theorem State.canonical_iff (s : State) : s.Canonical ↔ s.ph.Canonical ∧ s.fl.Canonical := by
  constructor
  · rintro ⟨hphase, hstage, hfl, htz, hwpos, hbuf⟩
    exact ⟨⟨hphase, hstage⟩, hfl, htz, hwpos, hbuf⟩
  · rintro ⟨⟨hphase, hstage⟩, hfl, htz, hwpos, hbuf⟩
    exact ⟨hphase, hstage, hfl, htz, hwpos, hbuf⟩

/-- The clearing of an engine reset keeps the phaser canonical. -/
theorem Phaser.Canonical.latched {p : Phaser} (h : p.Canonical) (n : Nat) (fs : NumT) (fc d0 : Four NumT) :
    (p.latched n fs fc d0).Canonical := by
  refine ⟨Store.wf_dropBelow h.phase n, fun i => ?_⟩
  cases i with
  | s0 => exact Store.wf_dropBelow (h.stage .s0) n
  | s1 => exact Store.wf_dropBelow (h.stage .s1) n
  | s2 => exact Store.wf_dropBelow (h.stage .s2) n
  | s3 => exact Store.wf_dropBelow (h.stage .s3) n

theorem Flanger.Canonical.latched {f : Flanger} (h : f.Canonical) (n len : Nat) (fs : NumT) :
    (f.latched n len fs).Canonical :=
  ⟨Store.wf_dropBelow h.phase n, Store.wf_dropBelow h.tz n, Store.wf_dropBelow h.wpos n, Memory.wf_clear h.buf len n⟩

theorem Phaser.Canonical.setRegs {p : Phaser} (h : p.Canonical) {g : Phaser → Phaser} (hg : PhaserRegisters g) :
    (g p).Canonical := by
  obtain ⟨hphase, -, hs⟩ := hg.keeps p
  exact ⟨by rw [hphase]; exact h.phase, by rw [hs]; exact h.stage⟩

theorem Flanger.Canonical.setRegs {f : Flanger} (h : f.Canonical) {r : Flanger → Flanger} (hr : FlangerRegisters r) :
    (r f).Canonical := by
  obtain ⟨hphase, hwpos, hbuf, htz⟩ := hr.keeps f
  exact ⟨by rw [hphase]; exact h.phase, by rw [htz]; exact h.tz, by rw [hwpos]; exact h.wpos,
    by rw [hbuf]; exact h.buf⟩

theorem Phaser.Canonical.putStage {p : Phaser} (h : p.Canonical) (i : Stage) (c : Nat) (v : NumT) :
    Phaser.Canonical { p with s := p.s.set i ((p.s.get i).put c v) } := by
  refine ⟨h.phase, fun j => ?_⟩
  rw [Four.get_set]
  split
  · exact Store.wf_put (h.stage i) c v
  · exact h.stage j

/-- Canonical phasers, related to themselves alone. -/
def Phaser.SameCanonical (p q : Phaser) : Prop := p = q ∧ p.Canonical

/-- Canonical flangers, related to themselves alone. -/
def Flanger.SameCanonical (f g : Flanger) : Prop := f = g ∧ f.Canonical

theorem phaserRespects_sameCanonical : PhaserRespects Phaser.SameCanonical where
  regs := fun ⟨he, _⟩ => phaserRespects_eq.regs he
  d0 := fun ⟨he, _⟩ => phaserRespects_eq.d0 he
  phase := fun ⟨he, _⟩ => phaserRespects_eq.phase he
  stage := fun ⟨he, _⟩ => phaserRespects_eq.stage he
  setRegs := fun hg ⟨he, hp⟩ => ⟨phaserRespects_eq.setRegs hg he, hp.setRegs hg⟩
  tune := fun ⟨he, hp⟩ i v w => ⟨phaserRespects_eq.tune he i v w, hp.phase, hp.stage⟩
  putPhase := fun ⟨he, hp⟩ c v => ⟨phaserRespects_eq.putPhase he c v, Store.wf_put hp.phase c v, hp.stage⟩
  putStage := fun ⟨he, hp⟩ i c v => ⟨phaserRespects_eq.putStage he i c v, hp.putStage i c v⟩
  reject := fun ⟨he, hp⟩ => ⟨phaserRespects_eq.reject he, hp.phase, hp.stage⟩
  latch := fun ⟨he, hp⟩ n fs fc d0 => ⟨phaserRespects_eq.latch he n fs fc d0, hp.latched n fs fc d0⟩

theorem flangerRespects_sameCanonical : FlangerRespects Flanger.SameCanonical Flanger.SameCanonical where
  weaken := id
  regs := fun ⟨he, _⟩ => flangerRespects_eq.regs he
  phase := fun ⟨he, _⟩ => flangerRespects_eq.phase he
  wpos := fun ⟨he, _⟩ => flangerRespects_eq.wpos he
  tz := fun ⟨he, _⟩ => flangerRespects_eq.tz he
  word := fun ⟨he, _⟩ => flangerRespects_eq.word he
  tap := fun ⟨he, _⟩ => flangerRespects_eq.tap he
  setRegs := fun hr ⟨he, hf⟩ => ⟨flangerRespects_eq.setRegs hr he, hf.setRegs hr⟩
  putPhase := fun ⟨he, hf⟩ c v =>
    ⟨flangerRespects_eq.putPhase he c v, { hf with phase := Store.wf_put hf.phase c v }⟩
  putWord := fun ⟨he, hf⟩ c k v =>
    ⟨flangerRespects_eq.putWord he c k v, { hf with buf := Memory.wf_write hf.buf c k v }⟩
  putWpos := fun ⟨he, hf⟩ c k => ⟨flangerRespects_eq.putWpos he c k, { hf with wpos := Store.wf_set hf.wpos c k }⟩
  putTz := fun ⟨he, hf⟩ c v => ⟨flangerRespects_eq.putTz he c v, { hf with tz := Store.wf_put hf.tz c v }⟩
  reject := fun ⟨he, hf⟩ => ⟨flangerRespects_eq.reject he, { hf with }⟩
  latch := fun ⟨he, hf⟩ n len fs => ⟨flangerRespects_eq.latch he n len fs, hf.latched n len fs⟩

theorem exec_keeps_canonical {i : Instr} {s t : State} (hs : s.Canonical) (h : exec i s = .next t) : t.Canonical := by
  by_cases hget : i = .sysGete
  · subst hget
    obtain rfl := Host.Outcome.next.inj h
    exact hs
  by_cases hclr : i = .sysClre
  · subst hclr
    obtain rfl := Host.Outcome.next.inj h
    exact hs
  · obtain ⟨hph, hfl⟩ := (State.canonical_iff s).mp hs
    have hself : Alike 0#7 (s.estat &&& 0x1F#7) Phaser.SameCanonical Flanger.SameCanonical s s :=
      ⟨by rw [BitVec.zero_or], rfl, ⟨rfl, hph⟩, rfl, hfl⟩
    obtain ⟨t', u, ht', -, hafter⟩ := exec_alike phaserRespects_sameCanonical flangerRespects_sameCanonical hself hget hclr
    obtain rfl := Host.Outcome.next.inj (h.symm.trans ht')
    exact (State.canonical_iff t).mpr ⟨hafter.ph.2, hafter.fl.2⟩

/-- Settles O20. The event `rst` and a refused word leave every array; a command keeps the form. -/
theorem stepKeepsCanonical : Obligations.StepKeepsCanonical := by
  intro s t hs h
  exact step_preserves h hs (fun _ => hs) (fun _ _ _ => hs) fun w d rest i he =>
    exec_keeps_canonical (s := s.present w d rest) hs he

/-! ## What writes the delay memory (rules R73, R74) -/

theorem State.whenFl_keeps_buf {s k : State} (h : k.fl.buf = s.fl.buf) (ch : BitVec 8) (v : NumT) :
    (s.whenFl ch v k).fl.buf = s.fl.buf := by
  rcases State.whenFl_cases s k ch v with ⟨-, -, e⟩ | ⟨-, e⟩ | ⟨-, -, e⟩ <;> rw [e]
  · exact h
  · rfl
  · rfl

theorem State.whenLfo_keeps_buf {s k : State} (h : k.fl.buf = s.fl.buf) (eng : Engine) (ch : BitVec 8) :
    (s.whenLfo eng ch k).fl.buf = s.fl.buf := by
  rcases State.whenLfo_cases s k eng ch with ⟨-, -, e⟩ | ⟨-, e⟩ | ⟨-, -, e⟩ <;> rw [e]
  · exact h
  · rfl
  · rfl

theorem State.setReal_keeps_buf (s : State) (ival : BitVec 8) (lo hi : NumT) {store : NumT → State → State}
    (h : ∀ v t, (store v t).fl.buf = t.fl.buf) : (s.setReal ival lo hi store).fl.buf = s.fl.buf := by
  rcases State.setReal_cases s ival lo hi store with ⟨-, e⟩ | ⟨-, e⟩ <;> rw [e]
  · rfl
  · rw [State.respond_fl, h, State.flagIf_fl]

theorem State.setBit_keeps_buf (s : State) (ival : BitVec 8) {store : Bool → State → State}
    (h : ∀ b t, (store b t).fl.buf = t.fl.buf) : (s.setBit ival store).fl.buf = s.fl.buf := by
  rcases State.setBit_cases s ival store with ⟨b, -, e⟩ | ⟨-, e⟩ <;> rw [e]
  · exact h b s
  · rfl

theorem execFlSetp_keeps_buf {ival pid : BitVec 8} {s t : State} (h : execFlSetp ival pid s = .next t) :
    t.fl.buf = s.fl.buf := by
  obtain rfl := Host.Outcome.next.inj h
  cases FlReg.ofPid pid with
  | none => rfl
  | some r =>
    cases r with
    | rate | depth | fb => exact State.setReal_keeps_buf s ival _ _ fun _ _ => rfl
    | inv | toneEn => exact State.setBit_keeps_buf s ival fun _ _ => rfl
    | fs | nch | init | len => rfl

theorem execFlGetp_keeps_buf {pid : BitVec 8} {s t : State} (h : execFlGetp pid s = .next t) :
    t.fl.buf = s.fl.buf := by
  obtain rfl := Host.Outcome.next.inj h
  cases FlReg.ofPid pid with
  | none => rfl
  | some r => rfl

theorem execLfoRender_keeps_buf {ch : BitVec 8} {wave : BitVec 3} {quad : Bool} {eng : Engine} {s t : State}
    (h : execLfoRender ch wave quad eng s = .next t) : t.fl.buf = s.fl.buf := by
  obtain rfl := Host.Outcome.next.inj h
  refine State.whenLfo_keeps_buf ?_ eng ch
  cases waveOfCode wave.toNat with
  | none => rfl
  | some w => rfl

theorem execDlPeek_keeps_buf {ch : BitVec 8} {addr : BitVec 16} {s t : State}
    (h : execDlPeek ch addr s = .next t) : t.fl.buf = s.fl.buf := by
  obtain rfl := Host.Outcome.next.inj h
  refine State.whenFl_keeps_buf ?_ ch _
  split
  · rfl
  · rfl

theorem State.setEngPhase_buf (s : State) (eng : Engine) (c : Nat) (p : NumT) :
    (s.setEngPhase eng c p).fl.buf = s.fl.buf := by
  cases eng <;> rfl

/-- A phaser's command leaves the whole flanger, so its delay memory. -/
theorem exec_phaser_keeps_buf {i : Instr} {s t : State} (he : i.engine = some .phaser) (h : exec i s = .next t) :
    t.fl.buf = s.fl.buf := by
  have hother := exec_keeps_other he h
  rw [hother]
  rfl

/-- Every command other than `FL.PROC` and `FL.RESET` leaves the delay memory. -/
theorem exec_keeps_buf {i : Instr} {s t : State} (hproc : ∀ ch, i ≠ .flProc ch) (hreset : ∀ n, i ≠ .flReset n)
    (h : exec i s = .next t) : t.fl.buf = s.fl.buf := by
  cases i with
  | flProc ch => exact absurd rfl (hproc ch)
  | flReset n => exact absurd rfl (hreset n)
  | phReset | phSetp | phGetp | phProc | apfSetp | apfGetp | apfProc | apfGetg | apfGets =>
    exact exec_phaser_keeps_buf rfl h
  | flSetp ival pid => exact execFlSetp_keeps_buf h
  | flGetp pid => exact execFlGetp_keeps_buf h
  | lfoRender ch wave quad eng => exact execLfoRender_keeps_buf h
  | dlPeek ch addr => exact execDlPeek_keeps_buf h
  | nop | sysGete | sysClre => obtain rfl := Host.Outcome.next.inj h; rfl
  | lfoAdv ch xinc eng =>
    obtain rfl := Host.Outcome.next.inj h
    refine State.whenLfo_keeps_buf ?_ eng ch
    exact State.setEngPhase_buf ..
  | lfoGetph ch eng =>
    obtain rfl := Host.Outcome.next.inj h
    refine State.whenLfo_keeps_buf ?_ eng ch
    rfl
  | dlRead ch | dlGetw ch | toneProc ch | toneGets ch =>
    obtain rfl := Host.Outcome.next.inj h
    refine State.whenFl_keeps_buf ?_ ch _
    rfl

/-- `FL.PROC` writes the word at the write position of its channel and no other. -/
theorem execFlProc_read {ch : BitVec 8} {s t : State} (h : execFlProc ch s = .next t) {c a : Nat}
    (hne : c ≠ ch.toNat ∨ a ≠ s.flWpos ch.toNat) : t.fl.buf.read c a = s.fl.buf.read c a := by
  obtain rfl := Host.Outcome.next.inj h
  rcases State.whenFl_cases s (s.flProcess ch.toNat s.din) ch s.din with ⟨-, -, e⟩ | ⟨-, e⟩ | ⟨-, -, e⟩ <;> rw [e]
  · rw [State.flProcess_fl, Memory.read_write, if_neg (not_and_or.mpr hne)]
  · rfl
  · rfl

/-- `FL.RESET` clears the words below the new length, of the channels below `n`, when it succeeds. -/
theorem execFlReset_read {n : BitVec 8} {s t : State} (h : execFlReset n s = .next t) (c a : Nat) :
    t.fl.buf.read c a = if t.status = .ok ∧ c < n.toNat ∧ a < t.fl.len then .rat 0 else s.fl.buf.read c a := by
  obtain rfl := Host.Outcome.next.inj h
  split
  · simp
  · simp [NumT.zero]

/-- Settles O19, by the three kinds of commands. -/
theorem delayMemoryWriters : Obligations.DelayMemoryWriters := by
  intro i s t h c a
  split
  · next ch => exact fun hne => execFlProc_read h hne
  · next n => exact execFlReset_read h c a
  · next hproc hreset => rw [exec_keeps_buf hproc hreset h]

/-! ## The separation of the channels (rules R40, R76, R286)

`s.chan c` is everything that `s` holds for channel `c`, and `s.withArrays r` is `s` with the elements of every channel
taken from `r`. `Confined c s t u` says of two runs on channel `c`, the first from `s`, that they have come to states
`t` and `u` that agree but for other channels, and that the first has left the other channels as `s` has them. Every
operation of a command with a channel field keeps this, and both claims follow from it. -/

/-- The elements of one channel. -/
structure Channel where
  phase : NumT
  stage : Stage → NumT
  flPhase : NumT
  wpos : Nat
  tz : NumT
  word : Nat → NumT

def State.chan (s : State) (c : Nat) : Channel where
  phase := s.ph.phase.at c
  stage i := (s.ph.s.get i).at c
  flPhase := s.fl.phase.at c
  wpos := s.flWpos c
  tz := s.fl.tz.at c
  word := s.fl.buf.read c

def State.withArrays (s r : State) : State :=
  { s with
    ph := { s.ph with phase := r.ph.phase, s := r.ph.s }
    fl := { s.fl with phase := r.fl.phase, wpos := r.fl.wpos, buf := r.fl.buf, tz := r.fl.tz } }

theorem State.chan_eq_iff (s t : State) (c : Nat) : s.chan c = t.chan c ↔
    s.ph.phase.at c = t.ph.phase.at c ∧ (∀ i, (s.ph.s.get i).at c = (t.ph.s.get i).at c) ∧
      s.fl.phase.at c = t.fl.phase.at c ∧ s.flWpos c = t.flWpos c ∧ s.fl.tz.at c = t.fl.tz.at c ∧
      ∀ k, s.fl.buf.read c k = t.fl.buf.read c k := by
  simp only [State.chan, Channel.mk.injEq, funext_iff]

/-- Agreement but for other channels: the second state is the first with other arrays, and the channel is the same. -/
theorem State.sameChannel_iff (c : Nat) (a b : State) :
    a.SameChannel c b ↔ (∃ r, b = a.withArrays r) ∧ b.chan c = a.chan c := by
  rw [eq_comm (a := b.chan c), State.chan_eq_iff]
  constructor
  · rintro ⟨hrest, hph, hfl, hchan⟩
    refine ⟨⟨b, ?_⟩, hchan⟩
    rw [State.withArrays, hph, hfl]
    exact hrest.symm
  · rintro ⟨⟨r, rfl⟩, hchan⟩
    exact ⟨rfl, rfl, rfl, hchan⟩

theorem State.SameChannel.refl (c : Nat) (s : State) : s.SameChannel c s :=
  (State.sameChannel_iff c s s).mpr ⟨⟨s, rfl⟩, rfl⟩

/-! ### What the operations leave and write of a channel -/

theorem State.flagIf_chan (s : State) (b : Bool) (g : Flag) (k : Nat) : (s.flagIf b g).chan k = s.chan k := by
  simp [State.chan, State.flWpos]

theorem State.apfSet_chan (s : State) (i : Stage) (v : NumT) (k : Nat) : (s.apfSet i v).chan k = s.chan k := by
  simp [State.chan, State.flWpos]

theorem State.phRetune_chan (s : State) (m : NumT) (k : Nat) : (s.phRetune m).chan k = s.chan k := by
  simp only [State.phRetune_eq, State.apfSet_chan]

theorem State.setEngPhase_chan (s : State) (eng : Engine) (c : Nat) (v : NumT) :
    (s.setEngPhase eng c v).chan = Function.update s.chan c
      (match eng with
      | .phaser => { s.chan c with phase := v }
      | .flanger => { s.chan c with flPhase := v }) := by
  funext k
  rcases eq_or_ne k c with rfl | hk
  · cases eng <;> simp [State.chan, State.setEngPhase, State.flWpos]
  · cases eng <;> simp [State.chan, State.setEngPhase, State.flWpos, hk]

theorem State.toneStep_chan (s : State) (c : Nat) (x : NumT) :
    (s.toneStep c x).chan = Function.update s.chan c { s.chan c with
      tz := s.num.add (s.num.mul (toneA s.cfg.p s.fl.fs) x) (s.num.mul (toneG s.cfg.p s.fl.fs) (s.toneLp c x)) } := by
  funext k
  rcases eq_or_ne k c with rfl | hk
  · simp [State.chan, State.flWpos]
  · simp [State.chan, State.flWpos, hk]

theorem State.apfStep_chan (s : State) (i : Stage) (c : Nat) (x : NumT) :
    (s.apfStep i c x).chan = Function.update s.chan c { s.chan c with
      stage := Function.update (s.chan c).stage i
        (s.num.sub x (s.num.mul (s.ph.d0.get i) (s.apfOut i c x))) } := by
  have hstage (j : Stage) (k : Nat) : ((s.apfStep i c x).ph.s.get j).at k = if j = i ∧ k = c then
      s.num.sub x (s.num.mul (s.ph.d0.get i) (s.apfOut i c x)) else (s.ph.s.get j).at k := by
    by_cases hj : j = i <;> simp [hj]
  funext k
  rcases eq_or_ne k c with rfl | hk
  · simp only [State.chan, hstage, Function.update_self, and_true, Channel.mk.injEq]
    refine ⟨rfl, funext fun j => ?_, rfl, rfl, rfl, rfl⟩
    rw [Function.update_apply]
  · simp only [State.chan, hstage, hk, and_false, if_false, Function.update_of_ne hk]
    rfl

theorem State.flAdvance_chan (s : State) (c : Nat) (x : NumT) :
    (s.flAdvance c x).chan = Function.update s.chan c { s.chan c with
      flPhase := s.flNextPhase c
      wpos := imod (s.flWpos c + 1) s.fl.len
      word := Function.update (s.chan c).word (s.flWpos c)
        (s.num.add x (s.num.mul (s.flTap c) s.fl.fb)) } := by
  funext k
  rcases eq_or_ne k c with rfl | hk
  · simp only [State.chan, State.flWpos, Function.update_self, Channel.mk.injEq]
    refine ⟨rfl, rfl, by simp, by simp [State.flWpos], rfl, funext fun a => ?_⟩
    simp [Function.update_apply, State.flWpos]
  · have hword : (s.flAdvance c x).fl.buf.read k = s.fl.buf.read k := funext fun a => by simp [hk]
    simp [State.chan, State.flWpos, hword, hk, -State.flAdvance_fl_buf]

theorem State.flagIf_withArrays (s r : State) (b : Bool) (g : Flag) :
    (s.withArrays r).flagIf b g = (s.flagIf b g).withArrays r := by
  cases b <;> rfl

theorem State.apfSet_withArrays (s r : State) (i : Stage) (v : NumT) :
    (s.withArrays r).apfSet i v = (s.apfSet i v).withArrays r := by
  have hflag := State.flagIf_withArrays s r (decide (apfClampFc s.cfg.p v s.ph.fs ≠ v)) .clamp
  exact congrArg (fun t : State => { t with ph := { t.ph with
    fc := t.ph.fc.set i (apfClampFc s.cfg.p v s.ph.fs)
    d0 := t.ph.d0.set i (apfCoef s.num (apfClampFc s.cfg.p v s.ph.fs) s.ph.fs) } }) hflag

theorem State.phRetune_withArrays (s r : State) (m : NumT) :
    (s.withArrays r).phRetune m = (s.phRetune m).withArrays r := by
  simp only [State.phRetune_eq, State.apfSet_withArrays]
  rfl

/-! ### What the operations read of a channel -/

section reads
variable {c : Nat} {a b : State} (h : a.SameChannel c b)
include h

theorem State.SameChannel.cfg : b.cfg = a.cfg := by
  obtain ⟨⟨r, rfl⟩, -⟩ := (State.sameChannel_iff c a b).mp h
  rfl

theorem State.SameChannel.din : b.din = a.din := by
  obtain ⟨⟨r, rfl⟩, -⟩ := (State.sameChannel_iff c a b).mp h
  rfl

theorem State.SameChannel.stage (i : Stage) : (b.ph.s.get i).at c = (a.ph.s.get i).at c := by
  obtain ⟨-, hchan⟩ := (State.sameChannel_iff c a b).mp h
  exact congrArg (Channel.stage · i) hchan

theorem State.SameChannel.word (k : Nat) : b.fl.buf.read c k = a.fl.buf.read c k := by
  obtain ⟨-, hchan⟩ := (State.sameChannel_iff c a b).mp h
  exact congrArg (Channel.word · k) hchan

theorem State.SameChannel.flWpos : b.flWpos c = a.flWpos c := by
  obtain ⟨-, hchan⟩ := (State.sameChannel_iff c a b).mp h
  exact congrArg Channel.wpos hchan

theorem State.SameChannel.tz : b.fl.tz.at c = a.fl.tz.at c := by
  obtain ⟨-, hchan⟩ := (State.sameChannel_iff c a b).mp h
  exact congrArg Channel.tz hchan

theorem State.SameChannel.engPhase (eng : Engine) : b.engPhase eng c = a.engPhase eng c := by
  obtain ⟨-, hchan⟩ := (State.sameChannel_iff c a b).mp h
  cases eng with
  | phaser => exact congrArg Channel.phase hchan
  | flanger => exact congrArg Channel.flPhase hchan

theorem State.SameChannel.apfOut (i : Stage) (x : NumT) : b.apfOut i c x = a.apfOut i c x := by
  have hs := h.stage i
  obtain ⟨⟨r, rfl⟩, -⟩ := (State.sameChannel_iff c a b).mp h
  simp only [State.apfOut, hs]
  rfl

theorem State.SameChannel.alphaDen : b.alphaDen = a.alphaDen := by
  obtain ⟨⟨r, rfl⟩, -⟩ := (State.sameChannel_iff c a b).mp h
  rfl

theorem State.SameChannel.cascadeIn (x : NumT) : b.cascadeIn c x = a.cascadeIn c x := by
  have hs := h.stage
  obtain ⟨⟨r, rfl⟩, -⟩ := (State.sameChannel_iff c a b).mp h
  simp only [State.cascadeIn, State.feedbackSum, hs]
  rfl

theorem State.SameChannel.cascadeOut (u : NumT) : b.cascadeOut c u = a.cascadeOut c u := by
  simp only [State.cascadeOut, h.apfOut]

theorem State.SameChannel.phNextPhase : b.phNextPhase c = a.phNextPhase c := by
  have hp : b.ph.phase.at c = a.ph.phase.at c := h.engPhase .phaser
  obtain ⟨⟨r, rfl⟩, -⟩ := (State.sameChannel_iff c a b).mp h
  simp only [State.phNextPhase, hp]
  rfl

theorem State.SameChannel.phModulation : b.phModulation c = a.phModulation c := by
  have hp := h.phNextPhase
  obtain ⟨⟨r, rfl⟩, -⟩ := (State.sameChannel_iff c a b).mp h
  simp only [State.phModulation, hp]
  rfl

theorem State.SameChannel.dlRead (d : NumT) : b.dlRead c d = a.dlRead c d := by
  have hw := h.flWpos
  have hword := h.word
  obtain ⟨⟨r, rfl⟩, -⟩ := (State.sameChannel_iff c a b).mp h
  simp only [State.dlRead, hw, hword]
  rfl

theorem State.SameChannel.flNextPhase : b.flNextPhase c = a.flNextPhase c := by
  have hp : b.fl.phase.at c = a.fl.phase.at c := h.engPhase .flanger
  obtain ⟨⟨r, rfl⟩, -⟩ := (State.sameChannel_iff c a b).mp h
  simp only [State.flNextPhase, hp]
  rfl

theorem State.SameChannel.flTap : b.flTap c = a.flTap c := by
  have hp := h.flNextPhase
  have hread := h.dlRead
  obtain ⟨⟨r, rfl⟩, -⟩ := (State.sameChannel_iff c a b).mp h
  simp only [State.flTap, hp, hread]
  rfl

theorem State.SameChannel.flOut (x : NumT) : b.flOut c x = a.flOut c x := by
  have ht := h.flTap
  obtain ⟨⟨r, rfl⟩, -⟩ := (State.sameChannel_iff c a b).mp h
  simp only [State.flOut, ht]
  rfl

theorem State.SameChannel.toneLp (x : NumT) : b.toneLp c x = a.toneLp c x := by
  have hz := h.tz
  obtain ⟨⟨r, rfl⟩, -⟩ := (State.sameChannel_iff c a b).mp h
  simp only [State.toneLp, hz]
  rfl

theorem State.SameChannel.toneOut (x : NumT) : b.toneOut c x = a.toneOut c x := by
  have hlp := h.toneLp x
  obtain ⟨⟨r, rfl⟩, -⟩ := (State.sameChannel_iff c a b).mp h
  simp only [State.toneOut, hlp]
  rfl

end reads

/-! ### Two runs on one channel -/

/-- Two runs on channel `c`, the first from `s`, that have come to `t` and `u`. -/
structure Confined (c : Nat) (s t u : State) : Prop where
  same : t.SameChannel c u
  others : ∀ k, k ≠ c → t.chan k = s.chan k

/-- Two commands complete, in states where the two runs are confined to channel `c`. -/
def NextConfined (c : Nat) (s : State) (o o' : Host.Outcome State Fault Refusal) : Prop :=
  ∃ t u, o = .next t ∧ o' = .next u ∧ Confined c s t u

/-- An operation that writes registers only. -/
theorem Confined.registers {c : Nat} {s t u : State} (h : Confined c s t u) {f : State → State}
    (hregs : ∀ r, f (t.withArrays r) = (f t).withArrays r) (hchan : ∀ v k, (f v).chan k = v.chan k) :
    Confined c s (f t) (f u) := by
  obtain ⟨⟨r, rfl⟩, hc⟩ := (State.sameChannel_iff c t u).mp h.same
  refine ⟨(State.sameChannel_iff _ _ _).mpr ⟨⟨r, hregs r⟩, ?_⟩, fun k hk => ?_⟩
  · rw [hchan, hchan, hc]
  · rw [hchan, h.others k hk]

/-- An operation that writes elements of the channel: the registers stay, and so that the runs agree the elements
written are the same. -/
theorem Confined.elements {c : Nat} {s t u t' u' : State} (h : Confined c s t u) {g : Channel}
    (hregs : ∀ r, u = t.withArrays r → ∃ r', u' = t'.withArrays r')
    (ht : t'.chan = Function.update t.chan c g) (hu : u'.chan c = g) : Confined c s t' u' := by
  obtain ⟨⟨r, hr⟩, -⟩ := (State.sameChannel_iff c t u).mp h.same
  refine ⟨(State.sameChannel_iff _ _ _).mpr ⟨hregs r hr, ?_⟩, fun k hk => ?_⟩
  · rw [hu, ht, Function.update_self]
  · rw [ht, Function.update_of_ne hk, h.others k hk]

section runs
variable {c : Nat} {s t u : State} (h : Confined c s t u)
include h

theorem Confined.next : NextConfined c s (.next t) (.next u) := ⟨t, u, rfl, rfl, h⟩

theorem Confined.respond (st : Status) (v : NumT) : Confined c s (t.respond st v) (u.respond st v) :=
  h.registers (f := fun w => w.respond st v) (fun _ => rfl) fun _ _ => rfl

theorem Confined.raise (e : Status) (v : NumT) : Confined c s (t.raise e v) (u.raise e v) :=
  h.registers (f := fun w => w.raise e v) (fun _ => rfl) fun _ _ => rfl

theorem Confined.flagIf (b : Bool) (g : Flag) : Confined c s (t.flagIf b g) (u.flagIf b g) :=
  h.registers (f := fun v => v.flagIf b g) (fun r => State.flagIf_withArrays t r b g)
    fun v k => State.flagIf_chan v b g k

theorem Confined.phRetune (m : NumT) : Confined c s (t.phRetune m) (u.phRetune m) :=
  h.registers (f := fun v => v.phRetune m) (fun r => State.phRetune_withArrays t r m)
    fun v k => State.phRetune_chan v m k

theorem Confined.setEngPhase (eng : Engine) (p : NumT) :
    Confined c s (t.setEngPhase eng c p) (u.setEngPhase eng c p) := by
  refine h.elements ?_ (State.setEngPhase_chan t eng c p) ?_
  · rintro r rfl
    exact ⟨(t.withArrays r).setEngPhase eng c p, by cases eng <;> rfl⟩
  · obtain ⟨-, hc⟩ := (State.sameChannel_iff c t u).mp h.same
    rw [State.setEngPhase_chan, Function.update_self, hc]

theorem Confined.apfStep (i : Stage) (x : NumT) : Confined c s (t.apfStep i c x) (u.apfStep i c x) := by
  refine h.elements ?_ (State.apfStep_chan t i c x) ?_
  · rintro r rfl
    exact ⟨(t.withArrays r).apfStep i c x, rfl⟩
  · have hout := h.same.apfOut i x
    obtain ⟨⟨r, rfl⟩, hc⟩ := (State.sameChannel_iff c t u).mp h.same
    rw [State.apfStep_chan, Function.update_self, hc, hout]
    rfl

theorem Confined.toneStep (x : NumT) : Confined c s (t.toneStep c x) (u.toneStep c x) := by
  refine h.elements ?_ (State.toneStep_chan t c x) ?_
  · rintro r rfl
    exact ⟨(t.withArrays r).toneStep c x, rfl⟩
  · have hlp := h.same.toneLp x
    obtain ⟨⟨r, rfl⟩, hc⟩ := (State.sameChannel_iff c t u).mp h.same
    rw [State.toneStep_chan, Function.update_self, hc, hlp]
    rfl

theorem Confined.flAdvance (x : NumT) : Confined c s (t.flAdvance c x) (u.flAdvance c x) := by
  refine h.elements ?_ (State.flAdvance_chan t c x) ?_
  · rintro r rfl
    exact ⟨(t.withArrays r).flAdvance c x, rfl⟩
  · have hp := h.same.flNextPhase
    have hw := h.same.flWpos
    have htap := h.same.flTap
    obtain ⟨⟨r, rfl⟩, hc⟩ := (State.sameChannel_iff c t u).mp h.same
    rw [State.flAdvance_chan, Function.update_self, hc, hp, hw, htap]
    rfl

theorem Confined.cascadeStep (x : NumT) : Confined c s (t.cascadeStep c x) (u.cascadeStep c x) := by
  simp only [State.cascadeStep, h.same.cascadeOut]
  have h0 := h.apfStep .s0 x
  have h1 := h0.apfStep .s1 (t.cascadeOut c x).s0
  have h2 := h1.apfStep .s2 (t.cascadeOut c x).s1
  exact h2.apfStep .s3 (t.cascadeOut c x).s2

theorem Confined.phModulate : Confined c s (t.phModulate c) (u.phModulate c) := by
  simp only [State.phModulate, h.same.phNextPhase, h.same.phModulation]
  exact (h.setEngPhase .phaser (t.phNextPhase c)).phRetune (t.phModulation c)

theorem Confined.phProcess (x : NumT) : Confined c s (t.phProcess c x) (u.phProcess c x) := by
  have hm := h.phModulate
  simp only [State.phProcess, hm.same.cascadeIn, hm.same.cascadeOut, hm.same.alphaDen, h.same.cfg, hm.same.cfg]
  exact ((hm.flagIf _ .denClamp).cascadeStep _).respond _ _

theorem Confined.flProcess (x : NumT) : Confined c s (t.flProcess c x) (u.flProcess c x) := by
  have ha := h.flAdvance x
  have hen : u.fl.toneEn = t.fl.toneEn := by
    obtain ⟨⟨r, rfl⟩, -⟩ := (State.sameChannel_iff c t u).mp h.same
    rfl
  simp only [State.flProcess, h.same.flOut, hen, ha.same.toneOut]
  cases t.fl.toneEn with
  | false => exact ha.respond _ _
  | true => exact (ha.toneStep _).respond _ _

/-! ### The guards -/

theorem Confined.whenInit {j k : State} (hjk : Confined c s j k) (b : Bool) (v : NumT) :
    Confined c s (t.whenInit b v j) (u.whenInit b v k) := by
  cases b with
  | false => exact h.raise .uninit v
  | true => exact hjk

theorem Confined.whenChannel {j k : State} (hjk : Confined c s j k) (d n : Nat) (v : NumT) :
    Confined c s (t.whenChannel d n v j) (u.whenChannel d n v k) := by
  unfold State.whenChannel
  split
  · exact hjk
  · exact h.raise .badCh v

theorem Confined.whenPh {j k : State} (hjk : Confined c s j k) (v : NumT) :
    Confined c s (t.whenInit t.ph.init v (t.whenChannel c t.ph.nch v j))
      (u.whenInit u.ph.init v (u.whenChannel c u.ph.nch v k)) := by
  obtain ⟨⟨r, rfl⟩, -⟩ := (State.sameChannel_iff c t u).mp h.same
  exact h.whenInit (h.whenChannel hjk c t.ph.nch v) t.ph.init v

end runs

section commands
variable {ch : BitVec 8} {s t u : State} (h : Confined ch.toNat s t u)
include h

theorem Confined.whenFl {j k : State} (hjk : Confined ch.toNat s j k) (v : NumT) :
    Confined ch.toNat s (t.whenFl ch v j) (u.whenFl ch v k) := by
  obtain ⟨⟨r, rfl⟩, -⟩ := (State.sameChannel_iff _ t u).mp h.same
  exact h.whenInit (h.whenChannel hjk ch.toNat t.fl.nch v) t.fl.init v

theorem Confined.whenLfo {j k : State} (hjk : Confined ch.toNat s j k) (eng : Engine) :
    Confined ch.toNat s (t.whenLfo eng ch j) (u.whenLfo eng ch k) := by
  cases eng with
  | phaser => exact h.whenPh hjk .zero
  | flanger => exact h.whenFl hjk .zero

/-! ### The commands with a channel field -/

theorem execLfoAdv_confined (xinc : Bool) (eng : Engine) :
    NextConfined ch.toNat s (execLfoAdv ch xinc eng t) (execLfoAdv ch xinc eng u) := by
  refine Confined.next ?_
  have hinc : (if xinc then u.din else u.engStep eng) = if xinc then t.din else t.engStep eng := by
    obtain ⟨⟨r, rfl⟩, -⟩ := (State.sameChannel_iff _ t u).mp h.same
    cases eng <;> rfl
  rw [hinc, h.same.engPhase, State.num_eq u, h.same.cfg]
  exact h.whenLfo ((h.setEngPhase eng _).respond _ _) eng

theorem execLfoRender_confined (wave : BitVec 3) (quad : Bool) (eng : Engine) :
    NextConfined ch.toNat s (execLfoRender ch wave quad eng t) (execLfoRender ch wave quad eng u) := by
  refine Confined.next (h.whenLfo ?_ eng)
  cases waveOfCode wave.toNat with
  | none => exact h.raise _ _
  | some w =>
    simp only [h.same.engPhase, State.num_eq, h.same.cfg]
    exact h.respond _ _

theorem execDlPeek_confined (addr : BitVec 16) :
    NextConfined ch.toNat s (execDlPeek ch addr t) (execDlPeek ch addr u) := by
  refine Confined.next (h.whenFl ?_ _)
  have hlen : u.fl.len = t.fl.len := by
    obtain ⟨⟨r, rfl⟩, -⟩ := (State.sameChannel_iff _ t u).mp h.same
    rfl
  rw [h.same.word, hlen]
  split
  · exact h.respond _ _
  · exact h.raise _ _

/-- A command with a channel field stays within its channel. -/
theorem exec_confined {i : Instr} (hi : i.channel = some ch) :
    NextConfined ch.toNat s (exec i t) (exec i u) := by
  cases i with
  | nop | sysGete | sysClre | phReset | phSetp | phGetp | apfSetp | apfGetp | apfGetg | flReset | flSetp | flGetp =>
    cases hi
  | lfoAdv _ xinc eng => cases hi; exact execLfoAdv_confined h xinc eng
  | lfoRender _ wave quad eng => cases hi; exact execLfoRender_confined h wave quad eng
  | dlPeek _ addr => cases hi; exact execDlPeek_confined h addr
  | phProc =>
    cases hi
    refine Confined.next ?_
    rw [h.same.din]
    exact h.whenPh (h.phProcess _) _
  | apfProc _ st =>
    cases hi
    refine Confined.next ?_
    rw [h.same.din, h.same.apfOut]
    exact h.whenPh ((h.apfStep st _).respond _ _) _
  | apfGets _ st =>
    cases hi
    refine Confined.next ?_
    rw [h.same.stage]
    exact h.whenPh (h.respond _ _) _
  | lfoGetph _ eng =>
    cases hi
    refine Confined.next ?_
    rw [h.same.engPhase]
    exact h.whenLfo (h.respond _ _) eng
  | flProc =>
    cases hi
    refine Confined.next ?_
    rw [h.same.din]
    exact h.whenFl (h.flProcess _) _
  | dlRead =>
    cases hi
    refine Confined.next ?_
    rw [h.same.din, h.same.dlRead]
    exact h.whenFl (h.respond _ _) _
  | dlGetw =>
    cases hi
    refine Confined.next ?_
    rw [h.same.flWpos]
    exact h.whenFl (h.respond _ _) _
  | toneProc =>
    cases hi
    refine Confined.next ?_
    rw [h.same.din, h.same.toneOut]
    exact h.whenFl ((h.toneStep _).respond _ _) _
  | toneGets =>
    cases hi
    refine Confined.next ?_
    rw [h.same.tz]
    exact h.whenFl (h.respond _ _) _

end commands

/-- Settles O17: a run stays within its channel, compared with itself. -/
theorem otherChannelsUnchanged : Obligations.OtherChannelsUnchanged := by
  intro i s t ch c hi h hc
  have hself : Confined ch.toNat s s s := ⟨.refl _ s, fun _ _ => rfl⟩
  obtain ⟨t', u, ht', -, hconf⟩ := exec_confined hself hi
  obtain rfl := Host.Outcome.next.inj (h.symm.trans ht')
  exact (State.chan_eq_iff t s c).mp (hconf.others c hc)

/-- Settles O18: two runs on one channel, compared with each other. -/
theorem otherChannelsUnread : Obligations.OtherChannelsUnread := by
  intro i a b t ch hi hab h
  obtain ⟨t', u, ht', hu, hconf⟩ := exec_confined ⟨hab, fun _ _ => rfl⟩ hi
  obtain rfl := Host.Outcome.next.inj (h.symm.trans ht')
  exact ⟨u, hu, hconf.same⟩

end Sys2Proof.Machine

/-! SUPPORT. The statements of spec/30_encoding.md: the decoder and the encoder are inverse to each other (rules R91,
R92, R95, R100), a word decodes exactly in its row of the opcode map (rule R95), and what raises `E_ILLEGAL` (rule
R96). -/

namespace Sys2Proof

/-! ## The fields of a word (rules R91, R92)

`Laws/Decode.lean` unpacks a packed field; here an unpacked field is packed again, which gives the byte back where its
must-be-zero bits are zero. -/

theorem packWord_inj {a b c d a' b' c' d' : BitVec 8} :
    packWord a b c d = packWord a' b' c' d' ↔ a = a' ∧ b = b' ∧ c = c' ∧ d = d' := by
  constructor
  · intro h
    exact ⟨by simpa using congrArg byte3 h, by simpa using congrArg byte2 h, by simpa using congrArg byte1 h,
      by simpa using congrArg byte0 h⟩
  · rintro ⟨rfl, rfl, rfl, rfl⟩
    rfl

theorem fselByte_extract {m : BitVec 8} (h : m.extractLsb' 2 6 = 0#6) : fselByte (m.extractLsb' 0 2) = m := by
  revert m
  decide

theorem stageByte_extract {l : BitVec 8} (h : l.extractLsb' 2 6 = 0#6) :
    stageByte (Stage.ofBits (l.extractLsb' 0 2)) = l := by
  rw [stageByte, Stage.toBits_ofBits]
  exact fselByte_extract h

/-- The byte of `LFO.ADV`: `wave` and `quad` are zero. -/
theorem lfoByte_of_adv {m : BitVec 8} (h : m &&& 0xFA#8 = 0#8) :
    lfoByte 0#3 (m.getLsbD 2) false (Engine.ofBit (m.getLsbD 0)) = m := by
  revert m
  decide

/-- The byte of `LFO.RENDER`: `xinc` is zero. -/
theorem lfoByte_of_render {m : BitVec 8} (h : m &&& 0x8C#8 = 0#8) :
    lfoByte (m.extractLsb' 4 3) false (m.getLsbD 1) (Engine.ofBit (m.getLsbD 0)) = m := by
  revert m
  decide

/-- The byte of `LFO.GETPH`: all but `eng` are zero. -/
theorem lfoByte_of_getph {m : BitVec 8} (h : m &&& 0xFE#8 = 0#8) :
    lfoByte 0#3 false false (Engine.ofBit (m.getLsbD 0)) = m := by
  revert m
  decide

theorem addr_bytes (addr : BitVec 16) : addr.extractLsb' 8 8 ++ addr.extractLsb' 0 8 = addr := by
  rw [BitVec.extractLsb'_append_extractLsb'_eq_extractLsb' (by rfl)]
  exact BitVec.extractLsb'_eq_self

theorem addr_high (m l : BitVec 8) : (m ++ l).extractLsb' 8 8 = m := by
  rw [BitVec.extractLsb'_append_eq_left]

theorem addr_low (m l : BitVec 8) : (m ++ l).extractLsb' 0 8 = l := by
  rw [BitVec.extractLsb'_append_eq_right]

/-! ## The two round trips (rules R91, R95) -/

/-- Each command's must-be-zero bits are zero in the word it is packed into, and its fields are unpacked again. -/
theorem decode_encode (i : Instr) : decode (encode i) = .ok i := by
  cases i with
  | nop | sysGete | sysClre => rfl
  | phReset | phGetp | flReset | flGetp | phSetp | flSetp | phProc | flProc | dlRead | dlGetw | toneProc | toneGets =>
    simp only [encode, decode_packWord]
    exact row_eq_ok.mpr ⟨by simp, rfl⟩
  | dlPeek ch addr =>
    simp only [encode, decode_packWord]
    exact row_eq_ok.mpr ⟨rfl, by rw [addr_bytes]⟩
  | apfSetp | apfGetp | apfProc | apfGetg | apfGets =>
    simp only [encode, decode_packWord]
    exact row_eq_ok.mpr ⟨by simp, by simp⟩
  | lfoAdv ch xinc eng =>
    obtain ⟨-, hxinc, -, heng⟩ := lfoByte_fields 0#3 xinc false eng
    simp only [encode, decode_packWord]
    exact row_eq_ok.mpr ⟨by simp [lfoByte_and_adv], by rw [hxinc, heng]⟩
  | lfoRender ch wave quad eng =>
    obtain ⟨hwave, -, hquad, heng⟩ := lfoByte_fields wave false quad eng
    simp only [encode, decode_packWord]
    exact row_eq_ok.mpr ⟨by simp [lfoByte_and_render], by rw [hwave, hquad, heng]⟩
  | lfoGetph ch eng =>
    obtain ⟨-, -, -, heng⟩ := lfoByte_fields 0#3 false false eng
    simp only [encode, decode_packWord]
    exact row_eq_ok.mpr ⟨by simp [lfoByte_and_getph], by rw [heng]⟩

/-- Settles O3, command by command (`decode_encode`). -/
theorem decodeEncodeRoundTrip : Obligations.DecodeEncodeRoundTrip := decode_encode

/-- In every row of the decoder the opcode is the row's, the must-be-zero bits are zero and each remaining bit is in a
field, so the encoder packs the same four bytes. -/
theorem encode_of_decodeBytes {op h m l : BitVec 8} {i : Instr} (hd : decodeBytes op h m l = .ok i) :
    encode i = packWord op h m l := by
  unfold decodeBytes at hd
  split at hd
  case h_25 => cases hd
  all_goals
    next hop =>
    obtain ⟨hz, rfl⟩ := row_eq_ok.mp hd
    obtain ⟨-, rfl⟩ := BitVec.toNat_eq_nat.mp hop
    simp only [Bool.and_eq_true, beq_iff_eq, and_assoc] at hz
    simp [encode, hz, fselByte_extract, stageByte_extract, lfoByte_of_adv, lfoByte_of_render, lfoByte_of_getph,
      addr_high,
      addr_low, -BitVec.getLsbD_eq_getElem]

/-- A command has one word, and that word spells no other command. -/
theorem decode_eq_ok_iff {w : BitVec 32} {i : Instr} : decode w = .ok i ↔ encode i = w := by
  constructor
  · intro h
    rw [encode_of_decodeBytes h, packWord_bytes]
  · rintro rfl
    exact decode_encode i

/-- Settles O4, row by row of the decoder (`encode_of_decodeBytes`). -/
theorem encodeDecodeRoundTrip : Obligations.EncodeDecodeRoundTrip := fun _ _ => decode_eq_ok_iff.mp

/-! ## The opcode map (rule R95) -/

/-- `CMD[31:24]` of the command's row (rule R95). -/
def Instr.opcode : Instr → BitVec 8
  | .nop => 0x00#8
  | .sysGete => 0x01#8
  | .sysClre => 0x02#8
  | .phReset _ => 0x10#8
  | .phSetp _ _ => 0x11#8
  | .phGetp _ => 0x12#8
  | .phProc _ => 0x13#8
  | .apfSetp _ _ => 0x20#8
  | .apfGetp _ _ => 0x21#8
  | .apfProc _ _ => 0x22#8
  | .apfGetg _ => 0x23#8
  | .apfGets _ _ => 0x24#8
  | .lfoAdv _ _ _ => 0x30#8
  | .lfoRender _ _ _ _ => 0x31#8
  | .lfoGetph _ _ => 0x32#8
  | .flReset _ => 0x40#8
  | .flSetp _ _ => 0x41#8
  | .flGetp _ => 0x42#8
  | .flProc _ => 0x43#8
  | .dlRead _ => 0x50#8
  | .dlPeek _ _ => 0x51#8
  | .dlGetw _ => 0x52#8
  | .toneProc _ => 0x60#8
  | .toneGets _ => 0x61#8

/-- The must-be-zero bits of `CMD[23:16]`, `CMD[15:8]` and `CMD[7:0]` in the command's row: those of its format (rule
R91) and of the fields that are zero in it. -/
def Instr.zeroBits : Instr → BitVec 8 × BitVec 8 × BitVec 8
  | .nop | .sysGete | .sysClre => (0xFF#8, 0xFF#8, 0xFF#8)
  | .phReset _ | .flReset _ | .phGetp _ | .flGetp _ => (0xFF#8, 0xFF#8, 0x00#8)
  | .phSetp _ _ | .flSetp _ _ => (0xFF#8, 0x00#8, 0x00#8)
  | .phProc _ | .flProc _ | .dlRead _ | .dlGetw _ | .toneProc _ | .toneGets _ => (0x00#8, 0xFF#8, 0xFF#8)
  | .dlPeek _ _ => (0x00#8, 0x00#8, 0x00#8)
  | .apfSetp _ _ | .apfGetp _ _ => (0xFF#8, 0xFC#8, 0xFC#8)
  | .apfProc _ _ | .apfGets _ _ => (0x00#8, 0xFF#8, 0xFC#8)
  | .apfGetg _ => (0xFF#8, 0xFF#8, 0xFC#8)
  | .lfoAdv _ _ _ => (0x00#8, 0xFA#8, 0xFF#8)
  | .lfoRender _ _ _ _ => (0x00#8, 0x8C#8, 0xFF#8)
  | .lfoGetph _ _ => (0x00#8, 0xFE#8, 0xFF#8)

theorem Instr.matchMask_eq (i : Instr) : i.matchMask =
    (packWord i.opcode 0#8 0#8 0#8, packWord 0xFF#8 i.zeroBits.1 i.zeroBits.2.1 i.zeroBits.2.2) := by
  cases i <;> simp only [Instr.matchMask, Instr.opcode, Instr.zeroBits] <;> decide

theorem and_0xFF (b : BitVec 8) : b &&& 0xFF#8 = b := BitVec.and_allOnes

theorem and_0xFC_eq_zero (b : BitVec 8) : b &&& 0xFC#8 = 0#8 ↔ b.extractLsb' 2 6 = 0#6 := by
  revert b
  decide

/-- A word lies in a row when it has the row's opcode and its must-be-zero bits are zero. -/
theorem Instr.rowHolds_packWord (i : Instr) (op h m l : BitVec 8) : i.rowHolds (packWord op h m l) ↔
    op = i.opcode ∧ h &&& i.zeroBits.1 = 0#8 ∧ m &&& i.zeroBits.2.1 = 0#8 ∧ l &&& i.zeroBits.2.2 = 0#8 := by
  rw [Instr.rowHolds, Instr.matchMask_eq, packWord_and, packWord_inj, and_0xFF]

theorem row_answers {z : Bool} {i j : Instr} (hz : z = true) (hj : j.matchMask = i.matchMask) :
    ∃ k, row z j = .ok k ∧ k.matchMask = i.matchMask :=
  ⟨j, row_eq_ok.mpr ⟨hz, rfl⟩, hj⟩

/-- The decoder's check of a row asks for the same zero bits as the row's mask. -/
theorem decodeBytes_of_rowHolds {i : Instr} {op h m l : BitVec 8} (hrow : i.rowHolds (packWord op h m l)) :
    ∃ j, decodeBytes op h m l = .ok j ∧ j.matchMask = i.matchMask := by
  obtain ⟨rfl, hh, hm, hl⟩ := (i.rowHolds_packWord op h m l).mp hrow
  cases i with
  | nop | sysGete | sysClre | phReset | phGetp | flReset | flGetp | phSetp | flSetp | phProc | flProc | dlRead | dlPeek
  | dlGetw | toneProc | toneGets =>
    simp only [Instr.zeroBits, and_0xFF] at hh hm hl
    exact row_answers (by simp [hh, hm, hl]) rfl
  | apfSetp | apfGetp | apfProc | apfGetg | apfGets =>
    simp only [Instr.zeroBits, and_0xFF, and_0xFC_eq_zero] at hh hm hl
    exact row_answers (by simp [hh, hm, hl]) rfl
  | lfoAdv | lfoRender | lfoGetph =>
    simp only [Instr.zeroBits, and_0xFF] at hh hm hl
    exact row_answers (by simp [hm, hl]) rfl

theorem decode_of_rowHolds {i : Instr} {w : BitVec 32} (h : i.rowHolds w) :
    ∃ j, decode w = .ok j ∧ j.matchMask = i.matchMask :=
  decodeBytes_of_rowHolds ((packWord_bytes w).symm ▸ h)

theorem rowHolds_encode (i : Instr) : i.rowHolds (encode i) := by
  cases i with
  | nop => exact Laws.EncodesRow.nop
  | sysGete => exact Laws.EncodesRow.sysGete
  | sysClre => exact Laws.EncodesRow.sysClre
  | phReset n => exact Laws.EncodesRow.phReset n
  | phSetp ival pid => exact Laws.EncodesRow.phSetp ival pid
  | phGetp pid => exact Laws.EncodesRow.phGetp pid
  | phProc ch => exact Laws.EncodesRow.phProc ch
  | apfSetp fsel stage => exact Laws.EncodesRow.apfSetp fsel stage
  | apfGetp fsel stage => exact Laws.EncodesRow.apfGetp fsel stage
  | apfProc ch stage => exact Laws.EncodesRow.apfProc ch stage
  | apfGetg stage => exact Laws.EncodesRow.apfGetg stage
  | apfGets ch stage => exact Laws.EncodesRow.apfGets ch stage
  | lfoAdv ch xinc eng => exact Laws.EncodesRow.lfoAdv ch xinc eng
  | lfoRender ch wave quad eng => exact Laws.EncodesRow.lfoRender ch wave quad eng
  | lfoGetph ch eng => exact Laws.EncodesRow.lfoGetph ch eng
  | flReset n => exact Laws.EncodesRow.flReset n
  | flSetp ival pid => exact Laws.EncodesRow.flSetp ival pid
  | flGetp pid => exact Laws.EncodesRow.flGetp pid
  | flProc ch => exact Laws.EncodesRow.flProc ch
  | dlRead ch => exact Laws.EncodesRow.dlRead ch
  | dlPeek ch addr => exact Laws.EncodesRow.dlPeek ch addr
  | dlGetw ch => exact Laws.EncodesRow.dlGetw ch
  | toneProc ch => exact Laws.EncodesRow.toneProc ch
  | toneGets ch => exact Laws.EncodesRow.toneGets ch

theorem rowHolds_of_decode {w : BitVec 32} {i : Instr} (h : decode w = .ok i) : i.rowHolds w :=
  decode_eq_ok_iff.mp h ▸ rowHolds_encode i

/-- Settles O5: the rows are disjoint since the decoder answers one command. -/
theorem decodeFollowsTable : Obligations.DecodeFollowsTable := by
  intro w
  refine ⟨fun i => rowHolds_of_decode, fun i => decode_of_rowHolds, fun i j hi hj => ?_⟩
  obtain ⟨i', hdi, hri⟩ := decode_of_rowHolds hi
  obtain ⟨j', hdj, hrj⟩ := decode_of_rowHolds hj
  obtain rfl := Except.ok.inj (hdi.symm.trans hdj)
  exact hri.symm.trans hrj

/-- Settles O6: each worked word is the encoding of its command. -/
theorem workedWordsDecode : Obligations.WorkedWordsDecode := by
  refine ⟨?_, ?_, ?_, ?_, ?_, ?_, ?_⟩ <;> rw [decode_eq_ok_iff] <;> decide

end Sys2Proof

namespace Sys2Proof.Machine

open Sys2Proof

/-! ## The value checks (rule R96) -/

/-- What a command does to `s` by its value checks: it raises `E_ILLEGAL` and nothing more where they fail, and does
not answer `E_ILLEGAL` where they pass. -/
def Checked (wellFormed : Bool) (s t : State) : Prop :=
  (wellFormed = false → t = s.raise .illegal .zero) ∧ (wellFormed = true → t.status ≠ .illegal)

theorem Checked.refused (s : State) : Checked false s (s.raise .illegal .zero) := ⟨fun _ => rfl, nofun⟩

theorem Checked.passed {s t : State} {b : Bool} (hb : b = true) (h : t.status ≠ .illegal) : Checked b s t :=
  ⟨fun hf => absurd (hb.symm.trans hf) Bool.noConfusion, fun _ => h⟩

/-! ### The operands -/

theorem PhReg.ofPid_isSome (pid : BitVec 8) : (PhReg.ofPid pid).isSome = legalPhPid pid := by
  revert pid
  decide

theorem FlReg.ofPid_isSome (pid : BitVec 8) : (FlReg.ofPid pid).isSome = legalFlPid pid := by
  revert pid
  decide

theorem ApfReg.ofFsel_isSome (fsel : BitVec 2) : (ApfReg.ofFsel fsel).isSome = (fsel != 3#2) := by
  revert fsel
  decide

/-- Whether `PH.SETP` may write the register: a real-valued one only with `ival` = 0, a read-only one never. -/
def PhReg.accepts (ivalZero : Bool) : PhReg → Bool
  | .rate | .depth | .intensity => ivalZero
  | .quad | .fbsw | .wave => true
  | .fs | .nch | .init => false

/-- Whether `FL.SETP` may write the register. -/
def FlReg.accepts (ivalZero : Bool) : FlReg → Bool
  | .rate | .depth | .fb => ivalZero
  | .inv | .toneEn => true
  | .fs | .nch | .init | .len => false

theorem PhReg.any_accepts (ival pid : BitVec 8) :
    (PhReg.ofPid pid).any (PhReg.accepts (ival == 0#8)) = legalSetp 0x05 ival pid := by
  unfold legalSetp
  generalize (ival == 0#8) = z
  revert pid z
  decide

theorem FlReg.any_accepts (ival pid : BitVec 8) :
    (FlReg.ofPid pid).any (FlReg.accepts (ival == 0#8)) = legalSetp 0x04 ival pid := by
  unfold legalSetp
  generalize (ival == 0#8) = z
  revert pid z
  decide

/-! ### The shared operations -/

section shared

variable {s k : State}

theorem State.respond_ok_status (v : NumT) : (s.respond .ok v).status ≠ .illegal := Status.noConfusion

theorem State.whenInit_status (h : k.status ≠ .illegal) (b : Bool) (v : NumT) :
    (s.whenInit b v k).status ≠ .illegal := by
  rcases State.whenInit_cases s k b v with ⟨-, e⟩ | ⟨-, e⟩ <;> rw [e]
  · exact h
  · exact Status.noConfusion

theorem State.whenChannel_status (h : k.status ≠ .illegal) (c n : Nat) (v : NumT) :
    (s.whenChannel c n v k).status ≠ .illegal := by
  rcases State.whenChannel_cases s k c n v with ⟨-, e⟩ | ⟨-, e⟩ <;> rw [e]
  · exact h
  · exact Status.noConfusion

theorem State.whenFl_status (h : k.status ≠ .illegal) (ch : BitVec 8) (v : NumT) :
    (s.whenFl ch v k).status ≠ .illegal :=
  State.whenInit_status (State.whenChannel_status h _ _ _) _ _

theorem State.whenLfo_status (h : k.status ≠ .illegal) (eng : Engine) (ch : BitVec 8) :
    (s.whenLfo eng ch k).status ≠ .illegal :=
  State.whenInit_status (State.whenChannel_status h _ _ _) _ _

theorem State.setReal_checked (s : State) (ival : BitVec 8) (lo hi : NumT) (store : NumT → State → State) :
    Checked (ival == 0#8) s (s.setReal ival lo hi store) := by
  rcases State.setReal_cases s ival lo hi store with ⟨hne, e⟩ | ⟨heq, e⟩ <;> rw [e]
  · rw [beq_false_of_ne hne]
    exact .refused s
  · exact .passed (beq_iff_eq.mpr heq) (State.respond_ok_status _)

theorem State.setBit_status (ival : BitVec 8) (store : Bool → State → State) :
    (s.setBit ival store).status ≠ .illegal := by
  rcases State.setBit_cases s ival store with ⟨b, -, e⟩ | ⟨-, e⟩ <;> rw [e] <;> exact Status.noConfusion

theorem State.setWave_status (ival : BitVec 8) (store : Wave → State → State) :
    (s.setWave ival store).status ≠ .illegal := by
  rcases State.setWave_cases s ival store with ⟨w, -, e⟩ | ⟨-, e⟩ <;> rw [e] <;> exact Status.noConfusion

end shared

/-! ### The commands with a value check -/

theorem execPhSetp_checked (ival pid : BitVec 8) (s : State) :
    ∃ t, execPhSetp ival pid s = .next t ∧ Checked (legalSetp 0x05 ival pid) s t := by
  refine ⟨_, rfl, ?_⟩
  rw [← PhReg.any_accepts]
  cases PhReg.ofPid pid with
  | none => exact .refused s
  | some r =>
    cases r with
    | rate | depth | intensity => exact s.setReal_checked ival _ _ _
    | quad | fbsw => exact .passed rfl (State.setBit_status ival _)
    | wave => exact .passed rfl (State.setWave_status ival _)
    | fs | nch | init => exact .refused s

theorem execFlSetp_checked (ival pid : BitVec 8) (s : State) :
    ∃ t, execFlSetp ival pid s = .next t ∧ Checked (legalSetp 0x04 ival pid) s t := by
  refine ⟨_, rfl, ?_⟩
  rw [← FlReg.any_accepts]
  cases FlReg.ofPid pid with
  | none => exact .refused s
  | some r =>
    cases r with
    | rate | depth | fb => exact s.setReal_checked ival _ _ _
    | inv | toneEn => exact .passed rfl (State.setBit_status ival _)
    | fs | nch | init | len => exact .refused s

theorem execPhGetp_checked (pid : BitVec 8) (s : State) :
    ∃ t, execPhGetp pid s = .next t ∧ Checked (legalPhPid pid) s t := by
  refine ⟨_, rfl, ?_⟩
  rw [← PhReg.ofPid_isSome]
  cases PhReg.ofPid pid with
  | none => exact .refused s
  | some r => exact .passed rfl (State.respond_ok_status _)

theorem execFlGetp_checked (pid : BitVec 8) (s : State) :
    ∃ t, execFlGetp pid s = .next t ∧ Checked (legalFlPid pid) s t := by
  refine ⟨_, rfl, ?_⟩
  rw [← FlReg.ofPid_isSome]
  cases FlReg.ofPid pid with
  | none => exact .refused s
  | some r => exact .passed rfl (State.respond_ok_status _)

theorem execApfSetp_checked (fsel : BitVec 2) (i : Stage) (s : State) :
    ∃ t, execApfSetp fsel i s = .next t ∧ Checked (fsel != 3#2) s t := by
  refine ⟨_, rfl, ?_⟩
  rw [← ApfReg.ofFsel_isSome]
  cases ApfReg.ofFsel fsel with
  | none => exact .refused s
  | some r => exact .passed rfl (State.whenInit_status (State.respond_ok_status _) _ _)

theorem execApfGetp_checked (fsel : BitVec 2) (i : Stage) (s : State) :
    ∃ t, execApfGetp fsel i s = .next t ∧ Checked (fsel != 3#2) s t := by
  refine ⟨_, rfl, ?_⟩
  rw [← ApfReg.ofFsel_isSome]
  cases ApfReg.ofFsel fsel with
  | none => exact .refused s
  | some r => exact .passed rfl (State.whenInit_status (State.respond_ok_status _) _ _)

/-! ### Every command -/

theorem exec_checked (i : Instr) (s : State) : ∃ t, exec i s = .next t ∧ Checked i.wellFormed s t := by
  cases i with
  | phSetp ival pid => exact execPhSetp_checked ival pid s
  | flSetp ival pid => exact execFlSetp_checked ival pid s
  | phGetp pid => exact execPhGetp_checked pid s
  | flGetp pid => exact execFlGetp_checked pid s
  | apfSetp fsel i => exact execApfSetp_checked fsel i s
  | apfGetp fsel i => exact execApfGetp_checked fsel i s
  | nop | sysGete | sysClre => exact ⟨_, rfl, .passed rfl (State.respond_ok_status _)⟩
  | phReset n | flReset n =>
    refine ⟨_, rfl, .passed rfl ?_⟩
    split <;> exact Status.noConfusion
  | phProc ch | apfProc ch i | apfGets ch i =>
    refine ⟨_, rfl, .passed rfl ?_⟩
    exact State.whenInit_status (State.whenChannel_status (State.respond_ok_status _) _ _ _) _ _
  | apfGetg i => exact ⟨_, rfl, .passed rfl (State.whenInit_status (State.respond_ok_status _) _ _)⟩
  | lfoAdv ch xinc eng | lfoGetph ch eng =>
    exact ⟨_, rfl, .passed rfl (State.whenLfo_status (State.respond_ok_status _) eng ch)⟩
  | lfoRender ch wave quad eng =>
    refine ⟨_, rfl, .passed rfl (State.whenLfo_status ?_ eng ch)⟩
    split <;> exact Status.noConfusion
  | dlPeek ch addr =>
    refine ⟨_, rfl, .passed rfl (State.whenFl_status ?_ ch _)⟩
    split <;> exact Status.noConfusion
  | flProc ch =>
    obtain ⟨-, -, -, -, -, -, hok⟩ := s.flProcess_frame ch.toNat s.din
    exact ⟨_, rfl, .passed rfl (State.whenFl_status (hok.symm ▸ Status.noConfusion) ch _)⟩
  | dlRead ch | dlGetw ch | toneProc ch | toneGets ch =>
    exact ⟨_, rfl, .passed rfl (State.whenFl_status (State.respond_ok_status _) ch _)⟩

theorem decode_eq_error_of_no_row {w : BitVec 32} (h : ∀ i : Instr, ¬ i.rowHolds w) :
    ∃ e, decode w = .error e := by
  cases hd : decode w with
  | error e => exact ⟨e, rfl⟩
  | ok i => exact absurd (rowHolds_of_decode hd) (h i)

/-- Settles O9: a word that decodes lies in a row, and every command makes its own value checks. -/
theorem badWordsRaiseIllegal : Obligations.BadWordsRaiseIllegal := by
  constructor
  · intro s w d rest hin hfin hrow
    obtain ⟨e, hd⟩ := decode_eq_error_of_no_row hrow
    exact step_of_illegal hin hfin hd
  · intro i s
    obtain ⟨t, ht, hbad, hgood⟩ := exec_checked i s
    refine ⟨fun hwf => ht.trans (congrArg _ (hbad hwf)), fun hwf t' ht' => ?_⟩
    obtain rfl := Host.Outcome.next.inj (ht.symm.trans ht')
    exact hgood hwf

end Sys2Proof.Machine

/-! SUPPORT. The statements of spec/41_lfo.md: the advance and the waveforms denote the spec's formulas on the real
numbers (rules R120 to R123, R129), and the oscillator commands complete behind their two guards (rules R124 to
R127). -/

namespace Sys2Proof

open Machine

/-! ## The sawtooth waveforms (rule R123) -/

/-- The two branches of the sawtooth end below 1 and start at 0, so it never reaches 1. -/
theorem Spec.render_saw_lt_one {p : ℝ} (h1 : p < 1) : Spec.render .saw p < 1 := by
  simp only [Spec.render]
  split_ifs with hhalf
  · linarith
  · linarith

/-- The inverted sawtooth mirrors the sawtooth branch by branch, at every phase. -/
theorem Spec.render_isaw_eq (p : ℝ) : Spec.render .isaw p = 1 - Spec.render .saw p := by
  simp only [Spec.render]
  split_ifs <;> ring

end Sys2Proof

namespace Sys2Proof.Machine

open Sys2Proof

/-! ## The advance on the real numbers (rules R120, R129) -/

theorem lfoAdvance_val (p inc : NumT) : (lfoAdvance .real p inc).val = Int.fract (p.val + inc.val) := by
  rw [lfoAdvance, Num.frac_val, Num.real_add, NumT.val_add]

/-- Settles O26: the range is that of the fractional part. -/
theorem advanceTakesFraction : Obligations.AdvanceTakesFraction :=
  fun p inc => ⟨lfoAdvance_val p inc, isPhase_lfoAdvance rfl p inc⟩

/-- Advances only ever drop whole turns, so `n` of them drop the whole turns of p + inc·n once. -/
theorem lfoAdvance_iterate_val {p : NumT} (hp : IsPhase p) (inc : NumT) (n : Nat) :
    ((fun q => lfoAdvance .real q inc)^[n] p).val = Int.fract (p.val + inc.val * n) := by
  induction n with
  | zero => simpa using (Int.fract_eq_self.mpr hp).symm
  | succ n ih =>
    rw [Function.iterate_succ_apply', lfoAdvance_val, ih, Int.fract_eq_fract]
    refine ⟨-⌊p.val + inc.val * n⌋, ?_⟩
    rw [Int.fract]
    push_cast
    ring

/-- Settles O27: the sum of the increments is a whole number of turns, which the fractional part drops. -/
theorem advancePeriodic : Obligations.AdvancePeriodic := by
  intro p inc n z h0 h1 hz
  rw [lfoAdvance_iterate_val ⟨h0, h1⟩, hz, Int.fract_add_intCast, Int.fract_eq_self.mpr ⟨h0, h1⟩]

/-! ## The rendered value (rules R121 to R123, R129) -/

/-- Settles O28. That ISAW never reaches 0 mirrors that SAW never reaches 1. -/
theorem renderFollowsFormula : Obligations.RenderFollowsFormula := by
  refine ⟨lfoRender_val, fun p h0 h1 => ?_⟩
  have hsaw : Spec.render .saw p < 1 := Spec.render_saw_lt_one h1
  have hisaw : Spec.render .isaw p = 1 - Spec.render .saw p := Spec.render_isaw_eq p
  exact ⟨fun w => Spec.render_mem_unit w h0 h1, hsaw, hisaw ▸ sub_pos.mpr hsaw, hisaw⟩

/-! ## The oscillator commands (rules R124 to R127) -/

@[simp] theorem State.respond_engPhase (s : State) (st : Status) (v : NumT) (eng : Engine) (k : Nat) :
    (s.respond st v).engPhase eng k = s.engPhase eng k := by
  cases eng <;> rfl

@[simp] theorem State.setEngPhase_engPhase (s : State) (eng : Engine) (c : Nat) (p : NumT) (k : Nat) :
    (s.setEngPhase eng c p).engPhase eng k = if k = c then p else s.engPhase eng k := by
  cases eng <;> exact Store.at_put _ c p k

/-- The waveform that a code 0 to 3 names (rule R28). -/
theorem waveOfCode_waveCode (w : Wave) : waveOfCode (waveCode w) = some w := by
  cases w <;> rfl

section guarded

variable {s : State} {eng : Engine} {ch : BitVec 8} (hi : s.engInit eng = true) (hc : ch.toNat < s.engNch eng)
include hi hc

/-- The guards let a command through on an initialised engine and a legal channel. -/
theorem State.whenLfo_of_legal (k : State) : s.whenLfo eng ch k = k := by
  rw [State.whenLfo, hi, State.whenInit_true, State.whenChannel_of_lt hc]

theorem execLfoAdv_of_legal (xinc : Bool) {p : NumT}
    (hp : p = lfoAdvance s.num (s.engPhase eng ch.toNat) (if xinc = true then s.din else s.engStep eng)) :
    execLfoAdv ch xinc eng s = .next ((s.setEngPhase eng ch.toNat p).respond .ok p) := by
  rw [execLfoAdv, State.whenLfo_of_legal hi hc, hp]

theorem execLfoRender_of_legal {w : Wave} {wave : BitVec 3} (hw : wave.toNat = waveCode w) (quad : Bool) :
    execLfoRender ch wave quad eng s =
      .next (s.respond .ok (lfoOutput s.num quad w (s.engPhase eng ch.toNat))) := by
  rw [execLfoRender, State.whenLfo_of_legal hi hc, hw, waveOfCode_waveCode]

theorem execLfoGetph_of_legal :
    execLfoGetph ch eng s = .next (s.respond .ok (s.engPhase eng ch.toNat)) := by
  rw [execLfoGetph, State.whenLfo_of_legal hi hc]

end guarded

/-- Settles O29: behind the guards the command is one write of a phase and the answer. -/
theorem lfoAdvCompletes : Obligations.LfoAdvCompletes := by
  intro ch xinc eng s hi hc
  refine ⟨_, _, execLfoAdv_of_legal hi hc xinc rfl, rfl, rfl, fun c => ?_, ?_⟩
  · rw [State.respond_engPhase, State.setEngPhase_engPhase]
  · cases eng <;> rfl

/-- Settles O30: behind the guards both commands only answer. -/
theorem lfoRenderAndGetphComplete : Obligations.LfoRenderAndGetphComplete := by
  intro ch eng s hi hc
  exact ⟨execLfoGetph_of_legal hi hc, fun w wave hw =>
    ⟨execLfoRender_of_legal hi hc hw false, execLfoRender_of_legal hi hc hw true⟩⟩

end Sys2Proof.Machine

/-! SUPPORT. The statements of spec/42_apf.md: the coefficient and the range of the frequency as real numbers (rules
R140 to R142), one step of a stage and of four in a row (rules R143, R163, R167), and the stage commands behind
their guards (rules R144 to R149). -/

namespace Sys2Proof

open Machine

/-! ## The coefficient on the real numbers (rules R141, R142)

With x = π·fc/fs the coefficient is (tan x − tan(π/4))/(1 + tan x·tan(π/4)) = tan(x − π/4). On the domain of the
rule the angle x − π/4 lies in (−π/4, π/4), where the tangent increases from −1 to 1. -/

theorem halfTurns_bounds {fc fs : ℝ} (h0 : 0 < fc) (h1 : fc < fs / 2) :
    0 < Real.pi * fc / fs ∧ Real.pi * fc / fs < Real.pi / 2 := by
  have hfs : 0 < fs := by linarith
  constructor
  · positivity
  · rw [div_lt_iff₀ hfs]
    linarith [mul_lt_mul_of_pos_left h1 Real.pi_pos]

theorem halfTurns_lt {fc fc' fs : ℝ} (hfs : 0 < fs) (h : fc < fc') :
    Real.pi * fc / fs < Real.pi * fc' / fs :=
  div_lt_div_of_pos_right (mul_lt_mul_of_pos_left h Real.pi_pos) hfs

theorem halfTurns_eq_quarter_iff {fc fs : ℝ} (hfs : 0 < fs) :
    Real.pi * fc / fs = Real.pi / 4 ↔ fc = fs / 4 := by
  rw [div_eq_div_iff hfs.ne' four_ne_zero, mul_assoc, mul_right_inj' Real.pi_ne_zero, eq_div_iff four_ne_zero]

theorem Spec.apfCoef_eq_tan {fc fs : ℝ} (h0 : 0 < fc) (h1 : fc < fs / 2) :
    Spec.apfCoef fc fs = Real.tan (Real.pi * fc / fs - Real.pi / 4) := by
  obtain ⟨hpos, hlt⟩ := halfTurns_bounds h0 h1
  have hpi := Real.pi_pos
  have hx : Real.cos (Real.pi * fc / fs) ≠ 0 := (Real.cos_pos_of_mem_Ioo ⟨by linarith, hlt⟩).ne'
  have hq : Real.cos (Real.pi / 4) ≠ 0 := (Real.cos_pos_of_mem_Ioo ⟨by linarith, by linarith⟩).ne'
  rw [Real.tan_sub' ⟨Real.cos_ne_zero_iff.mp hx, Real.cos_ne_zero_iff.mp hq⟩, Real.tan_pi_div_four, mul_one,
    add_comm, Spec.apfCoef]

theorem Spec.apfCoef_bounds {fc fs : ℝ} (h0 : 0 < fc) (h1 : fc < fs / 2) :
    -1 < Spec.apfCoef fc fs ∧ Spec.apfCoef fc fs < 1 := by
  obtain ⟨hpos, hlt⟩ := halfTurns_bounds h0 h1
  have hpi := Real.pi_pos
  rw [Spec.apfCoef_eq_tan h0 h1]
  constructor
  · rw [← Real.tan_pi_div_four, ← Real.tan_neg]
    exact Real.tan_lt_tan_of_lt_of_lt_pi_div_two (by linarith) (by linarith) (by linarith)
  · rw [← Real.tan_pi_div_four]
    exact Real.tan_lt_tan_of_lt_of_lt_pi_div_two (by linarith) (by linarith) (by linarith)

theorem Spec.apfCoef_eq_zero_iff {fc fs : ℝ} (h0 : 0 < fc) (h1 : fc < fs / 2) :
    Spec.apfCoef fc fs = 0 ↔ fc = fs / 4 := by
  obtain ⟨hpos, hlt⟩ := halfTurns_bounds h0 h1
  have hpi := Real.pi_pos
  have hzero : Real.tan (Real.pi * fc / fs - Real.pi / 4) = Real.tan 0 ↔ Real.pi * fc / fs - Real.pi / 4 = 0 :=
    Real.injOn_tan.eq_iff ⟨by linarith, by linarith⟩ ⟨by linarith, by linarith⟩
  rw [Spec.apfCoef_eq_tan h0 h1, ← Real.tan_zero, hzero, sub_eq_zero, halfTurns_eq_quarter_iff (by linarith)]

theorem Spec.apfCoef_strictMono {fc fc' fs : ℝ} (h0 : 0 < fc) (h : fc < fc') (h1 : fc' < fs / 2) :
    Spec.apfCoef fc fs < Spec.apfCoef fc' fs := by
  obtain ⟨hpos, -⟩ := halfTurns_bounds h0 (h.trans h1)
  obtain ⟨-, hlt⟩ := halfTurns_bounds (h0.trans h) h1
  have hpi := Real.pi_pos
  have hangle := halfTurns_lt (show 0 < fs by linarith) h
  rw [Spec.apfCoef_eq_tan h0 (h.trans h1), Spec.apfCoef_eq_tan (h0.trans h) h1]
  exact Real.tan_lt_tan_of_lt_of_lt_pi_div_two (by linarith) (by linarith) (by linarith)

end Sys2Proof

namespace Sys2Proof.Machine

open Sys2Proof

/-- Settles O31: on the rule's domain the coefficient is the tangent of an angle inside (−π/4, π/4). -/
theorem coefficientFormulaAndBounds : Obligations.CoefficientFormulaAndBounds := by
  refine ⟨apfCoef_val, fun fc fs h0 h1 => ?_⟩
  obtain ⟨hlow, hhigh⟩ := Spec.apfCoef_bounds h0 h1
  exact ⟨hlow, hhigh, Spec.apfCoef_eq_zero_iff h0 h1, fun fc' h h1' => Spec.apfCoef_strictMono h0 h h1'⟩

/-! ## The range of a centre frequency (rule R140) -/

theorem apfClampFc_val {p : Params} (hN : p.num = .real) (fc fs : NumT) :
    (apfClampFc p fc fs).val = Spec.clamp fc.val p.fcLo.val (p.fcHiFrac.val * fs.val) := by
  rw [apfClampFc, hN, clamp_real_val, Num.real_mul, NumT.val_mul]

/-- The clamp changes the presented frequency, and so sets `CLAMP`, exactly outside the range. -/
theorem apfClampFc_ne_iff {p : Params} (hN : p.num = .real) (fc fs : NumT) :
    apfClampFc p fc fs ≠ fc ↔ fc.val < p.fcLo.val ∨ p.fcHiFrac.val * fs.val < fc.val := by
  rw [apfClampFc, hN, clamp_real_ne_iff, Num.real_mul, NumT.val_mul]

/-- The upper bound stays below half the rate, since `FC_HI_FRAC` < 1/2. -/
theorem frequencyRange_lt_half {p : Params} (hN : p.num = .real) (h : p.legal = true) {fs : ℝ}
    (hfs : p.fsMin.val ≤ fs) : p.fcHiFrac.val * fs < fs / 2 := by
  obtain ⟨-, -, hmin, -, -, -, -, -, hfrac, -⟩ := Params.legal_real hN h
  calc p.fcHiFrac.val * fs < 1 / 2 * fs := mul_lt_mul_of_pos_right hfrac (hmin.trans_le hfs)
    _ = fs / 2 := by ring

/-- Settles O32, from the constraints of rule R6 on `FC_LO`, `FC_HI_FRAC` and `FS_MIN`. -/
theorem frequencyClampRange : Obligations.FrequencyClampRange := by
  intro p hN hp
  obtain ⟨-, -, -, -, -, -, hlo, -⟩ := Params.legal_real hN hp
  exact ⟨apfClampFc_val hN, fun fs hfs =>
    ⟨hlo, frequencyRange_nonempty hN hp hfs, frequencyRange_lt_half hN hp hfs⟩⟩

/-! ## One step of a stage (rule R143) -/

theorem State.apfOut_val {s : State} (hN : s.num = .real) (i : Stage) (c : Nat) (x : NumT) :
    (s.apfOut i c x).val = (s.ph.d0.get i).val * x.val + ((s.ph.s.get i).at c).val := by
  rw [State.apfOut, hN, Num.real_add, NumT.val_add, Num.real_mul, NumT.val_mul]

/-- A step writes the state of its own stage and channel alone. -/
theorem State.apfStep_stageState (s : State) (i : Stage) (c : Nat) (x : NumT) (j : Stage) (k : Nat) :
    ((s.apfStep i c x).ph.s.get j).at k =
      if j = i ∧ k = c then s.num.sub x (s.num.mul (s.ph.d0.get i) (s.apfOut i c x))
      else (s.ph.s.get j).at k := by
  rw [State.apfStep_ph_s, Four.get_set]
  by_cases hj : j = i
  · subst hj
    simp
  · simp [hj]

theorem State.apfStep_stageState_val {s : State} (hN : s.num = .real) (i : Stage) (c : Nat) (x : NumT) :
    (((s.apfStep i c x).ph.s.get i).at c).val =
      x.val - (s.ph.d0.get i).val * (s.apfOut i c x).val := by
  rw [State.apfStep_stageState, if_pos ⟨rfl, rfl⟩, hN, Num.real_sub, NumT.val_sub, Num.real_mul, NumT.val_mul]

theorem State.apfStep_stageState_of_ne (s : State) {i j : Stage} {c k : Nat} (x : NumT) (h : j ≠ i ∨ k ≠ c) :
    ((s.apfStep i c x).ph.s.get j).at k = (s.ph.s.get j).at k := by
  rw [State.apfStep_stageState, if_neg (not_and_or.mpr h)]

/-- Settles O33. The difference equation is the output of the next step with the state just written. -/
theorem stageStepEquation : Obligations.StageStepEquation := by
  intro s i c x x' hN g y t
  have hy : y.val = g * x.val + ((s.ph.s.get i).at c).val := State.apfOut_val hN i c x
  have hS : ((t.ph.s.get i).at c).val = x.val - g * y.val := State.apfStep_stageState_val hN i c x
  have hnext : (t.apfOut i c x').val = g * x'.val + ((t.ph.s.get i).at c).val := State.apfOut_val (s := t) hN i c x'
  refine ⟨hy, hS, fun j k h => s.apfStep_stageState_of_ne x h, rfl, ?_⟩
  rw [hnext, hS, add_sub_assoc]

/-! ## Four stages in a row (rules R163, R167) -/

/-- The feedback sum on the real numbers: the first two terms, and with `PH_FBSW` clear the other two. -/
theorem State.feedbackSum_val {s : State} (hN : s.num = .real) (c : Nat) :
    let g := fun i => (s.ph.d0.get i).val
    let st := fun i => ((s.ph.s.get i).at c).val
    let two := g .s1 * (g .s2 * g .s3) * st .s0 + g .s2 * g .s3 * st .s1
    (s.feedbackSum c).val = if s.ph.fbsw then two else two + g .s3 * st .s2 + st .s3 := by
  have hnum : s.cfg.p.num = .real := hN
  cases hsw : s.ph.fbsw <;> simp [State.feedbackSum, State.gamma1, State.gamma2, State.gamma3, hsw, hnum]

/-- Settles O45. Each stage passes its input on with its coefficient and adds its state, so a stage's state
reaches the last output with the coefficients of the stages after it. -/
theorem cascadeOutputSplits : Obligations.CascadeOutputSplits := by
  intro s c u hN g st two
  refine ⟨?_, State.feedbackSum_val hN c⟩
  calc (s.cascadeOut c u).s3.val
      = g .s3 * (g .s2 * (g .s1 * (g .s0 * u.val + st .s0) + st .s1) + st .s2) + st .s3 := by
        simp only [State.cascadeOut, State.apfOut_val hN, g, st]
    _ = g .s0 * (g .s1 * (g .s2 * g .s3)) * u.val + (two + g .s3 * st .s2 + st .s3) := by ring

/-! ## The stage commands (rules R144 to R149) -/

/-- `apf_set` as one update of the registers it writes (rule R149). -/
theorem State.apfSet_eq (s : State) (i : Stage) (v : NumT) :
    s.apfSet i v = { s with
      estat := if apfClampFc s.cfg.p v s.ph.fs ≠ v then s.estat ||| Flag.clamp.mask else s.estat
      ph := { s.ph with
        fc := s.ph.fc.set i (apfClampFc s.cfg.p v s.ph.fs)
        d0 := s.ph.d0.set i (apfCoef s.num (apfClampFc s.cfg.p v s.ph.fs) s.ph.fs) } } := by
  by_cases h : apfClampFc s.cfg.p v s.ph.fs = v <;> simp [State.apfSet, State.flagIf, State.flag, h]

section guarded

variable {s : State} (hi : s.ph.init = true)
include hi

/-- The two guards of a phaser command let it through on an initialised engine and a legal channel. -/
theorem State.whenPh_of_legal {ch : BitVec 8} (hc : ch.toNat < s.ph.nch) (v : NumT) (k : State) :
    s.whenInit s.ph.init v (s.whenChannel ch.toNat s.ph.nch v k) = k := by
  rw [hi, State.whenInit_true, State.whenChannel_of_lt hc]

theorem exec_apfSetp_of_init {fsel : BitVec 2} {r : ApfReg} (hr : ApfReg.ofFsel fsel = some r) (i : Stage) :
    exec (.apfSetp fsel i) s = .next ((s.setApfReg i r s.din).respond .ok .zero) := by
  simp only [exec, execApfSetp, hr, hi, State.whenInit_true]

theorem exec_apfGetp_of_init {fsel : BitVec 2} {r : ApfReg} (hr : ApfReg.ofFsel fsel = some r) (i : Stage) :
    exec (.apfGetp fsel i) s = .next (s.respond .ok (s.apfReg i r)) := by
  simp only [exec, execApfGetp, hr, hi, State.whenInit_true]

theorem exec_apfProc_of_legal {ch : BitVec 8} (hc : ch.toNat < s.ph.nch) (i : Stage) :
    exec (.apfProc ch i) s =
      .next ((s.apfStep i ch.toNat s.din).respond .ok (s.apfOut i ch.toNat s.din)) := by
  rw [exec, execApfProc, State.whenPh_of_legal hi hc]

theorem exec_apfGetg_of_init (i : Stage) : exec (.apfGetg i) s = .next (s.respond .ok (s.ph.d0.get i)) := by
  rw [exec, execApfGetg, hi, State.whenInit_true]

theorem exec_apfGets_of_legal {ch : BitVec 8} (hc : ch.toNat < s.ph.nch) (i : Stage) :
    exec (.apfGets ch i) s = .next (s.respond .ok ((s.ph.s.get i).at ch.toNat)) := by
  rw [exec, execApfGets, State.whenPh_of_legal hi hc]

end guarded

/-- Settles O36: behind the guards the command is one step of the stage, of rule R143, and the answer. -/
theorem apfProcCompletes : Obligations.ApfProcCompletes := by
  intro ch i s hN hi hc
  obtain ⟨hy, hS, hkeep, -⟩ := stageStepEquation s i ch.toNat s.din s.din hN
  exact ⟨_, exec_apfProc_of_legal hi hc i, ⟨hy, hS⟩, hkeep, rfl⟩

/-- Settles O34. The flag follows the datum that the clamp hands back, and so the real number presented. -/
theorem apfSetpCompletes : Obligations.ApfSetpCompletes := by
  intro i s hi
  refine ⟨fun hN => ?_, exec_apfSetp_of_init hi (r := .q) rfl i, exec_apfSetp_of_init hi (r := .boost) rfl i⟩
  refine ⟨apfClampFc s.cfg.p s.din s.ph.fs, apfCoef s.num (apfClampFc s.cfg.p s.din s.ph.fs) s.ph.fs,
    apfClampFc_val hN _ _, hN ▸ apfCoef_val _ _, ?_⟩
  rw [exec_apfSetp_of_init hi (r := .fc) rfl i, State.setApfReg, State.apfSet_eq]
  simp only [apfClampFc_ne_iff hN]
  rfl

/-- Settles O35: behind the guards each command only answers. -/
theorem apfReadsComplete : Obligations.ApfReadsComplete := by
  intro i s hi
  exact ⟨exec_apfGetp_of_init hi (r := .fc) rfl i, exec_apfGetp_of_init hi (r := .q) rfl i,
    exec_apfGetp_of_init hi (r := .boost) rfl i,
    exec_apfGetg_of_init hi i, fun ch hc => exec_apfGets_of_legal hi hc i⟩

end Sys2Proof.Machine

/-! SUPPORT. The statements of spec/43_phaser.md: the engine reset and one sample of the phaser, step by step (rules
R160, R163 to R169), and its parameter registers (rules R161, R162), with what they share with the flanger: the second
of two engine resets (rules R200, R272) and the reads of the registers (rule R202). -/

namespace Sys2Proof.Machine

open Sys2Proof

/-! ## The clamp of the denominator (rules R163, R169) -/

/-- The three outcomes of the clamp on the real numbers. -/
theorem clampDen_cases {p : Params} (hN : p.num = .real) (d : NumT) :
    ((0 ≤ d.val ∧ d.val < p.epsDen.val) ∧ clampDen p d = some p.epsDen) ∨
      ((-p.epsDen.val < d.val ∧ d.val < 0) ∧ clampDen p d = some (p.num.neg p.epsDen)) ∨
      (p.epsDen.val ≤ |d.val| ∧ clampDen p d = none) := by
  simp only [clampDen, hN, Num.real_le, Num.real_lt, Num.real_neg, Bool.and_eq_true, NumT.le_iff, NumT.lt_iff,
    NumT.val_zero, NumT.val_neg]
  by_cases hpos : 0 ≤ d.val ∧ d.val < p.epsDen.val
  · exact .inl ⟨hpos, if_pos hpos⟩
  by_cases hneg : -p.epsDen.val < d.val ∧ d.val < 0
  · exact .inr (.inl ⟨hneg, by rw [if_neg hpos, if_pos hneg]⟩)
  · refine .inr (.inr ⟨le_of_not_gt fun hnear => ?_, by rw [if_neg hpos, if_neg hneg]⟩)
    obtain ⟨hlow, hhigh⟩ := abs_lt.mp hnear
    rcases le_or_gt 0 d.val with h0 | h0
    · exact hpos ⟨h0, hhigh⟩
    · exact hneg ⟨hlow, h0⟩

theorem clampDen_val {p : Params} (hN : p.num = .real) (heps : 0 < p.epsDen.val) (d : NumT) :
    ((clampDen p d).getD d).val = Spec.clampDen p.epsDen.val d.val := by
  rcases clampDen_cases hN d with ⟨hpos, e⟩ | ⟨hneg, e⟩ | ⟨hfar, e⟩ <;> rw [e, Spec.clampDen]
  · rw [if_pos hpos, Option.getD_some]
  · rw [if_neg fun h => hneg.2.not_ge h.1, if_pos hneg, Option.getD_some, hN, Num.real_neg, NumT.val_neg]
  · rw [if_neg fun h => hfar.not_gt (abs_lt.mpr ⟨by linarith, h.2⟩),
      if_neg fun h => hfar.not_gt (abs_lt.mpr ⟨h.1, by linarith⟩), Option.getD_none]

/-- The clamp acts, which `DENCLAMP` records, exactly on a denominator nearer to 0 than `EPS_DEN`. -/
theorem clampDen_ne_none_iff {p : Params} (hN : p.num = .real) (heps : 0 < p.epsDen.val) (d : NumT) :
    clampDen p d ≠ none ↔ |d.val| < p.epsDen.val := by
  rcases clampDen_cases hN d with ⟨hpos, e⟩ | ⟨hneg, e⟩ | ⟨hfar, e⟩ <;> rw [e]
  · exact iff_of_true nofun (abs_lt.mpr ⟨by linarith, hpos.2⟩)
  · exact iff_of_true nofun (abs_lt.mpr ⟨hneg.1, by linarith⟩)
  · exact iff_of_false (· rfl) hfar.not_gt

theorem epsDen_le_abs_clampDen {p : Params} (hN : p.num = .real) (d : NumT) :
    p.epsDen.val ≤ |((clampDen p d).getD d).val| := by
  rcases clampDen_cases hN d with ⟨-, e⟩ | ⟨-, e⟩ | ⟨hfar, e⟩ <;> rw [e]
  · exact le_abs_self _
  · rw [Option.getD_some, hN, Num.real_neg, NumT.val_neg, abs_neg]
    exact le_abs_self _
  · exact hfar

/-- Rule R6: 0 < `EPS_DEN` < 1. -/
theorem epsDen_bounds {p : Params} (hN : p.num = .real) (hp : p.legal = true) :
    0 < p.epsDen.val ∧ p.epsDen.val < 1 := by
  obtain ⟨-, -, -, -, -, -, -, -, -, -, -, -, hpos, hone, -⟩ := Params.legal_real hN hp
  exact ⟨hpos, hone⟩

/-- Settles O42, by the three outcomes of the clamp. -/
theorem denominatorClamp : Obligations.DenominatorClamp := by
  intro p d hN hp
  obtain ⟨heps, -⟩ := epsDen_bounds hN hp
  exact ⟨clampDen_val hN heps d, clampDen_ne_none_iff hN heps d, epsDen_le_abs_clampDen hN d⟩

/-! ## Retuning the four stages (rules R149, R160, R163) -/

/-- The four retunings in stage order as one update: every stage holds its clamped frequency and the coefficient of
it, and `CLAMP` is set if a clamp moved one. What the stages held before is overwritten. -/
def State.retuned (s : State) (v : Stage → NumT) : State :=
  let fc := fun i => apfClampFc s.cfg.p (v i) s.ph.fs
  let d0 := fun i => apfCoef s.num (fc i) s.ph.fs
  { s with
    estat :=
      if fc .s0 ≠ v .s0 ∨ fc .s1 ≠ v .s1 ∨ fc .s2 ≠ v .s2 ∨ fc .s3 ≠ v .s3 then s.estat ||| Flag.clamp.mask
      else s.estat
    ph := { s.ph with
      fc := ⟨fc .s0, fc .s1, fc .s2, fc .s3⟩
      d0 := ⟨d0 .s0, d0 .s1, d0 .s2, d0 .s3⟩ } }

/-- Setting one flag on two conditions in a row. -/
theorem flag_twice (a b : Prop) [Decidable a] [Decidable b] (e m : BitVec 7) :
    (if b then (if a then e ||| m else e) ||| m else if a then e ||| m else e) = if a ∨ b then e ||| m else e := by
  by_cases ha : a <;> by_cases hb : b <;> simp [ha, hb, BitVec.or_assoc]

theorem State.apfSet4_eq_retuned (s : State) (v : Stage → NumT) :
    (((s.apfSet .s0 (v .s0)).apfSet .s1 (v .s1)).apfSet .s2 (v .s2)).apfSet .s3 (v .s3) = s.retuned v := by
  simp only [State.apfSet_eq, flag_twice, or_assoc]
  rfl

theorem Stage.exists_iff {q : Stage → Prop} : (∃ i, q i) ↔ q .s0 ∨ q .s1 ∨ q .s2 ∨ q .s3 := by
  constructor
  · rintro ⟨i, h⟩
    cases i with
    | s0 => exact .inl h
    | s1 => exact .inr (.inl h)
    | s2 => exact .inr (.inr (.inl h))
    | s3 => exact .inr (.inr (.inr h))
  · rintro (h | h | h | h)
    exacts [⟨_, h⟩, ⟨_, h⟩, ⟨_, h⟩, ⟨_, h⟩]

section retuned
variable (s : State) (v : Stage → NumT)

theorem State.retuned_fc (i : Stage) : (s.retuned v).ph.fc.get i = apfClampFc s.cfg.p (v i) s.ph.fs := by
  cases i <;> rfl

theorem State.retuned_d0 (i : Stage) :
    (s.retuned v).ph.d0.get i = apfCoef s.num ((s.retuned v).ph.fc.get i) s.ph.fs := by
  cases i <;> rfl

theorem State.retuned_estat_of_moved (h : ∃ i, apfClampFc s.cfg.p (v i) s.ph.fs ≠ v i) :
    (s.retuned v).estat = s.estat ||| Flag.clamp.mask := if_pos (Stage.exists_iff.mp h)

theorem State.retuned_estat_of_fixed (h : ∀ i, apfClampFc s.cfg.p (v i) s.ph.fs = v i) :
    (s.retuned v).estat = s.estat :=
  if_neg fun hmoved => by
    obtain ⟨i, hi⟩ := (Stage.exists_iff (q := fun i => apfClampFc s.cfg.p (v i) s.ph.fs ≠ v i)).mpr hmoved
    exact hi (h i)

/-- Retuning a tuned phaser to its own frequencies changes nothing. -/
theorem State.retuned_self (hfc : ∀ i, apfClampFc s.cfg.p (s.ph.fc.get i) s.ph.fs = s.ph.fc.get i)
    (hd0 : ∀ i, s.ph.d0.get i = apfCoef s.num (s.ph.fc.get i) s.ph.fs) : s.retuned s.ph.fc.get = s := by
  have hestat := s.retuned_estat_of_fixed _ hfc
  have hph : (s.retuned s.ph.fc.get).ph = s.ph := by
    simp only [State.retuned, hfc, ← hd0]
    rfl
  calc s.retuned s.ph.fc.get
      = { s with estat := (s.retuned s.ph.fc.get).estat, ph := (s.retuned s.ph.fc.get).ph } := rfl
    _ = s := by rw [hestat, hph]

variable {s} (hN : s.num = .real)
include hN

/-- Under `NUM = REAL` a stage is clamped and tuned as the spec's formulas say (rules R140, R141). -/
theorem State.retuned_val (i : Stage) :
    ((s.retuned v).ph.fc.get i).val = Spec.clamp (v i).val s.cfg.p.fcLo.val (s.cfg.p.fcHiFrac.val * s.ph.fs.val) ∧
      ((s.retuned v).ph.d0.get i).val = Spec.apfCoef ((s.retuned v).ph.fc.get i).val s.ph.fs.val := by
  rw [State.retuned_d0, hN, apfCoef_val, State.retuned_fc, apfClampFc_val hN]
  exact ⟨rfl, rfl⟩

theorem State.retuned_estat_of_outside
    (h : ∃ i, (v i).val < s.cfg.p.fcLo.val ∨ s.cfg.p.fcHiFrac.val * s.ph.fs.val < (v i).val) :
    (s.retuned v).estat = s.estat ||| Flag.clamp.mask :=
  s.retuned_estat_of_moved v (h.imp fun _ hi => (apfClampFc_ne_iff hN _ _).mpr hi)

theorem State.retuned_estat_of_inside
    (h : ∀ i, ¬((v i).val < s.cfg.p.fcLo.val ∨ s.cfg.p.fcHiFrac.val * s.ph.fs.val < (v i).val)) :
    (s.retuned v).estat = s.estat :=
  s.retuned_estat_of_fixed v fun i => not_not.mp fun hi => h i ((apfClampFc_ne_iff hN _ _).mp hi)

end retuned

/-! ## The engine reset (rule R160) -/

/-- The phaser after a successful `PH.RESET`, and the answer. -/
def State.phResetDone (s : State) (n : Nat) : State :=
  (((s.phLatch n s.din).retuned s.ph.fc.get).setPhInit true).respond .ok .zero

theorem exec_phReset_of_accepted {n : BitVec 8} {s : State} (h : resetRejects s.cfg.p n.toNat s.din = false) :
    exec (.phReset n) s = .next (s.phResetDone n.toNat) := by
  have hall : (s.phLatch n.toNat s.din).retuneAll = (s.phLatch n.toNat s.din).retuned s.ph.fc.get :=
    State.apfSet4_eq_retuned _ s.ph.fc.get
  rw [exec, execPhReset, h, if_neg Bool.false_ne_true, hall, State.phResetDone]

/-- An array with the channels below `n` zeroed. -/
theorem Store.at_zeroedBelow (st : Store NumT) (n c : Nat) :
    Store.at (Store.dropBelow st n) c = if c < n then .rat 0 else st.at c := by
  rw [Store.at_dropBelow]
  by_cases h : c < n
  · rw [if_neg (Nat.not_le.mpr h), if_pos h]
    rfl
  · rw [if_pos (Nat.not_lt.mp h), if_neg h]

theorem State.phLatch_stageState (s : State) (n : Nat) (fs : NumT) (i : Stage) :
    (s.phLatch n fs).ph.s.get i = Store.dropBelow (s.ph.s.get i) n := by
  cases i <;> rfl

/-- Settles O37: behind its checks the command latches the arguments and retunes the stages to their own
frequencies. -/
theorem phResetCompletes : Obligations.PhResetCompletes := by
  intro n s hN hfs hn hmax lo hi old
  have hacc : resetRejects s.cfg.p n.toNat s.din = false := (accepted_iff hN _ _).mpr ⟨hfs, hn, hmax⟩
  have hL : (s.phLatch n.toNat s.din).num = .real := hN
  refine ⟨_, exec_phReset_of_accepted hacc, fun c => Store.at_zeroedBelow _ _ c, fun i c => ?_,
    State.retuned_val _ hL, fun hin => ?_, State.retuned_estat_of_outside _ hL, rfl⟩
  · exact (congrArg (Store.at · c) (s.phLatch_stageState n.toNat s.din i)).trans (Store.at_zeroedBelow _ _ c)
  · exact State.retuned_estat_of_inside _ hL fun i =>
      not_or.mpr ⟨(hin i).1.not_gt, (hin i).2.not_gt⟩

/-! ## One sample (rule R163) -/

theorem exec_phProc_of_legal {ch : BitVec 8} {s : State} (hi : s.ph.init = true) (hc : ch.toNat < s.ph.nch) :
    exec (.phProc ch) s = .next (s.phProcess ch.toNat s.din) := by
  rw [exec, execPhProc, State.whenPh_of_legal hi hc]

/-! ### Steps 1 to 3: the modulation and the tuning -/

theorem State.phModulate_eq_retuned (s : State) (c : Nat) :
    s.phModulate c = ({ s with ph := { s.ph with phase := s.ph.phase.put c (s.phNextPhase c) } } : State).retuned
      (stageTarget s.cfg.p (s.phModulation c)) := by
  rw [State.phModulate, State.phRetune_eq, ← State.apfSet4_eq_retuned]

/-- Steps 1 to 3 overwrite the tuning and do not read it. -/
theorem State.phModulate_withTuning (s : State) (c : Nat) (f g : Four NumT) :
    ({ s with ph := { s.ph with fc := f, d0 := g } } : State).phModulate c = s.phModulate c := by
  rw [State.phModulate_eq_retuned, State.phModulate_eq_retuned]
  rfl

/-- Settles O43: the later steps read the tuning that steps 1 to 3 leave. -/
theorem phProcIgnoresOldTuning : Obligations.PhProcIgnoresOldTuning := by
  intro ch s f g hi hc
  rw [exec_phProc_of_legal hi hc, exec_phProc_of_legal (by exact hi) (by exact hc), State.phProcess,
    State.phModulate_withTuning]
  rfl

theorem lfoOutput_val (quad : Bool) (w : Wave) (p : NumT) :
    (lfoOutput .real quad w p).val = Spec.render w (if quad then Int.fract (p.val + 0.25) else p.val) := by
  cases quad with
  | false => exact lfoRender_val w p
  | true =>
    have hquarter : ((NumT.rat (1 / 4)).val : ℝ) = 0.25 := by norm_num
    simp only [lfoOutput, lfoQuad, if_true, lfoRender_val, Num.frac_val, Num.real_add, NumT.val_add, hquarter]

section real
variable {s : State} (hN : s.num = .real)
include hN

theorem State.phNextPhase_val (c : Nat) :
    (s.phNextPhase c).val = Int.fract ((s.ph.phase.at c).val + s.ph.rate.val / s.ph.fs.val) := by
  rw [State.phNextPhase, hN, lfoAdvance_val, Num.real_div, NumT.val_div]

theorem State.phModulation_val (c : Nat) :
    (s.phModulation c).val = s.ph.depth.val / 100 * (2 * Spec.render s.ph.wave
      (if s.ph.quad then Int.fract ((s.phNextPhase c).val + 0.25) else (s.phNextPhase c).val) - 1) := by
  rw [State.phModulation, hN]
  simp [lfoOutput_val]

theorem stageTarget_val (m : NumT) (i : Stage) :
    (stageTarget s.cfg.p m i).val = (s.cfg.p.fmin.get i).val +
      (m.val + 1) / 2 * ((s.cfg.p.fmax.get i).val - (s.cfg.p.fmin.get i).val) := by
  have hp : s.cfg.p.num = .real := hN
  simp [stageTarget, hp]

end real

/-! ### Steps 4 to 8: the cascade -/

/-- The inputs of the four stages: the cascade input, then the output of the stage before. -/
def State.cascadeInputs (s : State) (c : Nat) (u : NumT) : Four NumT :=
  ⟨u, (s.cascadeOut c u).s0, (s.cascadeOut c u).s1, (s.cascadeOut c u).s2⟩

theorem State.cascadeOut_get (s : State) (c : Nat) (u : NumT) (i : Stage) :
    (s.cascadeOut c u).get i = s.apfOut i c ((s.cascadeInputs c u).get i) := by
  cases i <;> rfl

/-- Step 8 writes the state of every stage for the one channel. -/
theorem State.cascadeStep_stageState (s : State) (c : Nat) (u : NumT) (i : Stage) (k : Nat) :
    ((s.cascadeStep c u).ph.s.get i).at k =
      if k = c then s.num.sub ((s.cascadeInputs c u).get i) (s.num.mul (s.ph.d0.get i) ((s.cascadeOut c u).get i))
      else (s.ph.s.get i).at k := by
  rw [State.cascadeStep_ph]
  cases i <;> exact Store.at_put _ c _ k

theorem State.apfStep_eq (s : State) (i : Stage) (c : Nat) (x : NumT) :
    s.apfStep i c x = { s with ph := { s.ph with s := (s.apfStep i c x).ph.s } } := rfl

theorem State.cascadeStep_eq (s : State) (c : Nat) (u : NumT) :
    s.cascadeStep c u = { s with ph := { s.ph with s := (s.cascadeStep c u).ph.s } } := by
  rw [State.cascadeStep, State.apfStep_eq _ .s3, State.apfStep_eq _ .s2, State.apfStep_eq _ .s1, State.apfStep_eq _ .s0]

/-! ### The whole sample -/

theorem State.apfOut_flagIf (s : State) (b : Bool) (g : Flag) (i : Stage) (c : Nat) (x : NumT) :
    (s.flagIf b g).apfOut i c x = s.apfOut i c x := by
  cases b <;> rfl

theorem State.apfStep_flagIf (s : State) (b : Bool) (g : Flag) (i : Stage) (c : Nat) (x : NumT) :
    (s.flagIf b g).apfStep i c x = (s.apfStep i c x).flagIf b g := by
  cases b <;> rfl

theorem State.cascadeStep_flagIf (s : State) (b : Bool) (g : Flag) (c : Nat) (u : NumT) :
    (s.flagIf b g).cascadeStep c u = (s.cascadeStep c u).flagIf b g := by
  simp only [State.cascadeStep, State.cascadeOut, State.apfOut_flagIf, State.apfStep_flagIf]

section sample
variable (s : State) (c : Nat) (x : NumT)

/-- The state after step 8: the tuning and the phase of steps 1 to 3 and the new stage states. -/
def State.phStepped : State := (s.phModulate c).cascadeStep c ((s.phModulate c).cascadeIn c x)

theorem State.phProcess_eq : s.phProcess c x =
    ((s.phStepped c x).flagIf (clampDen (s.phModulate c).cfg.p (s.phModulate c).alphaDen).isSome .denClamp).respond .ok
      (phMix s.cfg.p x ((s.phModulate c).cascadeOut c ((s.phModulate c).cascadeIn c x)).s3) := by
  rw [State.phProcess, State.cascadeStep_flagIf, State.phStepped]

/-- The frame of the command: the response, the flags, and of the phaser the phase, the tuning and the stage states. -/
theorem State.phProcess_frame : s.phProcess c x = { s with
    status := .ok, dout := (s.phProcess c x).dout, estat := (s.phProcess c x).estat
    ph := { s.ph with
      phase := (s.phProcess c x).ph.phase
      fc := (s.phProcess c x).ph.fc
      d0 := (s.phProcess c x).ph.d0
      s := (s.phProcess c x).ph.s } } := by
  rw [State.phProcess_eq, State.flagIf_eq, State.phStepped, State.cascadeStep_eq, State.phModulate_eq_retuned]
  rfl

theorem State.phProcess_tuning (i : Stage) :
    (s.phProcess c x).ph.fc.get i = (s.phModulate c).ph.fc.get i ∧
      (s.phProcess c x).ph.d0.get i = (s.phModulate c).ph.d0.get i := by
  rw [State.phProcess_eq, State.respond_ph, State.flagIf_ph]
  exact ⟨rfl, rfl⟩

theorem State.phProcess_phase (k : Nat) :
    (s.phProcess c x).ph.phase.at k = if k = c then s.phNextPhase c else s.ph.phase.at k := by
  rw [State.phProcess_eq, State.respond_ph, State.flagIf_ph, State.phStepped, State.cascadeStep_eq,
    State.phModulate_eq_retuned]
  exact Store.at_put _ c _ k

theorem State.phProcess_estat : (s.phProcess c x).estat =
    if (clampDen s.cfg.p (s.phModulate c).alphaDen).isSome then (s.phModulate c).estat ||| Flag.denClamp.mask
    else (s.phModulate c).estat := by
  obtain ⟨hcfg, -⟩ := s.phModulate_frame c
  rw [State.phProcess_eq, State.respond_estat, State.flagIf_estat, hcfg, State.phStepped, State.cascadeStep_eq]

theorem State.phProcess_dout : (s.phProcess c x).dout =
    phMix s.cfg.p x ((s.phModulate c).cascadeOut c ((s.phModulate c).cascadeIn c x)).s3 := by
  rw [State.phProcess_eq, State.respond_dout]

/-- The stage states that step 8 reads are those before the command. -/
theorem State.phModulate_s : (s.phModulate c).ph.s = s.ph.s := by
  rw [State.phModulate_eq_retuned]
  rfl

theorem State.phProcess_stageState (i : Stage) (k : Nat) :
    ((s.phProcess c x).ph.s.get i).at k =
      if k = c then ((s.phStepped c x).ph.s.get i).at c else (s.ph.s.get i).at k := by
  rw [State.phProcess_eq, State.respond_ph, State.flagIf_ph, State.phStepped, State.cascadeStep_stageState,
    State.phModulate_s]
  by_cases h : k = c
  · rw [if_pos h, if_pos h, State.cascadeStep_stageState, if_pos rfl]
  · rw [if_neg h, if_neg h]

theorem State.phProcess_stageState_self (i : Stage) :
    ((s.phProcess c x).ph.s.get i).at c = ((s.phStepped c x).ph.s.get i).at c := by
  rw [State.phProcess_stageState, if_pos rfl]

end sample

/-! ### The flags of the sample -/

theorem getLsbD_flagged (q : Prop) [Decidable q] (e m : BitVec 7) (k : Nat) :
    (if q then e ||| m else e).getLsbD k = (e.getLsbD k || (decide q && m.getLsbD k)) := by
  by_cases h : q <;> simp [h]

/-- An information flag leaves the error flags. -/
theorem errors_flagged (q : Prop) [Decidable q] (e : BitVec 7) {m : BitVec 7} (hm : m &&& 0x1F#7 = 0#7) :
    (if q then e ||| m else e) &&& 0x1F#7 = e &&& 0x1F#7 := by
  by_cases h : q
  · rw [if_pos h, BitVec.and_or_distrib_right, hm, BitVec.or_zero]
  · rw [if_neg h]

theorem State.retuned_errors (s : State) (v : Stage → NumT) :
    (s.retuned v).estat &&& 0x1F#7 = s.estat &&& 0x1F#7 := errors_flagged _ _ rfl

theorem State.retuned_denClamp (s : State) (v : Stage → NumT) :
    (s.retuned v).estat.getLsbD 6 = s.estat.getLsbD 6 := by
  rw [State.retuned, getLsbD_flagged]
  simp [Flag.mask, Flag.bit]

theorem State.retuned_clamp {s : State} (hN : s.num = .real) (v : Stage → NumT) :
    (s.retuned v).estat.getLsbD 5 = true ↔ s.estat.getLsbD 5 = true ∨
      ∃ i, (v i).val < s.cfg.p.fcLo.val ∨ s.cfg.p.fcHiFrac.val * s.ph.fs.val < (v i).val := by
  by_cases h : ∃ i, (v i).val < s.cfg.p.fcLo.val ∨ s.cfg.p.fcHiFrac.val * s.ph.fs.val < (v i).val
  · rw [State.retuned_estat_of_outside v hN h, BitVec.getLsbD_or]
    exact iff_of_true (by simp [Flag.mask, Flag.bit]) (.inr h)
  · rw [State.retuned_estat_of_inside v hN (not_exists.mp h), or_iff_left h]

theorem State.phProcess_errors (s : State) (c : Nat) (x : NumT) :
    (s.phProcess c x).estat &&& 0x1F#7 = s.estat &&& 0x1F#7 := by
  rw [State.phProcess_estat, errors_flagged _ _ rfl, State.phModulate_eq_retuned, State.retuned_errors]

theorem State.phProcess_clamp {s : State} (hN : s.num = .real) (c : Nat) (x : NumT) :
    (s.phProcess c x).estat.getLsbD 5 = true ↔ s.estat.getLsbD 5 = true ∨
      ∃ i, (stageTarget s.cfg.p (s.phModulation c) i).val < s.cfg.p.fcLo.val ∨
        s.cfg.p.fcHiFrac.val * s.ph.fs.val < (stageTarget s.cfg.p (s.phModulation c) i).val := by
  have hkeep : (s.phProcess c x).estat.getLsbD 5 = (s.phModulate c).estat.getLsbD 5 := by
    rw [State.phProcess_estat, getLsbD_flagged]
    simp [Flag.mask, Flag.bit]
  rw [hkeep, State.phModulate_eq_retuned]
  exact State.retuned_clamp hN _

theorem State.phProcess_denClamp (s : State) (c : Nat) (x : NumT) :
    (s.phProcess c x).estat.getLsbD 6 = true ↔
      s.estat.getLsbD 6 = true ∨ clampDen s.cfg.p (s.phModulate c).alphaDen ≠ none := by
  have hkeep : (s.phModulate c).estat.getLsbD 6 = s.estat.getLsbD 6 := by
    rw [State.phModulate_eq_retuned, State.retuned_denClamp]
  rw [State.phProcess_estat, getLsbD_flagged, hkeep]
  simp [Flag.mask, Flag.bit, Option.isSome_iff_ne_none]

/-! ### The command on the real numbers -/

section real
variable {s : State} (hN : s.num = .real)
include hN

theorem State.phProcess_tuned (c : Nat) (x : NumT) (i : Stage) :
    ((s.phProcess c x).ph.fc.get i).val = Spec.clamp (stageTarget s.cfg.p (s.phModulation c) i).val s.cfg.p.fcLo.val
        (s.cfg.p.fcHiFrac.val * s.ph.fs.val) ∧
      ((s.phProcess c x).ph.d0.get i).val = Spec.apfCoef ((s.phProcess c x).ph.fc.get i).val s.ph.fs.val := by
  obtain ⟨hfc, hd0⟩ := s.phProcess_tuning c x i
  rw [hfc, hd0, State.phModulate_eq_retuned]
  exact State.retuned_val _ hN i

/-- Steps 4 and 5: the denominator before its clamp. -/
theorem State.alphaDen_val : s.alphaDen.val = 1 + s.ph.intensity.val / 100 *
    ((s.ph.d0.get .s0).val * ((s.ph.d0.get .s1).val * ((s.ph.d0.get .s2).val * (s.ph.d0.get .s3).val))) := by
  have hnum : s.cfg.p.num = .real := hN
  simp [State.alphaDen, State.feedbackK, State.gamma4, State.gamma3, State.gamma2, State.gamma1, hnum]

/-- Steps 5 to 7. -/
theorem State.cascadeIn_val (c : Nat) (x : NumT) : (s.cascadeIn c x).val =
    1 / Spec.clampDen s.cfg.p.epsDen.val s.alphaDen.val *
      (x.val + s.ph.intensity.val / 100 * (s.feedbackSum c).val) := by
  have hnum : s.cfg.p.num = .real := hN
  obtain ⟨heps, -⟩ := epsDen_bounds hN s.cfg.legal
  simp [State.cascadeIn, State.alpha0, State.feedbackK, hnum, clampDen_val hN heps]

/-- Step 8: the output of a stage. -/
theorem State.cascadeOut_val (c : Nat) (u : NumT) (i : Stage) : ((s.cascadeOut c u).get i).val =
    (s.ph.d0.get i).val * ((s.cascadeInputs c u).get i).val + ((s.ph.s.get i).at c).val := by
  rw [State.cascadeOut_get, State.apfOut_val hN]

/-- Step 8: the new state of a stage. -/
theorem State.cascadeStep_stageState_val (c : Nat) (u : NumT) (i : Stage) :
    (((s.cascadeStep c u).ph.s.get i).at c).val =
      ((s.cascadeInputs c u).get i).val - (s.ph.d0.get i).val * ((s.cascadeOut c u).get i).val := by
  rw [State.cascadeStep_stageState, if_pos rfl, hN, Num.real_sub, NumT.val_sub, Num.real_mul, NumT.val_mul]

/-- Step 8: the four stages in a row, with the last output and the new states. -/
theorem State.cascade_val (c : Nat) (u : NumT) :
    let g := fun i => (s.ph.d0.get i).val
    let st := fun i => ((s.ph.s.get i).at c).val
    let st' := fun i => (((s.cascadeStep c u).ph.s.get i).at c).val
    let y0 := g .s0 * u.val + st .s0
    let y1 := g .s1 * y0 + st .s1
    let y2 := g .s2 * y1 + st .s2
    let y3 := g .s3 * y2 + st .s3
    (s.cascadeOut c u).s3.val = y3 ∧ st' .s0 = u.val - g .s0 * y0 ∧ st' .s1 = y0 - g .s1 * y1 ∧
      st' .s2 = y1 - g .s2 * y2 ∧ st' .s3 = y2 - g .s3 * y3 := by
  intro g st st' y0 y1 y2 y3
  have hout := State.cascadeOut_val hN c u
  have hnew := State.cascadeStep_stageState_val hN c u
  have h0 : (s.cascadeOut c u).s0.val = y0 := hout .s0
  have h1 : (s.cascadeOut c u).s1.val = y1 := (hout .s1).trans (congrArg (g .s1 * · + st .s1) h0)
  have h2 : (s.cascadeOut c u).s2.val = y2 := (hout .s2).trans (congrArg (g .s2 * · + st .s2) h1)
  have h3 : (s.cascadeOut c u).s3.val = y3 := (hout .s3).trans (congrArg (g .s3 * · + st .s3) h2)
  exact ⟨h3, (hnew .s0).trans (congrArg (u.val - g .s0 * ·) h0),
    (hnew .s1).trans (congrArg₂ (· - g .s1 * ·) h0 h1),
    (hnew .s2).trans (congrArg₂ (· - g .s2 * ·) h1 h2),
    (hnew .s3).trans (congrArg₂ (· - g .s3 * ·) h2 h3)⟩

theorem phMix_val (x y : NumT) :
    (phMix s.cfg.p x y).val = s.cfg.p.mixDry.val * x.val + s.cfg.p.mixWet.val * y.val := by
  have hnum : s.cfg.p.num = .real := hN
  simp [phMix, hnum]

end real

/-- Settles O40: the tuning is that of steps 1 to 3, which the cascade of step 8 leaves, and the frame is the
command's. -/
theorem phProcTunesStages : Obligations.PhProcTunesStages := by
  intro ch s hN hi hc
  refine ⟨s.phProcess ch.toNat s.din, s.phNextPhase ch.toNat, (s.phModulation ch.toNat).val, ?_⟩
  simp only [← stageTarget_val hN]
  refine ⟨exec_phProc_of_legal hi hc, State.phNextPhase_val hN _, State.phModulation_val hN _,
    State.phProcess_tuned hN _ _, State.phProcess_clamp hN _ _, s.phProcess_errors _ _, s.phProcess_phase _ _,
    fun i c hne => ?_, s.phProcess_frame _ _⟩
  rw [State.phProcess_stageState, if_neg hne]

/-- What steps 4 to 8 read besides the tuning is as it was before the command. -/
theorem State.phModulate_reads (s : State) (c : Nat) :
    (s.phModulate c).cfg = s.cfg ∧ (s.phModulate c).ph.intensity = s.ph.intensity ∧
      (s.phModulate c).ph.fbsw = s.ph.fbsw := by
  rw [State.phModulate_eq_retuned]
  exact ⟨rfl, rfl, rfl⟩

/-- Settles O41. `m` is the state after step 3: its coefficients are those the command leaves, and its stage states
those the command finds. -/
theorem phProcMixesCascade : Obligations.PhProcMixesCascade := by
  intro ch s hN hi hc
  refine ⟨_, exec_phProc_of_legal hi hc, ?_⟩
  intro g st st' x k gamma1 gamma2 gamma3 gamma4 den sn u y0 y1 y2 y3
  obtain ⟨heps, -⟩ := epsDen_bounds hN s.cfg.legal
  obtain ⟨hcfg, hint, hsw⟩ := s.phModulate_reads ch.toNat
  have hg (i : Stage) : ((s.phModulate ch.toNat).ph.d0.get i).val = g i :=
    congrArg NumT.val (s.phProcess_tuning ch.toNat s.din i).2.symm
  have hst (i : Stage) : (((s.phModulate ch.toNat).ph.s.get i).at ch.toNat).val = st i := by rw [State.phModulate_s]
  have hst' (i : Stage) : st' i = (((s.phStepped ch.toNat s.din).ph.s.get i).at ch.toNat).val :=
    congrArg NumT.val (s.phProcess_stageState_self ch.toNat s.din i)
  have hflag := s.phProcess_denClamp ch.toNat s.din
  rw [State.phProcess_dout, phMix_val hN]
  simp only [State.phStepped] at hst'
  generalize s.phModulate ch.toNat = m at *
  have hm : m.num = .real := (congrArg (·.p.num) hcfg).trans hN
  have hden : m.alphaDen.val = den := by
    simp only [State.alphaDen_val hm, hg, hint]
    rfl
  have hsn : (m.feedbackSum ch.toNat).val = sn := by
    simp only [State.feedbackSum_val hm, hg, hst, hsw]
    rfl
  have hu : (m.cascadeIn ch.toNat s.din).val = u := by rw [State.cascadeIn_val hm, hcfg, hden, hint, hsn]
  obtain ⟨hy3, hs0, hs1, hs2, hs3⟩ := State.cascade_val hm ch.toNat (m.cascadeIn ch.toNat s.din)
  simp only [hg, hst, hu, ← hst'] at hy3 hs0 hs1 hs2 hs3
  refine ⟨?_, hs0, hs1, hs2, hs3, by rw [hy3]⟩
  rw [hflag, clampDen_ne_none_iff hN heps, hden]

/-- Settles O44: with K = 0 the denominator is 1, farther from 0 than `EPS_DEN`, and the feedback sum has no weight. -/
theorem phProcZeroIntensity : Obligations.PhProcZeroIntensity := by
  intro ch s hN hi hc hzero
  obtain ⟨heps, hone⟩ := epsDen_bounds hN s.cfg.legal
  obtain ⟨t, ht, hflag, hs0, -, -, -, hout⟩ := phProcMixesCascade ch s hN hi hc
  have hden : Spec.clampDen s.cfg.p.epsDen.val 1 = 1 := by
    rw [Spec.clampDen, if_neg (by linarith [·.2]), if_neg (by linarith [·.2])]
  simp only [hzero, zero_div, zero_mul, add_zero, hden, div_one, one_mul, abs_one] at hflag hs0 hout
  refine ⟨t, ht, Bool.eq_iff_iff.mpr (hflag.trans (or_iff_left hone.not_gt)), hout, hs0⟩

/-! ## The second of two engine resets (rules R160, R200, R272) -/

theorem Store.dropBelow_dropBelow {α : Type} (st : Store α) (n : Nat) :
    Store.dropBelow (Store.dropBelow st n) n = Store.dropBelow st n := by
  simp [Store.dropBelow, List.filter_filter]

/-- A datum within the bounds is handed back by the clamp. -/
theorem clamp_of_within {x lo hi : NumT} (h : x.Within lo hi) : Num.real.clamp x lo hi = x :=
  not_not.mp fun hne => ((clamp_real_ne_iff x lo hi).mp hne).elim h.1.not_gt h.2.not_gt

/-- At an accepted rate the range is not empty, so a clamped frequency stays as it is. -/
theorem apfClampFc_idem {p : Params} (hN : p.num = .real) (hp : p.legal = true) {fs : NumT}
    (hfs : p.fsMin.val ≤ fs.val) (v : NumT) : apfClampFc p (apfClampFc p v fs) fs = apfClampFc p v fs := by
  have hrange : p.fcLo.val ≤ (Num.real.mul p.fcHiFrac fs).val := by
    rw [Num.real_mul, NumT.val_mul]
    exact frequencyRange_nonempty hN hp hfs
  rw [apfClampFc, apfClampFc, hN]
  exact clamp_of_within (clamp_within rfl v hrange)

theorem phReset_accepted {n : BitVec 8} {s t : State} (h : exec (.phReset n) s = .next t) (hok : t.status = .ok) :
    resetRejects s.cfg.p n.toNat s.din = false := by
  by_contra hrej
  rw [Bool.not_eq_false] at hrej
  rw [exec, execPhReset, if_pos hrej] at h
  obtain rfl := Host.Outcome.next.inj h
  cases hok

/-- Latching the same arguments again changes nothing. -/
theorem State.phResetDone_phLatch (s : State) (n : Nat) :
    (s.phResetDone n).phLatch n s.din = s.phResetDone n := by
  simp only [State.phResetDone, State.phLatch, State.retuned, State.setPhInit, State.respond,
    Store.dropBelow_dropBelow]

theorem State.phResetDone_twice {s : State} (hN : s.num = .real) {n : Nat} (hfs : s.cfg.p.fsMin.val ≤ s.din.val) :
    (s.phResetDone n).phResetDone n = s.phResetDone n := by
  have hfc (i : Stage) : (s.phResetDone n).ph.fc.get i = apfClampFc s.cfg.p (s.ph.fc.get i) s.din :=
    State.retuned_fc (s.phLatch n s.din) _ i
  have htuned : (s.phResetDone n).retuned (s.phResetDone n).ph.fc.get = s.phResetDone n := by
    refine State.retuned_self _ (fun i => ?_) (State.retuned_d0 (s.phLatch n s.din) _)
    rw [hfc]
    exact apfClampFc_idem hN s.cfg.legal hfs _
  calc (s.phResetDone n).phResetDone n
      = ((((s.phResetDone n).phLatch n s.din).retuned (s.phResetDone n).ph.fc.get).setPhInit true).respond .ok .zero :=
        rfl
    _ = s.phResetDone n := by
        rw [State.phResetDone_phLatch, htuned]
        rfl

/-- The flanger after a successful `FL.RESET`, and the answer. -/
def State.flResetDone (s : State) (n : Nat) : State := ((s.flLatch n s.din).setFlInit true).respond .ok .zero

/-- The arguments `FL.RESET` rejects (rule R200). -/
def flResetRejects (s : State) (n : Nat) : Bool :=
  resetRejects s.cfg.p n s.din || decide ((s.cfg.p.bufCap : Int) < bufferLen s.cfg.p s.din)

theorem exec_flReset_of_accepted {n : BitVec 8} {s : State} (h : flResetRejects s n.toNat = false) :
    exec (.flReset n) s = .next (s.flResetDone n.toNat) := by
  rw [flResetRejects] at h
  rw [exec, execFlReset, h, if_neg Bool.false_ne_true, State.flResetDone]

theorem flReset_accepted {n : BitVec 8} {s t : State} (h : exec (.flReset n) s = .next t) (hok : t.status = .ok) :
    flResetRejects s n.toNat = false := by
  by_contra hrej
  rw [Bool.not_eq_false, flResetRejects] at hrej
  rw [exec, execFlReset, if_pos hrej] at h
  obtain rfl := Host.Outcome.next.inj h
  cases hok

/-- Clearing the same words again changes no word. -/
theorem Memory.read_clear_clear (m : Memory) (len n c a : Nat) :
    ((m.clear len n).clear len n).read c a = (m.clear len n).read c a := by
  rw [Memory.read_clear, Memory.read_clear]
  by_cases h : c < n ∧ a < len
  · rw [if_pos h, if_pos h]
  · rw [if_neg h, if_neg h]

/-- Settles O47. The second reset finds the registers latched, the arrays zeroed, and every frequency inside the
range, where the clamp hands it back. -/
theorem resetTwiceIsOnce : Obligations.ResetTwiceIsOnce := by
  constructor
  · intro n s t hN h hok
    have hacc : resetRejects s.cfg.p n.toNat s.din = false := phReset_accepted h hok
    obtain ⟨⟨hfs, -⟩, -, -⟩ := (accepted_iff hN _ _).mp hacc
    obtain rfl := Host.Outcome.next.inj ((exec_phReset_of_accepted hacc).symm.trans h)
    have hagain : resetRejects (s.phResetDone n.toNat).cfg.p n.toNat (s.phResetDone n.toNat).din = false := hacc
    rw [exec_phReset_of_accepted hagain, State.phResetDone_twice hN hfs]
  · intro n s t h hok
    have hacc : flResetRejects s n.toNat = false := flReset_accepted h hok
    obtain rfl := Host.Outcome.next.inj ((exec_flReset_of_accepted hacc).symm.trans h)
    have hagain : flResetRejects (s.flResetDone n.toNat) n.toNat = false := hacc
    refine ⟨_, exec_flReset_of_accepted hagain, fun c a => ?_, ?_⟩
    · exact Memory.read_clear_clear _ _ _ c a
    · simp only [State.flResetDone, State.flLatch, State.setFlInit, State.respond, Store.dropBelow_dropBelow]

/-! ## Writing the parameter registers (rules R27, R28, R161) -/

/-- A real-valued register is written with the clamped operand, and `CLAMP` tells whether the operand lies outside the
range (rule R27). -/
theorem State.setReal_zero {s : State} (hN : s.num = .real) (lo hi : NumT) (store : NumT → State → State) :
    s.setReal 0#8 lo hi store = (store (Num.real.clamp s.din lo hi) { s with
      estat := if s.din.val < lo.val ∨ hi.val < s.din.val then s.estat ||| 0x20#7 else s.estat }).respond
        .ok .zero := by
  rw [State.setReal, if_neg (not_not.mpr rfl), hN]
  simp only [clamp_real_ne_iff, State.flagIf_eq, decide_eq_true_eq]
  rfl

/-- The value a one-bit register takes from 0 or 1 (rule R92). -/
theorem bitOfIval_of_le {ival : BitVec 8} (h : ival.toNat ≤ 1) :
    bitOfIval ival = some (decide (ival.toNat = 1)) := by
  rcases Nat.le_one_iff_eq_zero_or_eq_one.mp h with h0 | h1
  · simp [bitOfIval, h0]
  · simp [bitOfIval, h1]

theorem State.setBit_of_le (s : State) {ival : BitVec 8} (h : ival.toNat ≤ 1) (store : Bool → State → State) :
    s.setBit ival store = (store (decide (ival.toNat = 1)) s).respond .ok .zero := by
  rw [State.setBit, bitOfIval_of_le h]

theorem State.setWave_of_code (s : State) {ival : BitVec 8} {w : Wave} (h : ival.toNat = waveCode w)
    (store : Wave → State → State) : s.setWave ival store = (store w s).respond .ok .zero := by
  rw [State.setWave, h, waveOfCode_waveCode]

theorem NumT.val_hundred : (NumT.rat 100).val = 100 := by norm_num

/-- Settles O38, register by register: each pid names one of the three kinds of writes. -/
theorem phSetpCompletes : Obligations.PhSetpCompletes := by
  intro s
  refine ⟨fun hN => ?_, fun hN => ?_, fun ival hbit => ⟨?_, ?_⟩, fun ival w hw => ?_⟩
  · refine ⟨Num.real.clamp s.din .zero s.cfg.p.rateHi, by rw [clamp_real_val, NumT.val_zero], ?_⟩
    have h := State.setReal_zero hN .zero s.cfg.p.rateHi fun v t => { t with ph := { t.ph with rate := v } }
    rw [NumT.val_zero] at h
    exact congrArg Host.Outcome.next h
  · refine ⟨Num.real.clamp s.din .zero (.rat 100), by rw [clamp_real_val, NumT.val_zero, NumT.val_hundred], ?_⟩
    have h := State.setReal_zero hN .zero (.rat 100)
    rw [NumT.val_zero, NumT.val_hundred] at h
    exact ⟨congrArg Host.Outcome.next (h _), congrArg Host.Outcome.next (h _)⟩
  · exact congrArg Host.Outcome.next (s.setBit_of_le hbit _)
  · exact congrArg Host.Outcome.next (s.setBit_of_le hbit _)
  · exact congrArg Host.Outcome.next (s.setWave_of_code hw _)

/-! ## Reading the registers of both engines (rules R27, R50, R162, R202) -/

/-- The parameter id of a phaser register (rule R27). -/
def PhReg.pid : PhReg → BitVec 8
  | .rate => 0x00#8
  | .depth => 0x01#8
  | .intensity => 0x02#8
  | .quad => 0x03#8
  | .fbsw => 0x04#8
  | .wave => 0x05#8
  | .fs => 0x10#8
  | .nch => 0x11#8
  | .init => 0x12#8

/-- The parameter id of a flanger register (rule R50). -/
def FlReg.pid : FlReg → BitVec 8
  | .rate => 0x00#8
  | .depth => 0x01#8
  | .fb => 0x02#8
  | .inv => 0x03#8
  | .toneEn => 0x04#8
  | .fs => 0x10#8
  | .nch => 0x11#8
  | .init => 0x12#8
  | .len => 0x13#8

theorem PhReg.ofPid_pid (r : PhReg) : PhReg.ofPid r.pid = some r := by
  cases r <;> rfl

theorem FlReg.ofPid_pid (r : FlReg) : FlReg.ofPid r.pid = some r := by
  cases r <;> rfl

theorem exec_phGetp_pid (s : State) (r : PhReg) : exec (.phGetp r.pid) s = .next (s.respond .ok (s.phReg r)) := by
  rw [exec, execPhGetp, PhReg.ofPid_pid]

theorem exec_flGetp_pid (s : State) (r : FlReg) : exec (.flGetp r.pid) s = .next (s.respond .ok (s.flReg r)) := by
  rw [exec, execFlGetp, FlReg.ofPid_pid]

/-- Settles O49: each row of the two tables is the id and the value of one register. -/
theorem getpCompletes : Obligations.GetpCompletes := by
  intro s
  constructor
  · intro pid v hrow
    have hrows : (pid, v) ∈ [PhReg.rate, .depth, .intensity, .quad, .fbsw, .wave, .fs, .nch, .init].map
        fun r => (r.pid, s.phReg r) := hrow
    obtain ⟨r, -, hr⟩ := List.mem_map.mp hrows
    obtain ⟨rfl, rfl⟩ := Prod.mk.inj hr
    exact exec_phGetp_pid s r
  · intro pid v hrow
    have hrows : (pid, v) ∈ [FlReg.rate, .depth, .fb, .inv, .toneEn, .fs, .nch, .init, .len].map
        fun r => (r.pid, s.flReg r) := hrow
    obtain ⟨r, -, hr⟩ := List.mem_map.mp hrows
    obtain ⟨rfl, rfl⟩ := Prod.mk.inj hr
    exact exec_flGetp_pid s r

end Sys2Proof.Machine

/-! SUPPORT. The statements of spec/44_delay_line.md: the taps around the read position (rules R181, R182), the
interpolation and the read on the real numbers (rules R183, R184, R188), and the probe commands (rules R185 to R187). -/

namespace Sys2Proof

/-! ## The cubic on the real numbers (rules R183, R188) -/

theorem Spec.cubic_zero (s0 s1 s2 s3 : ℝ) : Spec.cubic s0 s1 s2 s3 0 = s1 := by
  simp [Spec.cubic]

theorem Spec.cubic_one (s0 s1 s2 s3 : ℝ) : Spec.cubic s0 s1 s2 s3 1 = s2 := by
  rw [Spec.cubic]
  ring

/-- Four words on a straight line interpolate to that line, the position `f` counted from the second. -/
theorem Spec.cubic_line (a b f : ℝ) : Spec.cubic a (a + b) (a + 2 * b) (a + 3 * b) f = a + b + b * f := by
  rw [Spec.cubic]
  ring

end Sys2Proof

namespace Sys2Proof.Machine

open Sys2Proof

theorem cubic_val (s0 s1 s2 s3 f : NumT) :
    (cubic .real s0 s1 s2 s3 f).val = Spec.cubic s0.val s1.val s2.val s3.val f.val := by
  simp only [cubic, Spec.cubic, Num.real_add, Num.real_sub, Num.real_mul, NumT.val_add, NumT.val_sub, NumT.val_mul,
    NumT.val_rat]
  norm_num

/-- Settles O55: the model's polynomial denotes the spec's, and the three properties are identities of that. -/
theorem cubicInterpolates : Obligations.CubicInterpolates :=
  ⟨cubic_val, fun a b c d f => ⟨Spec.cubic_zero a b c d, Spec.cubic_one a b c d, Spec.cubic_line a b f⟩⟩

/-! ## Reduced addresses (rule R72) -/

theorem imod_add_mul_self (a z : Int) (len : Nat) : imod (a + len * z) len = imod a len := by
  rw [imod, Int.add_mul_emod_self_left, imod]

/-- Within one turn of the buffer no address comes twice. -/
theorem imod_ne_of_lt {a b : Int} {len : Nat} (hab : a < b) (hb : b < a + len) : imod a len ≠ imod b len := by
  intro h
  have hlen : (len : Int) ≠ 0 := by omega
  have hmod : a % len = b % len := by
    have ha0 := Int.emod_nonneg a hlen
    have hb0 := Int.emod_nonneg b hlen
    simp only [imod] at h
    omega
  have hdiff : (b - a) % len = 0 := Int.emod_eq_emod_iff_emod_sub_eq_zero.mp hmod.symm
  rw [Int.emod_eq_of_lt (by omega) (by omega)] at hdiff
  omega

/-! ## The read position (rule R181) -/

/-- r = (w − d + L) mod L on the real numbers. -/
noncomputable def readPosition (w : Nat) (d : ℝ) (len : Nat) : ℝ :=
  (w : ℝ) - d + len - len * ⌊((w : ℝ) - d + len) / len⌋

theorem dlReadpos_val (w : Nat) (d : NumT) (len : Nat) :
    (dlReadpos .real w d len).val = readPosition w d.val len := by
  simp only [dlReadpos, readPosition, Num.rmod_val, Num.real_add, Num.real_sub, NumT.val_add, NumT.val_sub,
    NumT.val_ofInt, Int.cast_natCast]

theorem readPosition_mem (w : Nat) (d : ℝ) {len : Nat} (h : 0 < len) :
    0 ≤ readPosition w d len ∧ readPosition w d len < len := by
  have hlen : (0 : ℝ) < len := Nat.cast_pos.mpr h
  rw [readPosition, mul_comm (len : ℝ)]
  exact ⟨Int.sub_floor_div_mul_nonneg _ hlen, Int.sub_floor_div_mul_lt _ hlen⟩

/-- Up to a whole number of places, the read position is the opposite of the delay. -/
theorem readPosition_eq_neg_add (w : Nat) (d : ℝ) (len : Nat) :
    ∃ z : Int, readPosition w d len = -d + ((w + len * z : Int) : ℝ) := by
  refine ⟨1 - ⌊((w : ℝ) - d + len) / len⌋, ?_⟩
  rw [readPosition]
  push_cast
  ring

theorem fract_readPosition (w : Nat) (d : ℝ) (len : Nat) : Int.fract (readPosition w d len) = Int.fract (-d) := by
  obtain ⟨z, hz⟩ := readPosition_eq_neg_add w d len
  rw [hz, Int.fract_add_intCast]

/-- The address `k` places after the read position is counted from the write position. -/
theorem imod_floor_readPosition (w : Nat) (d : ℝ) (len : Nat) (k : Int) :
    imod (⌊readPosition w d len⌋ + k) len = imod (w - ⌈d⌉ + k) len := by
  obtain ⟨z, hz⟩ := readPosition_eq_neg_add w d len
  have hfloor : ⌊readPosition w d len⌋ + k = w - ⌈d⌉ + k + len * z := by
    rw [hz, Int.floor_add_intCast, Int.floor_neg]
    ring
  rw [hfloor, imod_add_mul_self]

/-! ## The taps (rule R182) -/

/-- The four addresses as offsets −1, 0, 1, 2 from the integer part of the position, and its fraction. -/
theorem dlTaps_real (r : NumT) (len : Nat) : dlTaps .real r len =
    { i0 := imod (⌊r.val⌋ + -1) len, i1 := imod (⌊r.val⌋ + 0) len, i2 := imod (⌊r.val⌋ + 1) len
      i3 := imod (⌊r.val⌋ + 2) len, f := Num.real.frac r } := by
  have hbefore : imod (⌊r.val⌋ - 1 + len) len = imod (⌊r.val⌋ + -1) len := by
    have h := imod_add_mul_self (⌊r.val⌋ - 1) 1 len
    rwa [mul_one] at h
  rw [dlTaps, Num.real_floor, NumT.floor_eq, hbefore, add_zero, Num.frac, Num.real_floor, NumT.floor_eq]

/-- Settles O54: with D the delay rounded up, 3 ≤ D ≤ L − 3, the taps stand D + 1, D, D − 1 and D − 2 places behind
the write position, all less than one turn. -/
theorem tapsAvoidWritePosition : Obligations.TapsAvoidWritePosition := by
  intro w len d hw hlo hhi
  have hD2 : 2 < ⌈d.val⌉ := Int.lt_ceil.mpr (by exact_mod_cast hlo)
  have hD : ⌈d.val⌉ ≤ (len : Int) - 3 := Int.ceil_le.mpr (by exact_mod_cast hhi)
  have hself : imod (w : Int) len = w := by rw [imod_natCast, Nat.mod_eq_of_lt hw]
  have hwrite : ∀ k : Int, -1 ≤ k → k ≤ 2 → imod (w - ⌈d.val⌉ + k) len ≠ w := fun k h0 h1 =>
    hself ▸ imod_ne_of_lt (by omega) (by omega)
  have htaps : ∀ {j k : Int}, j < k ∧ k ≤ j + 3 → imod (w - ⌈d.val⌉ + j) len ≠ imod (w - ⌈d.val⌉ + k) len :=
    fun ⟨h0, h1⟩ => imod_ne_of_lt (by omega) (by omega)
  have hoffsets : [-1, 0, 1, 2].Pairwise fun j k : Int => j < k ∧ k ≤ j + 3 := by decide
  simp only [dlTaps_real, dlReadpos_val, imod_floor_readPosition]
  exact ⟨hwrite (-1) (by decide) (by decide), hwrite 0 (by decide) (by decide), hwrite 1 (by decide) (by decide),
    hwrite 2 (by decide) (by decide), List.pairwise_map.mpr (hoffsets.imp htaps)⟩

/-! ## The read (rule R184) -/

/-- The model's read denotes the spec's on the real numbers. -/
theorem State.dlRead_val {s : State} (hN : s.num = .real) (c : Nat) (d : NumT) :
    (s.dlRead c d).val = s.readAt c d.val := by
  rw [State.dlRead, hN, dlTaps_real, cubic_val, Num.frac_val, dlReadpos_val]
  rfl

/-- Settles O56: the position is a remainder by the length, and the read is the spec's on the real numbers. -/
theorem delayReadFollowsTaps : Obligations.DelayReadFollowsTaps := by
  intro s c d hN hlen
  obtain ⟨h0, h1⟩ := readPosition_mem (s.flWpos c) d.val hlen
  exact ⟨h0, h1, State.dlRead_val hN c d⟩

/-- A position with no fraction reads the word at it, here the one `D` places behind the write position. -/
theorem State.readAt_intCast (s : State) (c : Nat) (D : Int) :
    s.readAt c D = (s.fl.buf.read c (imod (s.flWpos c - D) s.fl.len)).val := by
  have hf : Int.fract (readPosition (s.flWpos c) D s.fl.len) = 0 := by
    rw [fract_readPosition, ← Int.cast_neg, Int.fract_intCast]
  have ha : imod (⌊readPosition (s.flWpos c) D s.fl.len⌋ + 0) s.fl.len = imod (s.flWpos c - D) s.fl.len := by
    rw [imod_floor_readPosition, Int.ceil_intCast, add_zero]
  calc s.readAt c D
      = Spec.cubic _ (s.fl.buf.read c (imod (⌊readPosition (s.flWpos c) D s.fl.len⌋ + 0) s.fl.len)).val _ _
          (Int.fract (readPosition (s.flWpos c) D s.fl.len)) := rfl
    _ = _ := by rw [hf, Spec.cubic_zero, ha]

/-- Settles O57: a whole delay leaves the read position without a fraction. -/
theorem wholeDelayReadsStoredWord : Obligations.WholeDelayReadsStoredWord := by
  intro s c d D hN _ hd
  rw [State.dlRead_val hN, hd]
  exact s.readAt_intCast c D

/-! ## The probe commands (rules R185 to R187) -/

section guarded

variable {s : State} {ch : BitVec 8} (hi : s.fl.init = true) (hc : ch.toNat < s.fl.nch)
include hi hc

/-- The guards let a flanger command through on an initialised engine and a legal channel. -/
theorem State.whenFl_of_legal (v : NumT) (k : State) : s.whenFl ch v k = k := by
  rw [State.whenFl, hi, State.whenInit_true, State.whenChannel_of_lt hc]

theorem exec_dlRead_of_legal : exec (.dlRead ch) s = .next (s.respond .ok (s.dlRead ch.toNat s.din)) := by
  rw [exec, execDlRead, State.whenFl_of_legal hi hc]

theorem exec_dlGetw_of_legal : exec (.dlGetw ch) s = .next (s.respond .ok (.ofInt (s.flWpos ch.toNat))) := by
  rw [exec, execDlGetw, State.whenFl_of_legal hi hc]

theorem exec_dlPeek_of_legal {addr : BitVec 16} (ha : addr.toNat < s.fl.len) :
    exec (.dlPeek ch addr) s = .next (s.respond .ok (s.fl.buf.read ch.toNat addr.toNat)) := by
  rw [exec, execDlPeek, State.whenFl_of_legal hi hc, if_pos ha]

end guarded

/-- Settles O58: behind the guards each probe only answers. -/
theorem delayProbesComplete : Obligations.DelayProbesComplete := by
  intro ch s hi hc
  have hw : NumT.ofInt (s.flWpos ch.toNat) = .rat (s.flWpos ch.toNat) := by rw [NumT.ofInt, Int.cast_natCast]
  exact ⟨exec_dlRead_of_legal hi hc, hw ▸ exec_dlGetw_of_legal hi hc, fun _ ha => exec_dlPeek_of_legal hi hc ha⟩

end Sys2Proof.Machine

/-! SUPPORT. The statements of spec/45_flanger.md: the engine reset (rules R200, R204), the parameter registers (rule
R201), one sample (rules R203, R205 to R208) and the tone filter (rules R210 to R213). -/

namespace Sys2Proof.Machine

open Sys2Proof

/-! ## The engine reset (rules R59, R200, R204) -/

theorem flResetRejects_eq_false {s : State} (hN : s.num = .real) {n : Nat}
    (hfs : s.din.Within s.cfg.p.fsMin s.cfg.p.fsMax) (hn : 1 ≤ n) (hmax : n ≤ s.cfg.p.nchMax)
    (hlen : ⌈(s.cfg.p.baseDelay.val + s.cfg.p.sweepMax.val) * s.din.val⌉ + (s.cfg.p.margin : ℤ) ≤ s.cfg.p.bufCap) :
    flResetRejects s n = false := by
  have hacc : resetRejects s.cfg.p n s.din = false := (accepted_iff hN _ _).mpr ⟨hfs, hn, hmax⟩
  rw [flResetRejects, hacc, Bool.false_or, decide_eq_false_iff_not, bufferLen_eq hN]
  exact hlen.not_gt

theorem State.flResetDone_flWpos (s : State) (n c : Nat) :
    (s.flResetDone n).flWpos c = if c < n then 0 else s.flWpos c := by
  refine (Store.get_dropBelow 0 s.fl.wpos n c).trans ?_
  by_cases h : c < n
  · rw [if_neg (Nat.not_le.mpr h), if_pos h]
  · rw [if_pos (Nat.not_lt.mp h), if_neg h, State.flWpos]

/-- Settles O46: behind its checks the command latches the arguments and zeroes the channels below n. -/
theorem flResetCompletes : Obligations.FlResetCompletes := by
  intro n s hN hfs hn hmax len hlen
  have hacc : flResetRejects s n.toNat = false := flResetRejects_eq_false hN hfs hn hmax hlen
  exact ⟨_, exec_flReset_of_accepted hacc, latchedLen_eq hN s.cfg.legal hfs.1, Store.at_zeroedBelow _ _,
    s.flResetDone_flWpos _, Store.at_zeroedBelow _ _, Memory.read_clear _ _ _, rfl⟩

/-! ## Writing the parameter registers (rules R50, R201) -/

/-- A real-valued register with the range [0, b]. -/
theorem State.setReal_upTo {s : State} (hN : s.num = .real) {hi : NumT} {b : ℝ} (hb : hi.val = b)
    (store : NumT → State → State) : ∃ v : NumT, v.val = Spec.clamp s.din.val 0 b ∧
      s.setReal 0#8 .zero hi store = (store v { s with
        estat := if s.din.val < 0 ∨ b < s.din.val then s.estat ||| 0x20#7 else s.estat }).respond .ok .zero := by
  refine ⟨Num.real.clamp s.din .zero hi, by rw [clamp_real_val, NumT.val_zero, hb], ?_⟩
  rw [State.setReal_zero hN, NumT.val_zero, hb]

/-- Settles O48, register by register: each pid names a real-valued register or a bit. -/
theorem flSetpCompletes : Obligations.FlSetpCompletes := by
  intro s
  refine ⟨fun hN => ?_, fun hN => ?_, fun hN => ?_, fun ival hbit => ⟨?_, ?_⟩⟩
  · obtain ⟨v, hv, hset⟩ := State.setReal_upTo hN rfl fun v t => { t with fl := { t.fl with rate := v } }
    exact ⟨v, hv, congrArg Host.Outcome.next hset⟩
  · obtain ⟨v, hv, hset⟩ := State.setReal_upTo hN NumT.val_hundred fun v t => { t with fl := { t.fl with depth := v } }
    exact ⟨v, hv, congrArg Host.Outcome.next hset⟩
  · obtain ⟨v, hv, hset⟩ := State.setReal_upTo hN NumT.val_one fun v t => { t with fl := { t.fl with fb := v } }
    exact ⟨v, hv, congrArg Host.Outcome.next hset⟩
  · exact congrArg Host.Outcome.next (s.setBit_of_le hbit _)
  · exact congrArg Host.Outcome.next (s.setBit_of_le hbit _)

/-! ## The tone filter (rules R210 to R213) -/

section tone
variable {s : State} (hN : s.num = .real) (c : Nat) (x : NumT)
include hN

theorem State.toneLp_val :
    (s.toneLp c x).val = Spec.toneA s.cfg.p s.fl.fs.val * x.val + (s.fl.tz.at c).val := by
  rw [State.toneLp, hN, Num.real_add, NumT.val_add, Num.real_mul, NumT.val_mul, toneA_val hN]

theorem State.toneOut_val : (s.toneOut c x).val = x.val +
    Spec.toneC s.cfg.p * (Spec.toneA s.cfg.p s.fl.fs.val * x.val + (s.fl.tz.at c).val) := by
  rw [State.toneOut, hN, Num.real_add, NumT.val_add, Num.real_mul, NumT.val_mul, toneC_val hN, State.toneLp_val hN]

theorem State.toneStep_tz_val : ((s.toneStep c x).fl.tz.at c).val = Spec.toneA s.cfg.p s.fl.fs.val * x.val +
    Spec.toneG s.cfg.p s.fl.fs.val * (Spec.toneA s.cfg.p s.fl.fs.val * x.val + (s.fl.tz.at c).val) := by
  rw [State.toneStep_fl_tz, Store.at_put, if_pos rfl, hN, Num.real_add, NumT.val_add, Num.real_mul, NumT.val_mul,
    Num.real_mul, NumT.val_mul, toneA_val hN, toneG_val hN, State.toneLp_val hN]

end tone

theorem State.toneStep_tz_of_ne (s : State) {c k : Nat} (x : NumT) (h : k ≠ c) :
    (s.toneStep c x).fl.tz.at k = s.fl.tz.at k := by
  rw [State.toneStep_fl_tz, Store.at_put, if_neg h]

section guarded

variable {s : State} {ch : BitVec 8} (hi : s.fl.init = true) (hc : ch.toNat < s.fl.nch)
include hi hc

theorem exec_toneProc_of_legal : exec (.toneProc ch) s =
    .next ((s.toneStep ch.toNat s.din).respond .ok (s.toneOut ch.toNat s.din)) := by
  rw [exec, execToneProc, State.whenFl_of_legal hi hc]

theorem exec_toneGets_of_legal : exec (.toneGets ch) s = .next (s.respond .ok (s.fl.tz.at ch.toNat)) := by
  rw [exec, execToneGets, State.whenFl_of_legal hi hc]

theorem exec_flProc_of_legal : exec (.flProc ch) s = .next (s.flProcess ch.toNat s.din) := by
  rw [exec, execFlProc, State.whenFl_of_legal hi hc]

end guarded

/-- Settles O59: behind the guards the one command is a step of the filter, the other only answers. -/
theorem toneCommandsComplete : Obligations.ToneCommandsComplete := by
  intro ch s hi hc
  exact ⟨exec_toneGets_of_legal hi hc, fun hN => ⟨_, exec_toneProc_of_legal hi hc,
    ⟨State.toneOut_val hN _ _, State.toneStep_tz_val hN _ _⟩, fun _ hne => s.toneStep_tz_of_ne s.din hne, rfl⟩⟩

/-! ## One sample (rules R203, R205 to R207) -/

section real
variable {s : State} (hN : s.num = .real) (c : Nat) (x : NumT)
include hN

theorem State.flNextPhase_val :
    (s.flNextPhase c).val = Int.fract ((s.fl.phase.at c).val + s.fl.rate.val / s.fl.fs.val) := by
  rw [State.flNextPhase, hN, lfoAdvance_val, Num.real_div, NumT.val_div]

theorem State.flTap_val : (s.flTap c).val = s.readAt c ((s.cfg.p.baseDelay.val +
    s.fl.depth.val / 100 * s.cfg.p.sweepMax.val * Spec.render s.cfg.p.flWave (s.flNextPhase c).val) *
      s.fl.fs.val) := by
  rw [State.flTap, State.dlRead_val hN, State.flDelay_val hN]

theorem State.flDepthScale_val : s.flDepthScale.val = s.fl.depth.val / 100 := by
  rw [State.flDepthScale, hN, Num.real_div, NumT.val_div, NumT.val_hundred]

theorem State.flOut_val : (s.flOut c x).val =
    x.val + (s.flTap c).val * (s.fl.depth.val / 100) * (if s.fl.inv then -1 else 1) := by
  have hsign : s.flSign.val = if s.fl.inv then -1 else 1 := by
    rw [State.flSign, apply_ite NumT.val]
    norm_num
  rw [State.flOut, hN, Num.real_add, NumT.val_add, Num.real_mul, NumT.val_mul, Num.real_mul, NumT.val_mul,
    State.flDepthScale_val hN, hsign]

end real

section sample
variable (s : State) (c : Nat) (x : NumT)

theorem State.flProcess_read (k a : Nat) : (s.flProcess c x).fl.buf.read k a =
    if k = c ∧ a = s.flWpos c then s.num.add x (s.num.mul (s.flTap c) s.fl.fb) else s.fl.buf.read k a := by
  rw [State.flProcess_fl, Memory.read_write]

theorem State.flProcess_flWpos (k : Nat) :
    (s.flProcess c x).flWpos k = if k = c then (s.flWpos c + 1) % s.fl.len else s.flWpos k := by
  rw [State.flWpos, State.flProcess_fl, Store.get_set, imod_succ]
  rfl

theorem State.flProcess_phase (k : Nat) :
    (s.flProcess c x).fl.phase.at k = if k = c then s.flNextPhase c else s.fl.phase.at k := by
  rw [State.flProcess_fl, Store.at_put]

/-- Everything the command can write. -/
theorem State.flProcess_writes : s.flProcess c x = { s with
    status := .ok, dout := (s.flProcess c x).dout
    fl := { s.fl with
      phase := (s.flProcess c x).fl.phase, buf := (s.flProcess c x).fl.buf, wpos := (s.flProcess c x).fl.wpos
      tz := (s.flProcess c x).fl.tz } } := by
  unfold State.flProcess
  cases s.fl.toneEn <;> rfl

variable {s}

theorem State.flProcess_of_toneOff (h : s.fl.toneEn = false) :
    s.flProcess c x = (s.flAdvance c x).respond .ok (s.flOut c x) := by
  rw [State.flProcess, h, if_neg Bool.false_ne_true]

theorem State.flProcess_of_toneOn (h : s.fl.toneEn = true) :
    s.flProcess c x =
      ((s.flAdvance c x).toneStep c (s.flOut c x)).respond .ok ((s.flAdvance c x).toneOut c (s.flOut c x)) := by
  rw [State.flProcess, h, if_pos rfl]

end sample

/-- Settles O50. The tone filter of step 9 takes the output of step 6 and its own state as it was before the command. -/
theorem flProcCompletes : Obligations.FlProcCompletes := by
  intro ch s hN hi hc
  refine ⟨s.flProcess ch.toNat s.din, s.flNextPhase ch.toNat, exec_flProc_of_legal hi hc,
    State.flNextPhase_val hN _, ?_, s.flProcess_writes _ _⟩
  intro d w x v out lp
  have htap : (s.flTap ch.toNat).val = v := State.flTap_val hN _
  have hout : (s.flOut ch.toNat s.din).val = out := (State.flOut_val hN _ _).trans (by rw [htap])
  refine ⟨?_, fun c a hne => ?_, s.flProcess_flWpos _ _, s.flProcess_phase _ _, fun hoff => ?_, fun hon => ?_⟩
  · rw [State.flProcess_read, if_pos ⟨rfl, rfl⟩, hN, Num.real_add, NumT.val_add, Num.real_mul, NumT.val_mul, htap]
  · rw [State.flProcess_read, if_neg (not_and_or.mpr hne)]
  · rw [State.flProcess_of_toneOff _ _ hoff]
    exact ⟨hout, rfl⟩
  · have hadv : (s.flAdvance ch.toNat s.din).num = .real := hN
    have hdout := State.toneOut_val hadv ch.toNat (s.flOut ch.toNat s.din)
    have htz := State.toneStep_tz_val hadv ch.toNat (s.flOut ch.toNat s.din)
    rw [hout] at hdout htz
    rw [State.flProcess_of_toneOn _ _ hon]
    exact ⟨hdout, htz, fun c hne => State.toneStep_tz_of_ne _ _ hne⟩

/-! ## Depth 0 and silence (rule R208) -/

/-- Settles O51: with depth 0 the value read has no weight in the output. -/
theorem flProcZeroDepthPassthrough : Obligations.FlProcZeroDepthPassthrough := by
  intro ch s hN hi hc hdepth hoff
  obtain ⟨t, p, ht, -, ⟨-, -, -, -, hout, -⟩, hframe⟩ := flProcCompletes ch s hN hi hc
  obtain ⟨hdout, -⟩ := hout hoff
  refine ⟨t, ht, congrArg State.status hframe, ?_⟩
  rw [hdout, hdepth, zero_div, mul_zero, zero_mul, add_zero]

/-- A silent buffer reads 0 at every delay: the cubic of four zero words. -/
theorem State.readAt_of_silent {s : State} {c : Nat} (hlen : 0 < s.fl.len)
    (hsilent : ∀ a < s.fl.len, (s.fl.buf.read c a).val = 0) (d : ℝ) : s.readAt c d = 0 := by
  have hword (z : ℤ) : (s.fl.buf.read c (z % s.fl.len).toNat).val = 0 := hsilent _ (imod_lt z hlen)
  simp only [State.readAt, hword]
  simp [Spec.cubic]

/-- Settles O52: the value read is 0, so the answer and the one word written are 0. -/
theorem flProcSilence : Obligations.FlProcSilence := by
  intro ch s hN hi hc hlen hoff hx hsilent
  obtain ⟨t, p, ht, -, ⟨hword, hkept, -, -, hout, -⟩, -⟩ := flProcCompletes ch s hN hi hc
  obtain ⟨hdout, -⟩ := hout hoff
  rw [hx, State.readAt_of_silent hlen hsilent, zero_mul, add_zero] at hword
  rw [hx, State.readAt_of_silent hlen hsilent, zero_mul, zero_mul, add_zero] at hdout
  refine ⟨t, ht, hdout, fun a ha => ?_⟩
  by_cases haw : a = s.flWpos ch.toNat
  · rw [haw, hword]
  · rw [hkept _ a (.inr haw), hsilent a ha]

end Sys2Proof.Machine

/-! SUPPORT. The statements of spec/46_system.md: which words spell the system commands (rules R95, R96) and what
they answer (rules R230 to R232). -/

namespace Sys2Proof

/-! ## The words with opcode 0 (rules R95, R96) -/

theorem row_cases (m : Bool) (i : Instr) : row m i = .ok i ∨ row m i = .error .mustBeZero := by
  cases m
  · exact .inr rfl
  · exact .inl rfl

theorem byte3_eq_zero {w : BitVec 32} (h : w.toNat ≤ 0x00FFFFFF) : byte3 w = 0#8 := by
  apply BitVec.eq_of_toNat_eq
  simp only [byte3, BitVec.extractLsb'_toNat, BitVec.toNat_ofNat, Nat.shiftRight_eq_div_pow]
  omega

/-- The zero word is `NOP`'s alone. -/
theorem decode_nop_iff {w : BitVec 32} : decode w = .ok .nop ↔ w = 0#32 :=
  decode_eq_ok_iff.trans eq_comm

/-- Opcode 0 has one row, so a word there that is not `NOP` has a must-be-zero bit set. -/
theorem decode_mustBeZero_of_opcode_zero {w : BitVec 32} (hop : byte3 w = 0#8) (hw : w ≠ 0#32) :
    decode w = .error .mustBeZero := by
  have hrow : decode w = row (byte2 w == 0#8 && byte1 w == 0#8 && byte0 w == 0#8) .nop := by
    rw [decode, hop]
    rfl
  rw [hrow]
  exact (row_cases _ _).resolve_left fun hok => hw (decode_nop_iff.mp (hrow.trans hok))

/-! ## A word as the sum of its bits (rule R231) -/

theorem mod_two_pow_eq_sum_testBit (x n : ℕ) :
    x % 2 ^ n = ∑ b ∈ Finset.range n, if x.testBit b then 2 ^ b else 0 := by
  induction n with
  | zero => simp [Nat.mod_one]
  | succ n ih =>
    rw [Finset.sum_range_succ, ← ih, Nat.mod_pow_succ, ← Nat.toNat_testBit]
    cases x.testBit n <;> simp

theorem toNat_eq_sum_bits {n : ℕ} (x : BitVec n) :
    x.toNat = ∑ b ∈ Finset.range n, if x.getLsbD b then 2 ^ b else 0 := by
  conv_lhs => rw [← Nat.mod_eq_of_lt x.isLt]
  exact mod_two_pow_eq_sum_testBit x.toNat n

end Sys2Proof

namespace Sys2Proof.Machine

open Sys2Proof

/-! ## The system commands (rules R230 to R232) -/

theorem exec_nop (s : State) : exec .nop s = .next { s with status := .ok, dout := .rat 0 } := rfl

theorem exec_sysGete (s : State) : exec .sysGete s = .next { s with status := .ok, dout := s.estatNum } := rfl

theorem exec_sysClre (s : State) :
    exec .sysClre s = .next { s with status := .ok, dout := s.estatNum, estat := 0#7 } := rfl

theorem State.estatNum_eq (s : State) : s.estatNum = .rat (s.estat.toNat : ℚ) :=
  congrArg NumT.rat (Int.cast_natCast s.estat.toNat)

/-- Settles O1: a word of the range has opcode 0 and is not the zero word, so it is refused. -/
theorem nopRespondsOnly : Obligations.NopRespondsOnly := by
  refine ⟨fun w => decode_nop_iff, fun s w d rest hin hfin hlo hhi => ?_, exec_nop⟩
  have hw : w ≠ 0#32 := by
    rintro rfl
    exact absurd hlo (by decide)
  exact step_of_illegal hin hfin (decode_mustBeZero_of_opcode_zero (byte3_eq_zero hhi) hw)

/-- Settles O2: the number answered is that of the seven bits of `ESTAT`. -/
theorem flagCommandsReadAndClear : Obligations.FlagCommandsReadAndClear := by
  refine ⟨fun w => ⟨decode_eq_ok_iff.trans eq_comm, decode_eq_ok_iff.trans eq_comm⟩, fun s => ?_⟩
  have hmax : s.estat.toNat ≤ 127 := Nat.le_of_lt_succ s.estat.isLt
  refine ⟨s.estat.toNat, ?_, Nat.cast_nonneg _, mod_cast hmax, ?_, ?_⟩
  · exact mod_cast toNat_eq_sum_bits s.estat
  · rw [exec_sysGete, State.estatNum_eq]
  · rw [exec_sysClre, State.estatNum_eq]

end Sys2Proof.Machine

/-! SUPPORT. The statements of spec/60_exceptions.md: the status of a command is the first cause of the table of rule
R242 in the order of rule R245, an error changes what rules R240, R241 and R244 say and nothing else, and a probe
changes nothing (rule R253). All three follow from one lemma on how a command ends, `exec_ends`. -/

namespace Sys2Proof.Machine

open Sys2Proof

/-! ## How a command ends (rules R240, R241, R244) -/

/-- The answer of a command that ends with the error `e`: a refused sample passes through. -/
def errorAnswer (i : Instr) (s : State) (e : Status) : NumT :=
  if i.isProc = true ∧ (e = .uninit ∨ e = .badCh) then s.din else .zero

/-- What an error changes besides the flags and the response: the `*_INIT` bit of a failed engine reset. -/
def State.failed (s : State) : Instr → State
  | .phReset _ => s.setPhInit false
  | .flReset _ => s.setFlInit false
  | _ => s

/-- How the command `i` ends from `s`, by its status: it completes, and a probe then only answers; or it is refused. -/
inductive Ends (i : Instr) (s : State) : Status → State → Prop
  | completed {t : State} (hst : t.status = .ok) (hprobe : i.isProbe = true → ∃ v, t = s.respond .ok v) :
      Ends i s .ok t
  | refused {e : Status} (he : e ≠ .ok) : Ends i s e ((s.failed i).raise e (errorAnswer i s e))

theorem Ends.status {i : Instr} {s t : State} {st : Status} (h : Ends i s st t) : t.status = st := by
  cases h with
  | completed hst => exact hst
  | refused he => rfl

/-- An error of code k sets the flag of bit k − 1 (rule R240). -/
theorem Status.mask_of_ne_ok {e : Status} (he : e ≠ .ok) : e.mask = 1#7 <<< (e.code.toNat - 1) := by
  cases e with
  | ok => exact absurd rfl he
  | illegal | uninit | badCh | resetFail | badVal => rfl

/-- Everything an error changes, field by field. -/
theorem raise_failed_eq (i : Instr) (s : State) {e : Status} (he : e ≠ .ok) :
    (s.failed i).raise e (errorAnswer i s e) = { s with
      estat := s.estat ||| (1#7 <<< (e.code.toNat - 1))
      status := e
      dout := (if i.isProc = true ∧ (e = .uninit ∨ e = .badCh) then s.din else .rat 0)
      ph := (match i with
        | .phReset _ => { s.ph with init := false }
        | _ => s.ph)
      fl := (match i with
        | .flReset _ => { s.fl with init := false }
        | _ => s.fl) } := by
  rw [← Status.mask_of_ne_ok he]
  cases i <;> rfl

section guards

variable {i : Instr} {s t k : State} {eng : Engine} {ch : BitVec 8}

/-! ### The commands that are no engine reset -/

theorem engine_of_needsInit (h : i.needsInit = some eng) : i.engine = some eng := by
  cases i with
  | phReset | phSetp | phGetp | flReset | flSetp | flGetp => cases h
  | _ => exact h

theorem failed_of_needsInit (h : i.needsInit = some eng) : s.failed i = s := by
  cases i with
  | phReset | flReset => cases h
  | _ => rfl

theorem failed_of_illFormed (h : i.wellFormed = false) : s.failed i = s := by
  cases i with
  | phReset | flReset => cases h
  | _ => rfl

theorem failed_of_probe (h : i.isProbe = true) : s.failed i = s := by
  cases i with
  | phReset | flReset => cases h
  | _ => rfl

/-- The answer at the two guards: a `PROC` command passes its sample through. -/
def guardAnswer (i : Instr) (s : State) : NumT := if i.isProc then s.din else .zero

theorem errorAnswer_of_guard {e : Status} (he : e = .uninit ∨ e = .badCh) : errorAnswer i s e = guardAnswer i s := by
  simp [errorAnswer, guardAnswer, he]

theorem errorAnswer_of_no_guard {e : Status} (hinit : e ≠ .uninit) (hch : e ≠ .badCh) : errorAnswer i s e = .zero := by
  simp [errorAnswer, hinit, hch]

/-- An error of a command that is no engine reset. -/
theorem Ends.raise (hf : s.failed i = s) {e : Status} {v : NumT} (hv : errorAnswer i s e = v) (he : e ≠ .ok) :
    Ends i s e (s.raise e v) := by
  have h : Ends i s e ((s.failed i).raise e (errorAnswer i s e)) := .refused he
  rwa [hf, hv] at h

/-! ## The causes in the order of the checks (rules R242, R243, R245) -/

/-- The causes behind the value checks and the guards: the columns `E_BADVAL` and `E_RESETFAIL`. -/
def lateStatus (i : Instr) (s : State) : Status :=
  if badValue i s then .badVal else if resetFails i s then .resetFail else .ok

theorem Ends.illFormed (hwf : i.wellFormed = false) : Ends i s (causeStatus i s) (s.raise .illegal .zero) := by
  have hc : causeStatus i s = .illegal := if_pos hwf
  rw [hc]
  exact .raise (failed_of_illFormed hwf) (errorAnswer_of_no_guard nofun nofun) nofun

variable (hwf : i.wellFormed = true)
include hwf

/-- A command with no guard: the system commands, the engine resets and the parameter commands. -/
theorem Ends.unguarded (hinit : i.needsInit = none) (hch : i.channel = none) (h : Ends i s (lateStatus i s) t) :
    Ends i s (causeStatus i s) t := by
  have hc : causeStatus i s = lateStatus i s := by simp [causeStatus, lateStatus, hwf, hinit, hch]
  rwa [hc]

/-- The initialisation guard, before whatever comes behind it. -/
theorem Ends.initGuard (hinit : i.needsInit = some eng)
    (h : s.engInit eng = true → Ends i s (causeStatus i s) k) :
    Ends i s (causeStatus i s) (s.whenInit (s.engInit eng) (guardAnswer i s) k) := by
  rcases State.whenInit_cases s k (s.engInit eng) (guardAnswer i s) with ⟨hi, e⟩ | ⟨hi, e⟩ <;> rw [e]
  · exact h hi
  · have hc : causeStatus i s = .uninit := by simp [causeStatus, hwf, hinit, hi]
    rw [hc]
    exact .raise (failed_of_needsInit hinit) (errorAnswer_of_guard (.inl rfl)) nofun

/-- A command with the initialisation guard alone. -/
theorem Ends.whenInit (hinit : i.needsInit = some eng) (hch : i.channel = none) (h : Ends i s (lateStatus i s) k) :
    Ends i s (causeStatus i s) (s.whenInit (s.engInit eng) (guardAnswer i s) k) := by
  refine .initGuard hwf hinit fun hi => ?_
  have hc : causeStatus i s = lateStatus i s := by simp [causeStatus, lateStatus, hwf, hinit, hch, hi]
  rwa [hc]

/-- A command with both guards. -/
theorem Ends.whenInitChannel (hinit : i.needsInit = some eng) (hch : i.channel = some ch)
    (h : Ends i s (lateStatus i s) k) :
    Ends i s (causeStatus i s) (s.whenInit (s.engInit eng) (guardAnswer i s)
      (s.whenChannel ch.toNat (s.engNch eng) (guardAnswer i s) k)) := by
  refine .initGuard hwf hinit fun hi => ?_
  have heng : i.engine = some eng := engine_of_needsInit hinit
  rcases State.whenChannel_cases s k ch.toNat (s.engNch eng) (guardAnswer i s) with ⟨hlt, e⟩ | ⟨hle, e⟩ <;> rw [e]
  · have hc : causeStatus i s = lateStatus i s := by
      simp [causeStatus, lateStatus, hwf, hinit, heng, hch, hi, Nat.not_le.mpr hlt]
    rwa [hc]
  · have hc : causeStatus i s = .badCh := by simp [causeStatus, hwf, hinit, heng, hch, hi, hle]
    rw [hc]
    exact .raise (failed_of_needsInit hinit) (errorAnswer_of_guard (.inr rfl)) nofun

end guards

/-! ## Behind the guards -/

/-- A code has no bit exactly when it is above 1 (rule R92). -/
theorem bitOfIval_isNone (ival : BitVec 8) : (bitOfIval ival).isNone = decide (1 < ival.toNat) := by
  unfold bitOfIval
  match ival.toNat with
  | 0 | 1 => rfl
  | n + 2 => simp

/-- A code has no waveform exactly when it is above 3 (rules R28, R128). -/
theorem waveOfCode_isNone (code : Nat) : (waveOfCode code).isNone = decide (3 < code) := by
  match code with
  | 0 | 1 | 2 | 3 => rfl
  | n + 4 => simp [waveOfCode]

section late

variable {i : Instr} {s t : State}

/-- A command that completes and is no probe. -/
theorem Ends.acts (hlate : lateStatus i s = .ok) (hprobe : i.isProbe = false) (hst : t.status = .ok) :
    Ends i s (lateStatus i s) t := by
  rw [hlate]
  exact .completed hst fun h => absurd (hprobe.symm.trans h) Bool.false_ne_true

/-- A command that only answers. -/
theorem Ends.answers (hlate : lateStatus i s = .ok) (v : NumT) : Ends i s (lateStatus i s) (s.respond .ok v) := by
  rw [hlate]
  exact .completed rfl fun _ => ⟨v, rfl⟩

theorem Ends.badVal (hf : s.failed i = s) (hlate : lateStatus i s = .badVal) :
    Ends i s (lateStatus i s) (s.raise .badVal .zero) := by
  rw [hlate]
  exact .raise hf (errorAnswer_of_no_guard nofun nofun) nofun

/-- An engine reset is rejected or succeeds (rules R160, R200). -/
theorem Ends.engineReset {rejects : Bool} (hlate : lateStatus i s = if rejects then .resetFail else .ok)
    (hprobe : i.isProbe = false) (hst : t.status = .ok) :
    Ends i s (lateStatus i s) (if rejects then (s.failed i).raise .resetFail .zero else t) := by
  cases rejects with
  | true =>
    have h : Ends i s .resetFail _ := .refused nofun
    rw [errorAnswer_of_no_guard (e := .resetFail) nofun nofun] at h
    rwa [hlate]
  | false => exact .acts hlate hprobe hst

/-- A real-valued register is written with `ival` = 0 (rule R27). -/
theorem Ends.setReal {ival : BitVec 8} (hlate : lateStatus i s = .ok) (hprobe : i.isProbe = false)
    (hz : (ival == 0#8) = true) (lo hi : NumT) (store : NumT → State → State) :
    Ends i s (lateStatus i s) (s.setReal ival lo hi store) := by
  rcases State.setReal_cases s ival lo hi store with ⟨hne, -⟩ | ⟨-, e⟩
  · exact absurd (beq_iff_eq.mp hz) hne
  · rw [e]
    exact .acts hlate hprobe rfl

theorem Ends.setBit {ival : BitVec 8} (hlate : lateStatus i s = if (bitOfIval ival).isNone then .badVal else .ok)
    (hf : s.failed i = s) (hprobe : i.isProbe = false) (store : Bool → State → State) :
    Ends i s (lateStatus i s) (s.setBit ival store) := by
  rcases State.setBit_cases s ival store with ⟨b, hb, e⟩ | ⟨hb, e⟩ <;> rw [hb] at hlate <;> rw [e]
  · exact .acts hlate hprobe rfl
  · exact .badVal hf hlate

theorem Ends.setWave {ival : BitVec 8}
    (hlate : lateStatus i s = if (waveOfCode ival.toNat).isNone then .badVal else .ok)
    (hf : s.failed i = s) (hprobe : i.isProbe = false) (store : Wave → State → State) :
    Ends i s (lateStatus i s) (s.setWave ival store) := by
  rcases State.setWave_cases s ival store with ⟨w, hw, e⟩ | ⟨hw, e⟩ <;> rw [hw] at hlate <;> rw [e]
  · exact .acts hlate hprobe rfl
  · exact .badVal hf hlate

end late

/-! ### The parameter registers (rules R144, R145, R161, R162, R201, R202) -/

/-- A register has one parameter id (rule R27). -/
theorem PhReg.eq_pid_of_ofPid {pid : BitVec 8} {r : PhReg} (h : PhReg.ofPid pid = some r) : pid = r.pid := by
  unfold PhReg.ofPid at h
  split at h <;> cases h <;> next hpid => exact BitVec.eq_of_toNat_eq hpid

/-- A register has one parameter id (rule R50). -/
theorem FlReg.eq_pid_of_ofPid {pid : BitVec 8} {r : FlReg} (h : FlReg.ofPid pid = some r) : pid = r.pid := by
  unfold FlReg.ofPid at h
  split at h <;> cases h <;> next hpid => exact BitVec.eq_of_toNat_eq hpid

section registers

variable (s : State)

theorem execPhSetp_ends {ival pid : BitVec 8} (hwf : (Instr.phSetp ival pid).wellFormed = true) :
    ∃ t, execPhSetp ival pid s = .next t ∧ Ends (.phSetp ival pid) s (causeStatus (.phSetp ival pid) s) t := by
  refine ⟨_, rfl, .unguarded hwf rfl rfl ?_⟩
  rw [Instr.wellFormed, ← PhReg.any_accepts] at hwf
  cases hr : PhReg.ofPid pid with
  | none =>
    rw [hr] at hwf
    cases hwf
  | some r =>
    rw [hr] at hwf
    obtain rfl := PhReg.eq_pid_of_ofPid hr
    cases r with
    | rate | depth | intensity => exact .setReal rfl rfl hwf _ _ _
    | quad | fbsw =>
      exact .setBit (by simp [lateStatus, badValue, resetFails, PhReg.pid, bitOfIval_isNone]) rfl rfl _
    | wave => exact .setWave (by simp [lateStatus, badValue, resetFails, PhReg.pid, waveOfCode_isNone]) rfl rfl _
    | fs | nch | init => cases hwf

theorem execFlSetp_ends {ival pid : BitVec 8} (hwf : (Instr.flSetp ival pid).wellFormed = true) :
    ∃ t, execFlSetp ival pid s = .next t ∧ Ends (.flSetp ival pid) s (causeStatus (.flSetp ival pid) s) t := by
  refine ⟨_, rfl, .unguarded hwf rfl rfl ?_⟩
  rw [Instr.wellFormed, ← FlReg.any_accepts] at hwf
  cases hr : FlReg.ofPid pid with
  | none =>
    rw [hr] at hwf
    cases hwf
  | some r =>
    rw [hr] at hwf
    obtain rfl := FlReg.eq_pid_of_ofPid hr
    cases r with
    | rate | depth | fb => exact .setReal rfl rfl hwf _ _ _
    | inv | toneEn =>
      exact .setBit (by simp [lateStatus, badValue, resetFails, FlReg.pid, bitOfIval_isNone]) rfl rfl _
    | fs | nch | init | len => cases hwf

theorem execPhGetp_ends {pid : BitVec 8} (hwf : (Instr.phGetp pid).wellFormed = true) :
    ∃ t, execPhGetp pid s = .next t ∧ Ends (.phGetp pid) s (causeStatus (.phGetp pid) s) t := by
  obtain ⟨r, hr⟩ := Option.isSome_iff_exists.mp ((PhReg.ofPid_isSome pid).trans hwf)
  refine ⟨_, rfl, .unguarded hwf rfl rfl ?_⟩
  rw [hr]
  exact .answers rfl _

theorem execFlGetp_ends {pid : BitVec 8} (hwf : (Instr.flGetp pid).wellFormed = true) :
    ∃ t, execFlGetp pid s = .next t ∧ Ends (.flGetp pid) s (causeStatus (.flGetp pid) s) t := by
  obtain ⟨r, hr⟩ := Option.isSome_iff_exists.mp ((FlReg.ofPid_isSome pid).trans hwf)
  refine ⟨_, rfl, .unguarded hwf rfl rfl ?_⟩
  rw [hr]
  exact .answers rfl _

theorem execApfSetp_ends {fsel : BitVec 2} {st : Stage} (hwf : (Instr.apfSetp fsel st).wellFormed = true) :
    ∃ t, execApfSetp fsel st s = .next t ∧ Ends (.apfSetp fsel st) s (causeStatus (.apfSetp fsel st) s) t := by
  obtain ⟨r, hr⟩ := Option.isSome_iff_exists.mp ((ApfReg.ofFsel_isSome fsel).trans hwf)
  refine ⟨_, rfl, ?_⟩
  rw [hr]
  exact .whenInit (eng := .phaser) hwf rfl rfl (.acts rfl rfl rfl)

theorem execApfGetp_ends {fsel : BitVec 2} {st : Stage} (hwf : (Instr.apfGetp fsel st).wellFormed = true) :
    ∃ t, execApfGetp fsel st s = .next t ∧ Ends (.apfGetp fsel st) s (causeStatus (.apfGetp fsel st) s) t := by
  obtain ⟨r, hr⟩ := Option.isSome_iff_exists.mp ((ApfReg.ofFsel_isSome fsel).trans hwf)
  refine ⟨_, rfl, ?_⟩
  rw [hr]
  exact .whenInit (eng := .phaser) hwf rfl rfl (.answers rfl _)

/-! ### The engine resets (rules R160, R200) -/

theorem lateStatus_phReset (n : BitVec 8) :
    lateStatus (.phReset n) s = if resetRejects s.cfg.p n.toNat s.din then .resetFail else .ok := by
  simp [lateStatus, badValue, resetFails, resetRejects, BitVec.toNat_eq]

theorem lateStatus_flReset (n : BitVec 8) :
    lateStatus (.flReset n) s = if flResetRejects s n.toNat then .resetFail else .ok := by
  simp [lateStatus, badValue, resetFails, resetRejects, flResetRejects, BitVec.toNat_eq]

/-! ### The probes with a bad value (rules R126, R186) -/

theorem execLfoRender_ends (ch : BitVec 8) (wave : BitVec 3) (quad : Bool) (eng : Engine) :
    ∃ t, execLfoRender ch wave quad eng s = .next t ∧
      Ends (.lfoRender ch wave quad eng) s (causeStatus (.lfoRender ch wave quad eng) s) t := by
  refine ⟨_, rfl, .whenInitChannel rfl rfl rfl ?_⟩
  have hlate : lateStatus (.lfoRender ch wave quad eng) s =
      if (waveOfCode wave.toNat).isNone then .badVal else .ok := by
    rw [waveOfCode_isNone]
    rfl
  cases hw : waveOfCode wave.toNat with
  | some w =>
    rw [hw] at hlate
    exact .answers hlate _
  | none =>
    rw [hw] at hlate
    exact .badVal rfl hlate

theorem execDlPeek_ends (ch : BitVec 8) (addr : BitVec 16) :
    ∃ t, execDlPeek ch addr s = .next t ∧ Ends (.dlPeek ch addr) s (causeStatus (.dlPeek ch addr) s) t := by
  refine ⟨_, rfl, .whenInitChannel (eng := .flanger) rfl rfl rfl ?_⟩
  have hlate : lateStatus (.dlPeek ch addr) s = if s.fl.len ≤ addr.toNat then .badVal else .ok := by
    simp [lateStatus, badValue, resetFails]
  split
  · next h => exact .answers (hlate.trans (if_neg (Nat.not_le.mpr h))) _
  · next h => exact .badVal rfl (hlate.trans (if_pos (Nat.not_lt.mp h)))

end registers

/-! ## Every command -/

/-- A command that passes its value checks. -/
theorem exec_ends_of_wellFormed {i : Instr} (hwf : i.wellFormed = true) (s : State) :
    ∃ t, exec i s = .next t ∧ Ends i s (causeStatus i s) t := by
  cases i with
  | nop | sysGete => exact ⟨_, rfl, .unguarded hwf rfl rfl (.answers rfl _)⟩
  | sysClre => exact ⟨_, rfl, .unguarded hwf rfl rfl (.acts rfl rfl rfl)⟩
  | phReset n => exact ⟨_, rfl, .unguarded hwf rfl rfl (.engineReset (lateStatus_phReset s n) rfl rfl)⟩
  | flReset n => exact ⟨_, rfl, .unguarded hwf rfl rfl (.engineReset (lateStatus_flReset s n) rfl rfl)⟩
  | phSetp ival pid => exact execPhSetp_ends s hwf
  | flSetp ival pid => exact execFlSetp_ends s hwf
  | phGetp pid => exact execPhGetp_ends s hwf
  | flGetp pid => exact execFlGetp_ends s hwf
  | apfSetp fsel st => exact execApfSetp_ends s hwf
  | apfGetp fsel st => exact execApfGetp_ends s hwf
  | apfGetg st => exact ⟨_, rfl, .whenInit (eng := .phaser) hwf rfl rfl (.answers rfl _)⟩
  | apfGets ch st => exact ⟨_, rfl, .whenInitChannel (eng := .phaser) hwf rfl rfl (.answers rfl _)⟩
  | phProc ch | apfProc ch st => exact ⟨_, rfl, .whenInitChannel (eng := .phaser) hwf rfl rfl (.acts rfl rfl rfl)⟩
  | lfoAdv ch xinc eng => exact ⟨_, rfl, .whenInitChannel hwf rfl rfl (.acts rfl rfl rfl)⟩
  | lfoRender ch wave quad eng => exact execLfoRender_ends s ch wave quad eng
  | lfoGetph ch eng => exact ⟨_, rfl, .whenInitChannel hwf rfl rfl (.answers rfl _)⟩
  | flProc ch =>
    obtain ⟨-, -, -, -, -, -, hok⟩ := s.flProcess_frame ch.toNat s.din
    exact ⟨_, rfl, .whenInitChannel (eng := .flanger) hwf rfl rfl (.acts rfl rfl hok)⟩
  | toneProc ch => exact ⟨_, rfl, .whenInitChannel (eng := .flanger) hwf rfl rfl (.acts rfl rfl rfl)⟩
  | dlRead ch | dlGetw ch | toneGets ch =>
    exact ⟨_, rfl, .whenInitChannel (eng := .flanger) hwf rfl rfl (.answers rfl _)⟩
  | dlPeek ch addr => exact execDlPeek_ends s ch addr

/-- Every command completes, and ends as the first cause of the table says. -/
theorem exec_ends (i : Instr) (s : State) : ∃ t, exec i s = .next t ∧ Ends i s (causeStatus i s) t := by
  cases hwf : i.wellFormed with
  | false =>
    obtain ⟨t, ht, hbad, -⟩ := exec_checked i s
    exact ⟨t, ht, hbad hwf ▸ .illFormed hwf⟩
  | true => exact exec_ends_of_wellFormed hwf s

theorem ends_of_exec {i : Instr} {s t : State} (h : exec i s = .next t) : ∃ st, Ends i s st t := by
  obtain ⟨u, hu, hends⟩ := exec_ends i s
  obtain rfl := Host.Outcome.next.inj (hu.symm.trans h)
  exact ⟨_, hends⟩

/-- Settles O11, from how every command ends. -/
theorem statusFollowsCauses : Obligations.StatusFollowsCauses := by
  intro i s
  obtain ⟨t, ht, hends⟩ := exec_ends i s
  exact ⟨t, ht, hends.status⟩

/-- Settles O12: a command that does not answer `OK` is refused. -/
theorem errorChangesNothingElse : Obligations.ErrorChangesNothingElse := by
  intro i s t h hst
  obtain ⟨st, hends⟩ := ends_of_exec h
  cases hends with
  | completed hok => exact absurd hok hst
  | refused he => exact raise_failed_eq i s he

/-- Settles O14: a probe that completes only answers, and a refused one is no engine reset. -/
theorem probesChangeNothing : Obligations.ProbesChangeNothing := by
  intro i s t hprobe h
  obtain ⟨st, hends⟩ := ends_of_exec h
  cases hends with
  | completed hok hanswer =>
    obtain ⟨v, rfl⟩ := hanswer hprobe
    exact ⟨rfl, rfl, fun _ => rfl⟩
  | refused he =>
    rw [failed_of_probe hprobe]
    exact ⟨rfl, rfl, fun hok => absurd hok he⟩

end Sys2Proof.Machine
